-- ==== Sys2Proof/Word.lean ====
section
/-! DEFINITION. The word types of the spec's notation (00_scope.md R7): `u8`, `u16`, `u32`. -/

namespace Sys2Proof

/-- `u8`, the spec's `Byte` (R7). -/
abbrev Byte := BitVec 8

/-- `u16`, the width of a length operand (30_encoding.md R94). -/
abbrev Half := BitVec 16

/-- `u32`, the width of addresses, masks, pointers, timeouts and Mailbox fields (R7, 30_encoding.md R94). -/
abbrev Word := BitVec 32

end Sys2Proof
end

