-- ==== Sys2Proof/Config.lean ====
section
/-! DEFINITION. The implementation parameters (00_scope.md R5), the names of the constraints on them (R6; the check itself is
`Sys2Proof.Machine.configProblem`), and the free values: the opaque constants that stand for the spec's `draw` (R10). -/

namespace Sys2Proof

/-- The address-sampling strategy, parameter SAMPLE_MODE (R5, 41_read_path.md R151 to R153). -/
inductive SampleMode where
  | single
  | double
deriving DecidableEq, Repr

/-- The parameters a model takes as arguments (R5). None changes while the model runs. -/
structure Params where
  /-- ADDR_BITS: number of address lines, 9 to 32. -/
  addrBits : Nat
  /-- ROM_CAP: ROM Buffer capacity in bytes, a power of two, 512 to 2^32. -/
  romCap : Nat
  /-- INITIAL_MASK: `address_mask` at boot. -/
  initialMask : Word
  /-- INITIAL_IMAGE: the ROM Buffer at boot; an offset not listed holds 0. -/
  initialImage : List Host.Cell
  /-- SAMPLE_MODE. -/
  sampleMode : SampleMode
  /-- BUF_PRESENT: an external tri-state data buffer is fitted. -/
  bufPresent : Bool
  /-- EXPANDER_PRESENT: no effect on any rule. -/
  expanderPresent : Bool
  /-- CLOCK_COUNTING: must be false (R6(c)). -/
  clockCounting : Bool
  /-- INQ_CAP: Inbound Queue capacity. -/
  inqCap : Nat
  /-- OUTQ_CAP: Outbound Queue capacity. -/
  outqCap : Nat
  /-- CHUNK_SIZE: size of the outbound chunks. -/
  chunkSize : Nat
  /-- DET_FIFO_DEPTH: depth of each detector's event FIFO. -/
  detFifoDepth : Nat
  /-- SM_UNITS: hardware state-machine units available. -/
  smUnits : Nat
deriving DecidableEq, Repr

namespace Config

/-- DATA_BITS (R5). -/
def dataBits : Nat := 8

/-- WIN_SIZE: Mailbox window size in bytes (R5, 20_memory.md R70). -/
def winSize : Nat := 512

/-- WIN_ALIGN: Mailbox window alignment in bytes (R5). -/
def winAlign : Nat := 512

/-- OUT_AREA_OFF: offset of the outbound byte area in the window (R5). -/
def outAreaOff : Nat := 256

/-- Units a session needs: three Address Decoder programs and two detectors (43_control_plane.md R201, 60_exceptions.md R260). -/
def sessionUnits : Nat := 5

/-- Why a configuration is refused as a whole (R6, 60_exceptions.md R265(a)). -/
inductive Problem where
  /-- R5: ADDR_BITS outside 9 to 32. -/
  | addrBits
  /-- R6(a): ROM_CAP no power of two, below WIN_SIZE, or above 2^32. -/
  | romCap
  /-- R6(b): INITIAL_MASK not 2^k − 1, or too large for ROM_CAP or ADDR_BITS. -/
  | initialMask
  /-- R5: INITIAL_IMAGE lists an offset at or above ROM_CAP, or is not in the canonical form. -/
  | initialImage
  /-- R6(c): the clock-counting Mailbox variant, CLOCK_COUNTING_VARIANT. -/
  | clockCountingVariant
  /-- R6(d): a capacity of 0. -/
  | capacity
  /-- R6(e): SM_UNITS below 3. -/
  | smUnits
deriving DecidableEq, Repr

/-- Configuration K of 95_test_vectors.md section 2.0, with an image of zeros: the configuration of `State.reset`.
DESIGN CHOICE (log 1): the spec leaves these parameters OPEN. -/
def paramsK : Params where
  addrBits := 18
  romCap := 262144
  initialMask := 0xFFFF
  initialImage := []
  sampleMode := .single
  bufPresent := false
  expanderPresent := false
  clockCounting := false
  inqCap := 4
  outqCap := 4
  chunkSize := 2
  detFifoDepth := 4
  smUnits := 5

/-- The kind a malformed access's class draw picks among (42_mailbox.md R174). -/
inductive ClassPick where
  | plain
  | out
  | consume
deriving DecidableEq, Repr, Inhabited

/-- FREE VALUE: the n-th draw, taken as a `u8` (R10; used by 40_bus_decoder.md R126, 41_read_path.md R154, 42_mailbox.md R174). -/
opaque drawByte : Nat → Byte

/-- FREE VALUE: the n-th draw, taken as the mask of the lines that have already switched (41_read_path.md R155). -/
opaque drawMask : Nat → Word

/-- FREE VALUE: the n-th draw, taken as a `Bool` (42_mailbox.md R173: the event may be lost). -/
opaque drawBool : Nat → Bool

/-- FREE VALUE: the n-th draw, taken as a class (42_mailbox.md R174). -/
opaque drawClass : Nat → ClassPick

end Config

end Sys2Proof
end

