-- ==== Sys2Proof/Syntax.lean ====
section
/-! DEFINITION. The operations of the block, one constructor per row of spec/opcode_table.json (30_encoding.md R96, R97). -/

namespace Sys2Proof

/-- A region of persistent storage, the operand of PERSIST (43_control_plane.md R218, format FR8). -/
inductive Region where
  | romImage
  | config
deriving DecidableEq, Repr

/-- Every operation of the operation map (R96) and every class of the window classification table (R97). -/
inductive Instr where
  /-- BUS_ADDR, selector 0x01, FA32 (R121). -/
  | busAddr (a : Word)
  /-- BUS_SETTLE, selector 0x02, F0 (R122). -/
  | busSettle
  /-- BUS_ENABLE, selector 0x03, FE8 (R123). -/
  | busEnable (ce oe : Bool)
  /-- BUS_LATCH, selector 0x04, F0 (R126). -/
  | busLatch
  /-- OESEQ_STEP, selector 0x10, F0 (R130). -/
  | oeseqStep
  /-- DRV_SHIFT, selector 0x11, F0 (R132). -/
  | drvShift
  /-- REP_STEP, selector 0x12, F0 (R135). -/
  | repStep
  /-- RESP_SAMPLE, selector 0x18, F0 (R151 to R153). -/
  | respSample
  /-- RESP_SERVE, selector 0x19, F0 (R154). -/
  | respServe
  /-- IRQ_W, selector 0x20, F0 (R180). -/
  | irqW
  /-- IRQ_R, selector 0x21, F0 (R181). -/
  | irqR
  /-- CP_STEP, selector 0x22, F0 (R200). -/
  | cpStep
  /-- BEGIN_SESSION, selector 0x30, FA32 (R201, R202). -/
  | beginSession (a : Word)
  /-- END_SESSION, selector 0x31, F0 (R206). -/
  | endSession
  /-- UPDATE, selector 0x32, FTD (R207). -/
  | update (timeout : Word) (data : List Byte)
  /-- SUSPEND, selector 0x33, F0 (R216). -/
  | suspend
  /-- RESUME, selector 0x34, F0 (R217). -/
  | resume
  /-- PERSIST, selector 0x35, FR8 (R218). -/
  | persist (r : Region)
  /-- SET_MASK, selector 0x36, FA32 (R219). -/
  | setMask (m : Word)
  /-- ROM_SETPTR, selector 0x37, FA32 (R220). -/
  | romSetptr (p : Word)
  /-- ROM_GETPTR, selector 0x38, F0 (R221). -/
  | romGetptr
  /-- ROM_WRITE, selector 0x39, FLD (R222). -/
  | romWrite (data : List Byte)
  /-- ROM_READ, selector 0x3A, FL16 (R223). -/
  | romRead (n : Half)
  /-- ACCFLAG_READ, selector 0x3B, F0 (R136). -/
  | accflagRead
  /-- ACCFLAG_CLEAR, selector 0x3C, F0 (R137). -/
  | accflagClear
  /-- TICK, selector 0x40, F0 (R225). -/
  | tick
  /-- MBOX_OUT: a closing access at window offset 256 + b (R97, R171). -/
  | mboxOut (b : Byte)
  /-- MBOX_CONSUME: a closing access at window offset 12 (R97, R172). -/
  | mboxConsume
  /-- PLAIN_READ: a closing access at any other address (R97, R170). -/
  | plainRead
deriving DecidableEq, Repr

end Sys2Proof
end

