-- ==== Sys2Proof/WellFormed.lean ====
section
/-! DEFINITION. Which instructions the encoding admits (30_encoding.md R94, R99). -/

namespace Sys2Proof

/-- A `u32` is an `Addr`: the bits above ADDR_BITS are zero (00_scope.md R7). -/
def isAddr (addrBits : Nat) (a : Word) : Bool := decide (a.toNat < 2 ^ addrBits)

/-- The operand list of FTD or FLD fits its `u16` length (30_encoding.md R94). -/
def fitsLength (data : List Byte) : Bool := decide (data.length ≤ 65535)

/-- The operand checks of an instruction: BUS_ADDR drives only lines that exist (R99(c)), and a byte list fits its length
field (R93). Every other operand is legal by its type. -/
def Instr.wellFormed (addrBits : Nat) : Instr → Bool
  | .busAddr a => isAddr addrBits a
  | .busSettle => true
  | .busEnable _ _ => true
  | .busLatch => true
  | .oeseqStep => true
  | .drvShift => true
  | .repStep => true
  | .respSample => true
  | .respServe => true
  | .irqW => true
  | .irqR => true
  | .cpStep => true
  | .beginSession _ => true
  | .endSession => true
  | .update _ data => fitsLength data
  | .suspend => true
  | .resume => true
  | .persist _ => true
  | .setMask _ => true
  | .romSetptr _ => true
  | .romGetptr => true
  | .romWrite data => fitsLength data
  | .romRead _ => true
  | .accflagRead => true
  | .accflagClear => true
  | .tick => true
  | .mboxOut _ => true
  | .mboxConsume => true
  | .plainRead => true

end Sys2Proof
end

