-- ==== Sys2Proof/Decode.lean ====
section
/-! DEFINITION. The three encodings of 30_encoding.md R90: the operation decoder (R93 to R102) and its encoder, and the
detectors' window-offset decode (R91, R97). Every decoder is total and rejects by name. -/

namespace Sys2Proof

/-- The value of a little-endian byte list: the first byte is least significant (R93, 20_memory.md R65). -/
def leValue : List Byte → Nat
  | [] => 0
  | b :: rest => b.toNat + 256 * leValue rest

/-- The `n`-byte little-endian image of a value (R93, 20_memory.md R65). -/
def leBytes : Nat → Nat → List Byte
  | 0, _ => []
  | n + 1, v => BitVec.ofNat 8 v :: leBytes n (v / 256)

/-- Why a byte string is no operation (R98, R99). -/
inductive DecodeError where
  /-- Byte 0 is no selector of the operation map (R98). -/
  | unknownSelector
  /-- A reserved operand value, or too few bytes (R99). -/
  | badOperand
deriving DecidableEq, Repr

/-- What the front of a byte string decodes to (R101, R102). -/
inductive Decoded where
  /-- The string has ended. -/
  | done
  /-- No operation stands here. -/
  | invalid (e : DecodeError)
  /-- The operation `i`, `n` bytes long. -/
  | op (i : Instr) (n : Nat)
deriving DecidableEq, Repr

/-- Format F0 (R93): no operand. -/
def decodeF0 (i : Instr) : Decoded := .op i 1

/-- Format FA32 (R93): a `u32`; `ok` is the operand check (R99(c)). -/
def decodeA32 (ok : Word → Bool) (mk : Word → Instr) : List Byte → Decoded
  | b0 :: b1 :: b2 :: b3 :: _ =>
    let a := BitVec.ofNat 32 (leValue [b0, b1, b2, b3])
    if ok a then .op (mk a) 5 else .invalid .badOperand
  | _ => .invalid .badOperand

/-- Format FE8 (R93, R95(c)): bit 0 is `ce`, bit 1 is `oe`, bits [7:2] are zero (R99(a)). -/
def decodeE8 : List Byte → Decoded
  | e :: _ => if e.toNat < 4 then .op (.busEnable (e.getLsbD 0) (e.getLsbD 1)) 2 else .invalid .badOperand
  | _ => .invalid .badOperand

/-- Format FR8 (R93): 0 is RomImage, 1 is Config, the rest reserved (R99(b)). -/
def decodeR8 : List Byte → Decoded
  | r :: _ =>
    if r.toNat = 0 then .op (.persist .romImage) 2
    else if r.toNat = 1 then .op (.persist .config) 2
    else .invalid .badOperand
  | _ => .invalid .badOperand

/-- Format FL16 (R93): a `u16`. -/
def decodeL16 (mk : Half → Instr) : List Byte → Decoded
  | b0 :: b1 :: _ => .op (mk (BitVec.ofNat 16 (leValue [b0, b1]))) 3
  | _ => .invalid .badOperand

/-- Format FLD (R93): a `u16` length and that many data bytes (R99(d)). -/
def decodeLD (mk : List Byte → Instr) : List Byte → Decoded
  | l0 :: l1 :: rest =>
    let len := leValue [l0, l1]
    if len ≤ rest.length then .op (mk (rest.take len)) (3 + len) else .invalid .badOperand
  | _ => .invalid .badOperand

/-- Format FTD (R93): a `u32` timeout, a `u16` length and that many data bytes (R99(d)). -/
def decodeTD (mk : Word → List Byte → Instr) : List Byte → Decoded
  | t0 :: t1 :: t2 :: t3 :: l0 :: l1 :: rest =>
    let len := leValue [l0, l1]
    if len ≤ rest.length then .op (mk (BitVec.ofNat 32 (leValue [t0, t1, t2, t3])) (rest.take len)) (7 + len)
    else .invalid .badOperand
  | _ => .invalid .badOperand

/-- The operation decoder (R93, R96, R98, R99): the operation at the front of a byte string, its length, or why there is none.
Only BUS_ADDR's operand check depends on a parameter, ADDR_BITS. -/
def decodeOp (addrBits : Nat) : List Byte → Decoded
  | [] => .done
  | sel :: args =>
    match sel.toNat with
    | 0x01 => decodeA32 (isAddr addrBits) .busAddr args
    | 0x02 => decodeF0 .busSettle
    | 0x03 => decodeE8 args
    | 0x04 => decodeF0 .busLatch
    | 0x10 => decodeF0 .oeseqStep
    | 0x11 => decodeF0 .drvShift
    | 0x12 => decodeF0 .repStep
    | 0x18 => decodeF0 .respSample
    | 0x19 => decodeF0 .respServe
    | 0x20 => decodeF0 .irqW
    | 0x21 => decodeF0 .irqR
    | 0x22 => decodeF0 .cpStep
    | 0x30 => decodeA32 (fun _ => true) .beginSession args
    | 0x31 => decodeF0 .endSession
    | 0x32 => decodeTD .update args
    | 0x33 => decodeF0 .suspend
    | 0x34 => decodeF0 .resume
    | 0x35 => decodeR8 args
    | 0x36 => decodeA32 (fun _ => true) .setMask args
    | 0x37 => decodeA32 (fun _ => true) .romSetptr args
    | 0x38 => decodeF0 .romGetptr
    | 0x39 => decodeLD .romWrite args
    | 0x3A => decodeL16 .romRead args
    | 0x3B => decodeF0 .accflagRead
    | 0x3C => decodeF0 .accflagClear
    | 0x40 => decodeF0 .tick
    | _ => .invalid .unknownSelector

/-- The operation formats (R93). -/
inductive Format where
  | f0
  | fa32
  | fe8
  | fr8
  | ftd
  | fld
  | fl16
deriving DecidableEq, Repr

/-- The format each selector takes (R96); none for a selector that is not assigned (R98). -/
def formatOf (sel : Byte) : Option Format :=
  match sel.toNat with
  | 0x01 | 0x30 | 0x36 | 0x37 => some .fa32
  | 0x03 => some .fe8
  | 0x32 => some .ftd
  | 0x35 => some .fr8
  | 0x39 => some .fld
  | 0x3A => some .fl16
  | 0x02 | 0x04 | 0x10 | 0x11 | 0x12 | 0x18 | 0x19 | 0x20 | 0x21 | 0x22 | 0x31 | 0x33 | 0x34 | 0x38 | 0x3B | 0x3C | 0x40 =>
    some .f0
  | _ => none

/-- `decode_len` (R101): an operation's length from byte 0 and at most two more bytes; a byte that is missing counts as 0. -/
def opLength (bs : List Byte) : Option Nat :=
  match formatOf (bs.getD 0 0) with
  | none => none
  | some .f0 => some 1
  | some .fe8 => some 2
  | some .fr8 => some 2
  | some .fl16 => some 3
  | some .fa32 => some 5
  | some .fld => some (3 + leValue [bs.getD 1 0, bs.getD 2 0])
  | some .ftd => some (7 + leValue [bs.getD 5 0, bs.getD 6 0])

/-- What a whole schedule decodes to (R102): its operations, then either the end or one `Invalid(reason, offset)`. -/
structure Schedule where
  ops : List Instr
  invalid : Option (DecodeError × Nat)
deriving DecidableEq, Repr

/-- The decoder of R102, over at most `fuel` operations, the first of them at offset `pos`. -/
def decodeFrom (addrBits : Nat) : Nat → Nat → List Byte → Schedule
  | 0, _, _ => ⟨[], none⟩
  | fuel + 1, pos, bs =>
    match decodeOp addrBits bs with
    | .done => ⟨[], none⟩
    | .invalid e => ⟨[], some (e, pos)⟩
    | .op i n =>
      let tail := decodeFrom addrBits fuel (pos + n) (bs.drop n)
      ⟨i :: tail.ops, tail.invalid⟩

/-- The decoder is total on every byte string (R102): an operation takes at least one byte, so the string's length is fuel
enough. -/
def decodeSchedule (addrBits : Nat) (bs : List Byte) : Schedule := decodeFrom addrBits bs.length 0 bs

/-- The operation that a window offset WOFF stands for inside the window of an armed detector: the rows of R97, in order. -/
def decodeWindow (woff : BitVec 9) : Instr :=
  if woff &&& 0x100#9 = 0x100#9 then .mboxOut (woff.extractLsb' 0 8)
  else if woff = 0x00C#9 then .mboxConsume
  else .plainRead

/-- The code of an instruction: an operation's byte string (R90(c)), or a window offset the detectors match (R90(a)). -/
inductive Code where
  | bytes (bs : List Byte)
  | window (woff : BitVec 9)
deriving DecidableEq, Repr

/-- The operand byte of format FE8 (R93). -/
def enableByte (ce oe : Bool) : Byte := BitVec.ofNat 8 (ce.toNat + 2 * oe.toNat)

/-- The operand byte of format FR8 (R93). -/
def regionByte : Region → Byte
  | .romImage => 0
  | .config => 1

/-- Format FA32's bytes (R93). -/
def encodeA32 (sel : Byte) (a : Word) : Code := .bytes (sel :: leBytes 4 a.toNat)

/-- The encoder, from the same tables (R93, R96, R97). PLAIN_READ, which stands for every other offset, is given the least,
WOFF 0. -/
def encode : Instr → Code
  | .busAddr a => encodeA32 0x01 a
  | .busSettle => .bytes [0x02]
  | .busEnable ce oe => .bytes [0x03, enableByte ce oe]
  | .busLatch => .bytes [0x04]
  | .oeseqStep => .bytes [0x10]
  | .drvShift => .bytes [0x11]
  | .repStep => .bytes [0x12]
  | .respSample => .bytes [0x18]
  | .respServe => .bytes [0x19]
  | .irqW => .bytes [0x20]
  | .irqR => .bytes [0x21]
  | .cpStep => .bytes [0x22]
  | .beginSession a => encodeA32 0x30 a
  | .endSession => .bytes [0x31]
  | .update t data => .bytes (0x32 :: leBytes 4 t.toNat ++ leBytes 2 data.length ++ data)
  | .suspend => .bytes [0x33]
  | .resume => .bytes [0x34]
  | .persist r => .bytes [0x35, regionByte r]
  | .setMask m => encodeA32 0x36 m
  | .romSetptr p => encodeA32 0x37 p
  | .romGetptr => .bytes [0x38]
  | .romWrite data => .bytes (0x39 :: leBytes 2 data.length ++ data)
  | .romRead n => .bytes (0x3A :: leBytes 2 n.toNat)
  | .accflagRead => .bytes [0x3B]
  | .accflagClear => .bytes [0x3C]
  | .tick => .bytes [0x40]
  | .mboxOut b => .window (1#1 ++ b)
  | .mboxConsume => .window 0x00C#9
  | .plainRead => .window 0x000#9

/-- The bytes of an instruction in a schedule; a window row has none (it is no schedule operation, R97). -/
def encodeBytes (i : Instr) : List Byte :=
  match encode i with
  | .bytes bs => bs
  | .window _ => []

/-- A schedule is the concatenation of its operations' encodings (R101). -/
def encodeSchedule : List Instr → List Byte
  | [] => []
  | i :: rest => encodeBytes i ++ encodeSchedule rest

/-- The instruction a code stands for: a byte string that is exactly one operation, or a window offset. -/
def decodeCode (addrBits : Nat) : Code → Option Instr
  | .bytes bs =>
    match decodeOp addrBits bs with
    | .op i n => if n = bs.length then some i else none
    | .done => none
    | .invalid _ => none
  | .window woff => some (decodeWindow woff)

/-- Does the opcode table give a row its bits in byte 0 (an operation), or in the window offset (a classification row)?
R90, R97; log 10. -/
def tableRowIsOperation (nbits : Nat) : Bool := nbits == 8

/-- The code of an opcode-table word: the bytes of the operation whose bits are `w`, every bit above `nbits` zero, as long as
R101 says; for a classification row the window offset `w[8:0]`. -/
def tableCode (nbits w : Nat) : Code :=
  if tableRowIsOperation nbits then
    let v := w % 2 ^ nbits
    .bytes (leBytes ((opLength (leBytes 7 v)).getD 1) v)
  else .window (BitVec.ofNat 9 w)

/-- The instruction the decoder reads from an opcode-table word, under the ADDR_BITS of the reset configuration. -/
def decodeTableWord (nbits w : Nat) : Option Instr := decodeCode Config.paramsK.addrBits (tableCode nbits w)

end Sys2Proof
end

