-- ==== Sys2Proof/Machine/State.lean ====
section
/-! DEFINITION. The machine's state (10_state.md R20 to R39), the ways a step stops, and the state after reset (R45). -/

namespace Sys2Proof.Machine

/-- The bus wires (R23). -/
structure Bus where
  /-- `bus.addr`: the address the target drives, or moves to. -/
  addr : Word
  /-- `bus.prev`: the address the lines held before the last change. -/
  prev : Word
  /-- `bus.stable`: the lines have settled at `addr`. -/
  stable : Bool
  /-- `bus.epoch`: how many address changes the target has made. -/
  epoch : Nat
  /-- `bus.ce`: the first enable line, true = asserted. -/
  ce : Bool
  /-- `bus.oe`: the second enable line, true = asserted. -/
  oe : Bool
deriving DecidableEq, Repr

/-- Access tracking (R24). -/
structure Access where
  /-- `acc.open`: an access is in progress. -/
  isOpen : Bool
  /-- `acc.seen`: the settled address observed in it, if any. -/
  seen : Option Word
deriving DecidableEq, Repr

/-- The output-enable sequencer's state (R25). -/
inductive OeSeq where
  | released
  | driving
deriving DecidableEq, Repr

/-- The responder's position in its loop (R28). -/
inductive RespPhase where
  | s1
  | s2
  | serve
deriving DecidableEq, Repr

/-- The responder's registers (R28). -/
structure Responder where
  phase : RespPhase
  s1 : Word
  s1Tag : Option Nat
  a : Word
  aTag : Option Nat
deriving DecidableEq, Repr

/-- The detector pair's registers (R29) and interrupt enables (R30). -/
structure Detectors where
  armed : Bool
  base : Word
  wfifo : List Byte
  rcount : Nat
  wirqEn : Bool
  rirqEn : Bool
deriving DecidableEq, Repr

/-- The Session Controller's state (R31): `active` is Active / Idle, `base` the Mailbox pointer. -/
structure Session where
  active : Bool
  base : Option Word
deriving DecidableEq, Repr

/-- A queue record (R32): `ring` holds CAP bytes, `head` and `tail` are never wrapped. -/
structure Queue where
  ring : List Byte
  head : Nat
  tail : Nat
deriving DecidableEq, Repr

/-- Progress of BEGIN_SESSION (R37). -/
inductive BeginPhase where
  | b1
  | b2
deriving DecidableEq, Repr

/-- Progress of UPDATE (R37). -/
inductive UpdatePhase where
  | u0
  | u1
  | u2
deriving DecidableEq, Repr

/-- Progress of ROM_WRITE (R37). -/
inductive WritePhase where
  | w1
  | w2
deriving DecidableEq, Repr

/-- The fields of an `Update` call (R37). -/
structure UpdateCall where
  data : List Byte
  timeout : Word
  i : Nat
  t0 : Nat
  chunk : List Byte
  left : Nat
  phase : UpdatePhase
deriving DecidableEq, Repr

/-- The API call in progress (R37). -/
inductive Call where
  | begin (addr base : Word) (phase : BeginPhase)
  | endSession
  | update (u : UpdateCall)
  | suspend
  | resume
  | persist (region : Region)
  | setMask (m : Word)
  | setPtr (p : Word)
  | getPtr
  | romWrite (data : List Byte) (phase : WritePhase)
  | romRead (n : Half)
  | accRead
  | accClear
deriving DecidableEq, Repr

/-- The name a `Result` event gives its call (00_scope.md R12, 43_control_plane.md R226). -/
inductive CallName where
  | begin
  | endSession
  | update
  | suspend
  | resume
  | persist
  | setMask
  | setPtr
  | getPtr
  | romWrite
  | romRead
  | accRead
  | accClear
deriving DecidableEq, Repr

/-- What a call returns (43_control_plane.md R226). -/
inductive ResultValue where
  | ok
  /-- `Timeout{accepted}` (R213). -/
  | timeout (accepted : Nat)
  /-- The pointer of ROM_GETPTR (R221). -/
  | pointer (p : Word)
  /-- The bytes of ROM_READ (R223). -/
  | bytes (bs : List Byte)
  /-- The 0 or 1 of ACCFLAG_READ (R136). -/
  | flag (n : Nat)
deriving DecidableEq, Repr

/-- The kinds of `TimingViolation` (70_reset_and_hazards.md R299). -/
inductive ViolationKind where
  | notEnabled
  | unsettled
  | notDriving
  | stalled
  | lateData
  | unsettledAccess
  | mailboxWhileSuspended
deriving DecidableEq, Repr

/-- The model fault codes F1 to F12 (60_exceptions.md R254). -/
inductive FaultCode where
  | detectorOverflow
  | romOutOfRange
  | mailboxOverlapWrite
  | suspendNested
  | resumeNotSuspended
  | persistNotSuspended
  | maskInvalid
  | maskNotSuspended
  | maskSessionActive
  | callWhileSuspended
  | sessionUnits
  | sessionMaskTooSmall
deriving DecidableEq, Repr

/-- The observation events (00_scope.md R12). -/
inductive Event where
  /-- The target sampled `v`; `fresh` as R126 says. -/
  | latch (v : Byte) (fresh : Bool)
  /-- A timing premise failed and a draw was taken. -/
  | timingViolation (kind : ViolationKind)
  /-- An outbound chunk was forwarded (R214). -/
  | xfer (bytes : List Byte)
  /-- A call returned. -/
  | result (call : CallName) (value : ResultValue)
  /-- A model fault was raised (R254). -/
  | fault (code : FaultCode)
deriving DecidableEq, Repr

/-- The whole state: the components of R20, and the model's own four fields `cfg`, `draws`, `sched`, `pos`. -/
structure State where
  /-- MODEL'S OWN: the parameters (00_scope.md R5), which no step writes (log 1). -/
  cfg : Params
  /-- R21: the ROM Buffer, as the cells that do not hold the background byte, offsets rising. -/
  rom : List Host.Cell
  /-- R22. -/
  addressMask : Word
  /-- R23. -/
  bus : Bus
  /-- R24. -/
  acc : Access
  /-- R25. -/
  oeseq : OeSeq
  /-- R26. -/
  outLatch : Byte
  /-- R26. -/
  outTag : Option Nat
  /-- R26. -/
  pinsVal : Byte
  /-- R26. -/
  pinsTag : Option Nat
  /-- R27. -/
  accessFlag : Bool
  /-- R27. -/
  repSeen : Bool
  /-- R28. -/
  resp : Responder
  /-- R29, R30. -/
  det : Detectors
  /-- R31. -/
  sess : Session
  /-- R32: the Inbound Queue. -/
  inq : Queue
  /-- R32: the Outbound Queue. -/
  outq : Queue
  /-- R33: the deferred acknowledgments, oldest first. -/
  deferred : List Byte
  /-- R34. -/
  suspended : Bool
  /-- R35. -/
  romPtr : Word
  /-- R36. -/
  nowMs : Nat
  /-- R37. -/
  call : Option Call
  /-- R38: the range `[lo, hi)` being written (log 8: the ends are Nat). -/
  inflight : Option (Nat × Nat)
  /-- R39. -/
  faulted : Option FaultCode
  /-- R39: the events, oldest first. -/
  history : List Event
  /-- MODEL'S OWN: how many draws the run has taken; the next draw is this index (log 4). -/
  draws : Nat
  /-- MODEL'S OWN: the bytes of the schedule still to be replayed (30_encoding.md R106; log 5). -/
  sched : List Byte
  /-- MODEL'S OWN: the offset of the schedule's next byte (30_encoding.md R102; log 5). -/
  pos : Nat
deriving DecidableEq, Repr

/-- Why the machine stops. -/
inductive Fault where
  /-- A step was asked for after the run ended in a model fault: the faulted state is frozen (R39, 60_exceptions.md R254, R267;
  30_encoding.md R106(d)). Raised by every meaning. Safe: the spec takes no step there. -/
  | runEnded (code : FaultCode)
  /-- An access to an offset outside the ROM Buffer: a memory primitive's requirement fails (20_memory.md R63, R66). Raised by the
  meanings that read or write `rom`; no reachable state does it. Safe. -/
  | outsideBuffer (offset : Nat)
  /-- A step that uses `base` in a state that has none (42_mailbox.md, opening: "defined whenever a handler runs", R44(b)).
  Raised by the handlers and the session calls; no reachable state does it. Safe. -/
  | noSessionBase
deriving DecidableEq, Repr

/-- Why a step gives no meaning. -/
inductive Refusal where
  /-- An arm of `exec` that has no meaning yet. Raised by `exec` only. Safe. -/
  | notModelled (mnemonic : String)
  /-- The operation's step holds: it is not enabled in this state, so the schedule is infeasible here (00_scope.md R9, R10(d);
  30_encoding.md R106(a)). Raised by the meanings. Safe: the spec makes no claim about such a schedule. -/
  | infeasible
  /-- The schedule has ended (30_encoding.md R102, 70_reset_and_hazards.md R296). Raised by `step`. Safe. -/
  | scheduleEnd
  /-- The schedule's bytes at `offset` are no operation, so the whole schedule is refused (30_encoding.md R98, R99; 60_exceptions.md
  R265(b)). Raised by `step`, before any operation runs. Safe. -/
  | decode (e : DecodeError) (offset : Nat)
  /-- The parameters fail 00_scope.md R6: no run exists (60_exceptions.md R265(a)). Raised by `step`. Safe. -/
  | configuration (p : Config.Problem)
deriving DecidableEq, Repr

/-- The values that R45 leaves as draws at reset. -/
structure ResetDraws where
  busAddr : Word
  outLatch : Byte
  pinsVal : Byte
  respS1 : Word
  respA : Word
  inqRing : List Byte
  outqRing : List Byte
deriving DecidableEq, Repr

/-- The state right after power-up and boot (R45, 70_reset_and_hazards.md R280, R281) of a configuration, for given values of
the reset draws. -/
def State.resetWith (p : Params) (d : ResetDraws) : State where
  cfg := p
  rom := p.initialImage
  addressMask := p.initialMask
  bus := { addr := d.busAddr, prev := d.busAddr, stable := false, epoch := 0, ce := false, oe := false }
  acc := { isOpen := false, seen := none }
  oeseq := .released
  outLatch := d.outLatch
  outTag := none
  pinsVal := d.pinsVal
  pinsTag := none
  accessFlag := false
  repSeen := false
  resp := { phase := .s1, s1 := d.respS1, s1Tag := none, a := d.respA, aTag := none }
  det := { armed := false, base := 0, wfifo := [], rcount := 0, wirqEn := false, rirqEn := false }
  sess := { active := false, base := none }
  inq := { ring := d.inqRing, head := 0, tail := 0 }
  outq := { ring := d.outqRing, head := 0, tail := 0 }
  deferred := []
  suspended := false
  romPtr := 0
  nowMs := 0
  call := none
  inflight := none
  faulted := none
  history := []
  draws := 0
  sched := []
  pos := 0

/-- DESIGN CHOICE (log 3): the reset draws of `State.reset` are all zero, as in 95_test_vectors.md section 2.0. -/
def ResetDraws.zero (p : Params) : ResetDraws where
  busAddr := 0
  outLatch := 0
  pinsVal := 0
  respS1 := 0
  respA := 0
  inqRing := List.replicate p.inqCap 0
  outqRing := List.replicate p.outqCap 0

/-- The machine right after reset: configuration K (log 1), reset draws zero (log 3), no schedule loaded (log 5). -/
def State.reset : State := State.resetWith Config.paramsK (ResetDraws.zero Config.paramsK)

end Sys2Proof.Machine
end

