-- ==== Sys2Proof/Machine/Ops.lean ====
section
/-! DEFINITION. The named operations every meaning is written over: how a step is sequenced and stops, draws and events
(00_scope.md R9, R10, R12), raising a model fault (60_exceptions.md R254), the ROM Buffer (20_memory.md R63 to R66), the queues
(10_state.md R32), the Mailbox fields (R40) and the issue and return of calls (43_control_plane.md R200). -/

namespace Sys2Proof.Machine

/-- What a meaning answers. -/
abbrev StepResult := Host.Outcome State Fault Refusal

/-! ## Sequencing -/

/-- An operation runs only while the run has not ended: after a fault no agent takes a step (R39, R254, R267). -/
def live (s : State) (r : StepResult) : StepResult :=
  match s.faulted with
  | none => r
  | some code => .fault (.runEnded code)

/-- `hold` (00_scope.md R9): the step is not enabled, so the schedule is infeasible here (30_encoding.md R106(a)). -/
def hold : StepResult := .refused .infeasible

/-- Go on with the rest of a step, unless it has stopped or has raised a model fault (R9: `raise` ends the run). -/
def andThen (r : StepResult) (k : State → StepResult) : StepResult :=
  match r with
  | .next s =>
    match s.faulted with
    | none => k s
    | some _ => .next s
  | .fault f => .fault f
  | .refused q => .refused q

/-! ## Events, draws, faults -/

/-- `emit E` (00_scope.md R9, R12): the event is appended, so the history is oldest first. -/
def State.emit (s : State) (e : Event) : State := { s with history := s.history ++ [e] }

/-- One draw has been taken (00_scope.md R10): the next one has the next index (log 4). -/
def State.tookDraw (s : State) : State := { s with draws := s.draws + 1 }

/-- `raise Fault(code)` (R254): `faulted` holds the code, the event is emitted, and the run ends (`live`). There is no return from
it: no reset leaves the faulted state (R267). -/
def raise (code : FaultCode) (s : State) : StepResult :=
  .next { s.emit (.fault code) with faulted := some code }

/-! ## The ROM Buffer -/

/-- What an offset that no cell lists holds. DESIGN CHOICE (log 2): the bytes of INITIAL_IMAGE that are not 0 are the listed
cells of `Params.initialImage`. -/
def romBackground : Byte := 0

/-- The canonical form: offsets strictly rising, and no cell holds the background byte. -/
def Memory.wf : List Host.Cell → Bool
  | [] => true
  | c :: rest =>
    (c.2 != romBackground) &&
      (match rest with
        | [] => true
        | d :: _ => decide (c.1 < d.1)) && Memory.wf rest

/-- `rom[o]`: one byte. -/
def Memory.read : List Host.Cell → Nat → Byte
  | [], _ => romBackground
  | c :: rest, o => if c.1 = o then c.2 else Memory.read rest o

/-- Put a byte before the cells that follow it; the background byte is not listed. -/
def Memory.cons (o : Nat) (v : Byte) (rest : List Host.Cell) : List Host.Cell :=
  if v = romBackground then rest else (o, v) :: rest

/-- `rom[o] <- v`: one byte, keeping the canonical form. -/
def Memory.write : List Host.Cell → Nat → Byte → List Host.Cell
  | [], o, v => Memory.cons o v []
  | c :: rest, o, v =>
    if o < c.1 then Memory.cons o v (c :: rest)
    else if o = c.1 then Memory.cons o v rest
    else c :: Memory.write rest o v

/-- `n` bytes from offset `o` up. -/
def Memory.readBytes (m : List Host.Cell) : Nat → Nat → List Byte
  | _, 0 => []
  | o, n + 1 => Memory.read m o :: Memory.readBytes m (o + 1) n

/-- Bytes written from offset `o` up, in order. -/
def Memory.writeBytes : List Host.Cell → Nat → List Byte → List Host.Cell
  | m, _, [] => m
  | m, o, b :: rest => Memory.writeBytes (Memory.write m o b) (o + 1) rest

/-- One byte of the ROM Buffer. -/
def State.romByte (s : State) (o : Nat) : Byte := Memory.read s.rom o

/-- Write bytes into the ROM Buffer; an offset outside it does not exist (20_memory.md R63). -/
def writeRom (o : Nat) (bs : List Byte) (s : State) : StepResult :=
  if o + bs.length ≤ s.cfg.romCap then .next { s with rom := Memory.writeBytes s.rom o bs }
  else .fault (.outsideBuffer o)

/-- `MemRead(o, n)` (20_memory.md R66): little-endian. -/
def memRead (s : State) (o n : Nat) : Nat := leValue (Memory.readBytes s.rom o n)

/-- `MemWrite(o, n, v)` (20_memory.md R66): little-endian. -/
def memWrite (o n v : Nat) (s : State) : StepResult := writeRom o (leBytes n v) s

/-! ## Mailbox fields (10_state.md R40, 20_memory.md R70) -/

/-- The 4-byte field at window offset `off`. -/
def State.field (s : State) (base : Word) (off : Nat) : Word := BitVec.ofNat 32 (memRead s (base.toNat + off) 4)

/-- Write the 4-byte field at window offset `off`. -/
def writeField (base : Word) (off : Nat) (v : Word) (s : State) : StepResult := memWrite (base.toNat + off) 4 v.toNat s

/-- Raise a sequence field by one, modulo 2^32 (20_memory.md R82). -/
def bumpField (base : Word) (off : Nat) (s : State) : StepResult := writeField base off (s.field base off + 1) s

/-- `active` (R70). -/
def fieldActive : Nat := 4
/-- `pending` (R70). -/
def fieldPending : Nat := 8
/-- Inbound byte (R70). -/
def fieldInByte : Nat := 12
/-- Inbound sequence (R70). -/
def fieldInSeq : Nat := 16
/-- Outbound sequence (R70). -/
def fieldOutSeq : Nat := 20

/-- The magic tag "PICO" in string order (20_memory.md R71). -/
def magicBytes : List Byte := [0x50, 0x49, 0x43, 0x4F]

/-- `base` of the pseudocode: the `u32` in `sess.base` (42_mailbox.md and 43_control_plane.md, openings). -/
def withBase (s : State) (k : Word → StepResult) : StepResult :=
  match s.sess.base with
  | some base => k base
  | none => .fault .noSessionBase

/-! ## Queues (10_state.md R32) -/

/-- `count = head − tail`. -/
def Queue.count (q : Queue) : Nat := q.head - q.tail

/-- `front = ring[tail mod CAP]`. A ring of CAP bytes (R32) always has that slot (log 13). -/
def Queue.front (q : Queue) (cap : Nat) : Byte := q.ring.getD (q.tail % cap) 0

/-- `push(q, b)`. -/
def Queue.push (q : Queue) (cap : Nat) (b : Byte) : Queue :=
  { q with ring := q.ring.set (q.head % cap) b, head := q.head + 1 }

/-- `pop(q)`, the queue it leaves; its result is `front`. -/
def Queue.pop (q : Queue) : Queue := { q with tail := q.tail + 1 }

/-- `clear(q)`: the ring is left as it was. -/
def Queue.clear (q : Queue) : Queue := { q with head := 0, tail := 0 }

/-! ## Calls (43_control_plane.md R200) -/

/-- Which calls may be issued while suspended (R200, R224). -/
def Call.admittedSuspended : Call → Bool
  | .suspend => true
  | .resume => true
  | .persist _ => true
  | .setMask _ => true
  | .begin _ _ _ => false
  | .endSession => false
  | .update _ => false
  | .setPtr _ => false
  | .getPtr => false
  | .romWrite _ _ => false
  | .romRead _ => false
  | .accRead => false
  | .accClear => false

/-- `Issue(c)`, the Host step of every call operation (R200). -/
def issue (c : Call) (s : State) : StepResult :=
  match s.call with
  | some _ => hold
  | none =>
    if s.suspended ∧ c.admittedSuspended = false then raise .callWhileSuspended s
    else .next { s with call := some c }

/-- A call returns: `emit Result(call, value)` and `call <- none` (R200). -/
def ret (name : CallName) (value : ResultValue) (s : State) : StepResult :=
  .next { s.emit (.result name value) with call := none }

end Sys2Proof.Machine
end

