-- ==== Sys2Proof/Machine/Operands.lean ====
section
/-! DEFINITION. Operand assembly: the masked address and its fields (30_encoding.md R91, R95), the detectors' classification
(42_mailbox.md R170), the window base (R95(b)), the address sample (41_read_path.md R155), legal masks and the check of the
configuration (00_scope.md R6). -/

namespace Sys2Proof.Machine

/-- The ROM Buffer offset a bus address is served from: `A & address_mask` (20_memory.md R61). -/
def masked (a mask : Word) : Word := a &&& mask

/-- WSEL, bits [31:9] of a masked address (30_encoding.md R91). -/
def wsel (a : Word) : BitVec 23 := a.extractLsb' 9 23

/-- AREA, bit [8] (R91): the outbound half of the window. -/
def area (a : Word) : Bool := a.getLsbD 8

/-- OBYTE, bits [7:0] (R91, R95(a)). -/
def obyte (a : Word) : Byte := a.extractLsb' 0 8

/-- WOFF, bits [8:0] (R91). -/
def woff (a : Word) : BitVec 9 := a.extractLsb' 0 9

/-- A detector class (42_mailbox.md R170). -/
inductive DetClass where
  | plain
  | out (b : Byte)
  | consume
deriving DecidableEq, Repr

/-- `Classify(A')` of an armed detector (42_mailbox.md R170). -/
def classify (detBase a : Word) : DetClass :=
  if wsel a ≠ wsel detBase then .plain
  else if area a then .out (obyte a)
  else if woff a = 12#9 then .consume
  else .plain

/-- The row of the window classification table a class is (30_encoding.md R97). -/
def DetClass.row : DetClass → Instr
  | .plain => .plainRead
  | .out b => .mboxOut b
  | .consume => .mboxConsume

/-- The window base of BEGIN_SESSION: `a & address_mask & 0xFFFFFE00` (30_encoding.md R95(b)). -/
def windowBase (a mask : Word) : Word := masked a mask &&& 0xFFFFFE00#32

/-- A sample taken while the lines move: each line has switched or has not (41_read_path.md R155). -/
def mixLines (new old m : Word) : Word := (new &&& m) ||| (old &&& ~~~m)

/-- `Sample()` (41_read_path.md R155): the value, its tag, and the state after the draw, if one is taken. -/
def sample (s : State) : Word × Option Nat × State :=
  if s.bus.stable then (s.bus.addr, some s.bus.epoch, s)
  else (mixLines s.bus.addr s.bus.prev (Config.drawMask s.draws), none, s.tookDraw)

/-- A number is 2^k − 1 for some k, in Nat arithmetic (00_scope.md R6(b), 43_control_plane.md R219). -/
def isMask (n : Nat) : Bool := 2 ^ Nat.log2 (n + 1) == n + 1

/-- A value SET_MASK accepts, and INITIAL_MASK must be (10_state.md R22, 00_scope.md R6(b)). -/
def maskLegal (p : Params) (m : Word) : Bool :=
  isMask m.toNat && decide (m.toNat + 1 ≤ p.romCap) && decide (m.toNat < 2 ^ p.addrBits)

/-- The check of 00_scope.md R6: the first constraint the parameters fail, if any. -/
def configProblem (p : Params) : Option Config.Problem :=
  if p.clockCounting then some .clockCountingVariant
  else if p.addrBits < 9 ∨ 32 < p.addrBits then some .addrBits
  else if 2 ^ Nat.log2 p.romCap ≠ p.romCap ∨ p.romCap < Config.winSize ∨ 2 ^ 32 < p.romCap then some .romCap
  else if maskLegal p p.initialMask = false then some .initialMask
  else if Memory.wf p.initialImage = false ∨ p.initialImage.all (fun c => decide (c.1 < p.romCap)) = false then
    some .initialImage
  else if p.inqCap = 0 ∨ p.outqCap = 0 ∨ p.chunkSize = 0 ∨ p.detFifoDepth = 0 then some .capacity
  else if p.smUnits < 3 then some .smUnits
  else none

/-- An offset lies in the range a multi-step call is writing (10_state.md R38, 41_read_path.md R154). -/
def inFlight (s : State) (o : Nat) : Bool :=
  match s.inflight with
  | some (lo, hi) => decide (lo ≤ o) && decide (o < hi)
  | none => false

end Sys2Proof.Machine
end

