-- ==== Sys2Proof/Machine/Flags.lean ====
section
/-! DEFINITION. Flags and other values computed from the state: the enable condition (10_state.md R23), the latch's verdict
(40_bus_decoder.md R126), the data-bus multiplexer (R131, R133), the interrupt lines (60_exceptions.md R251), the logical
registers CR0 to CR6 (10_state.md R41), the hardware units (60_exceptions.md R260) and the inbound window states
(42_mailbox.md R184). -/

namespace Sys2Proof.Machine

/-- The enable condition `en = bus.ce ∧ bus.oe` (10_state.md R23, 40_bus_decoder.md R125). -/
def State.en (s : State) : Bool := s.bus.ce && s.bus.oe

/-- BUS_LATCH's `kind`: the first premise that fails, none when the latch is fresh (40_bus_decoder.md R126). -/
def latchKind (s : State) : Option ViolationKind :=
  if s.en = false then some .notEnabled
  else if s.bus.stable = false then some .unsettled
  else if s.oeseq ≠ .driving then some .notDriving
  else if s.pinsTag ≠ some s.bus.epoch ∧ s.suspended then some .stalled
  else if s.pinsTag ≠ some s.bus.epoch then some .lateData
  else none

/-- What the block puts on the data lines (40_bus_decoder.md R133). -/
inductive DataLines where
  | highZ
  | driven (v : Byte)
deriving DecidableEq, Repr

/-- The data-bus multiplexer `D` (40_bus_decoder.md R133). -/
def dataLines (s : State) : DataLines :=
  match s.oeseq with
  | .driving => .driven s.pinsVal
  | .released => .highZ

/-- BUF_EN, the enable of the external buffer; a port only if BUF_PRESENT (40_bus_decoder.md R131). -/
def bufEn (s : State) : Option Bool :=
  if s.cfg.bufPresent then some (decide (s.oeseq = .driving)) else none

/-- INT_W is pending (60_exceptions.md R251). -/
def intW (s : State) : Bool := s.det.wirqEn && !s.det.wfifo.isEmpty

/-- INT_R is pending (60_exceptions.md R251). -/
def intR (s : State) : Bool := s.det.rirqEn && decide (0 < s.det.rcount)

/-- The hardware state-machine units in use (60_exceptions.md R260): three from boot, two more once the detectors are loaded. -/
def unitsUsed (s : State) : Nat := 3 + (if s.det.armed then 2 else 0)

/-- The logical control and status registers (10_state.md R41). -/
inductive ControlReg where
  | addrMask
  | detBase
  | detCtrl
  | respCtrl
  | config
  | access
  | session
deriving DecidableEq, Repr

/-- Bit `i` of a register, from a flag. -/
def flagBit (b : Bool) (i : Nat) : Word := BitVec.ofNat 32 (b.toNat * 2 ^ i)

/-- The value of a logical register (10_state.md R41); reserved bits read 0. No software reaches one by address. -/
def controlReg (s : State) : ControlReg → Word
  | .addrMask => s.addressMask
  | .detBase => s.det.base &&& 0xFFFFFE00#32
  | .detCtrl => flagBit s.det.armed 0 ||| flagBit s.det.wirqEn 1 ||| flagBit s.det.rirqEn 2
  | .respCtrl => flagBit s.suspended 0
  | .config =>
    flagBit (decide (s.cfg.sampleMode = .double)) 0 ||| flagBit s.cfg.bufPresent 1 ||| flagBit s.cfg.expanderPresent 2
  | .access => flagBit s.accessFlag 0
  | .session => flagBit s.sess.active 0 ||| (s.sess.base.getD 0 &&& 0xFFFFFE00#32)

/-- The inbound states of a session's window (42_mailbox.md R184). -/
inductive InboundView where
  | empty (k : Word)
  | offered (b : Byte) (k : Word)
  | taken (b : Byte) (k : Word)
deriving DecidableEq, Repr

/-- Which inbound state the window at `base` is in (42_mailbox.md R184): by `pending` and a consume event waiting in the FIFO. -/
def inboundView (s : State) (base : Word) : InboundView :=
  let k := s.field base fieldInSeq
  if s.field base fieldPending = 0 then .empty k
  else if s.det.rcount = 0 then .offered ((s.field base fieldInByte).extractLsb' 0 8) k
  else .taken ((s.field base fieldInByte).extractLsb' 0 8) k

end Sys2Proof.Machine
end

