-- ==== Sys2Proof/Machine/Decoder.lean ====
section
/-! DEFINITION. The Address Decoder's three programs (40_bus_decoder.md R130, R132, R135) and the two access-flag calls
(R136, R137). -/

namespace Sys2Proof.Machine

/-- OESEQ_STEP (40_bus_decoder.md R130). -/
def execOeseqStep (s : State) : StepResult :=
  live s <|
    let want := if s.en then OeSeq.driving else OeSeq.released
    if s.oeseq = want then hold else .next { s with oeseq := want }

/-- DRV_SHIFT (40_bus_decoder.md R132). -/
def execDrvShift (s : State) : StepResult :=
  live s <|
    if s.pinsVal = s.outLatch ∧ s.pinsTag = s.outTag then hold
    else .next { s with pinsVal := s.outLatch, pinsTag := s.outTag }

/-- REP_STEP (40_bus_decoder.md R135). -/
def execRepStep (s : State) : StepResult :=
  live s <|
    if s.en = true ∧ s.repSeen = false then .next { s with accessFlag := true, repSeen := true }
    else if s.en = false ∧ s.repSeen = true then .next { s with repSeen := false }
    else hold

/-- ACCFLAG_READ issues `AccRead` (40_bus_decoder.md R136). -/
def execAccflagRead (s : State) : StepResult := live s (issue .accRead s)

/-- ACCFLAG_CLEAR issues `AccClear` (40_bus_decoder.md R137). -/
def execAccflagClear (s : State) : StepResult := live s (issue .accClear s)

/-- CP_STEP on `AccRead` (40_bus_decoder.md R136): the flag is not cleared by reading it. -/
def cpAccRead (s : State) : StepResult := ret .accRead (.flag (if s.accessFlag then 1 else 0)) s

/-- CP_STEP on `AccClear` (40_bus_decoder.md R137): `rep_seen` is unchanged. -/
def cpAccClear (s : State) : StepResult := ret .accClear .ok { s with accessFlag := false }

end Sys2Proof.Machine
end

