-- ==== Sys2Proof/Machine/RomApi.lean ====
section
/-! DEFINITION. The ROM Buffer pointer API: ROM_SETPTR, ROM_GETPTR, ROM_WRITE, ROM_READ (43_control_plane.md R220 to R223). -/

namespace Sys2Proof.Machine

/-- ROM_SETPTR issues `SetPtr` (43_control_plane.md R220). -/
def execRomSetptr (p : Word) (s : State) : StepResult := live s (issue (.setPtr p) s)

/-- ROM_GETPTR issues `GetPtr` (43_control_plane.md R221). -/
def execRomGetptr (s : State) : StepResult := live s (issue .getPtr s)

/-- ROM_WRITE issues `RomWrite` (43_control_plane.md R222). -/
def execRomWrite (data : List Byte) (s : State) : StepResult := live s (issue (.romWrite data .w1) s)

/-- ROM_READ issues `RomRead` (43_control_plane.md R223). -/
def execRomRead (n : Half) (s : State) : StepResult := live s (issue (.romRead n) s)

/-- CP_STEP on `SetPtr` (43_control_plane.md R220): any value. -/
def cpSetPtr (p : Word) (s : State) : StepResult := ret .setPtr .ok { s with romPtr := p }

/-- CP_STEP on `GetPtr` (43_control_plane.md R221). -/
def cpGetPtr (s : State) : StepResult := ret .getPtr (.pointer s.romPtr) s

/-- The pointer after `n` bytes: modulo 2^32 (43_control_plane.md R222, R223). -/
def advancePtr (n : Nat) (s : State) : State := { s with romPtr := s.romPtr + BitVec.ofNat 32 n }

/-- The end of step W1 (43_control_plane.md R222): nothing to write, or the range in flight and phase W2. -/
def startWrite (data : List Byte) (s : State) : StepResult :=
  if data = [] then ret .romWrite .ok s
  else .next { s with
    inflight := some (s.romPtr.toNat, s.romPtr.toNat + data.length)
    call := some (.romWrite data .w2) }

/-- CP_STEP on `RomWrite`, step W1 (43_control_plane.md R222): both checks come before any effect. -/
def cpRomWriteW1 (data : List Byte) (s : State) : StepResult :=
  if s.cfg.romCap < s.romPtr.toNat + data.length then raise .romOutOfRange s
  else if s.sess.active ∧ 0 < data.length then
    withBase s fun base =>
      if s.romPtr.toNat < base.toNat + Config.winSize ∧ base.toNat < s.romPtr.toNat + data.length then
        raise .mailboxOverlapWrite s
      else startWrite data s
  else startWrite data s

/-- CP_STEP on `RomWrite`, step W2 (43_control_plane.md R222). -/
def cpRomWriteW2 (data : List Byte) (s : State) : StepResult :=
  andThen (writeRom s.romPtr.toNat data s) fun s1 =>
    ret .romWrite .ok { advancePtr data.length s1 with inflight := none }

/-- CP_STEP on `RomRead` (43_control_plane.md R223). -/
def cpRomRead (n : Half) (s : State) : StepResult :=
  if s.cfg.romCap < s.romPtr.toNat + n.toNat then raise .romOutOfRange s
  else ret .romRead (.bytes (Memory.readBytes s.rom s.romPtr.toNat n.toNat)) (advancePtr n.toNat s)

end Sys2Proof.Machine
end

