-- ==== Sys2Proof/Machine/Session.lean ====
section
/-! DEFINITION. Sessions: BEGIN_SESSION (43_control_plane.md R201, R202) and END_SESSION (R206). -/

namespace Sys2Proof.Machine

/-- BEGIN_SESSION issues `Begin` (43_control_plane.md R201). Its `base` is written by step B1 before B2 reads it (log 9). -/
def execBeginSession (a : Word) (s : State) : StepResult := live s (issue (.begin a 0 .b1) s)

/-- END_SESSION issues `End` (43_control_plane.md R206). -/
def execEndSession (s : State) : StepResult := live s (issue .endSession s)

/-- Both queues and the deferred bytes are discarded (43_control_plane.md R201, R202, R206). -/
def clearQueues (s : State) : State :=
  { s with inq := s.inq.clear, outq := s.outq.clear, deferred := [] }

/-- The end of an active session, as step B1's teardown and END_SESSION do it (43_control_plane.md R201, R206): interrupts off,
`active = 0`, Active -> Idle, queues discarded. -/
def closeSession (s : State) : StepResult :=
  withBase s fun base =>
    andThen (writeField base fieldActive 0 { s with det := { s.det with wirqEn := false, rirqEn := false } }) fun s1 =>
      .next (clearQueues { s1 with sess := { active := false, base := none } })

/-- The last writes of step B1 (43_control_plane.md R201): the base, the range in flight, phase B2. -/
def openWindow (a : Word) (s : State) : StepResult :=
  let base := windowBase a s.addressMask
  .next { s with call := some (.begin a base .b2), inflight := some (base.toNat, base.toNat + Config.winSize) }

/-- CP_STEP on `Begin`, step B1 (43_control_plane.md R201). -/
def cpBeginB1 (a : Word) (s : State) : StepResult :=
  if s.cfg.smUnits < Config.sessionUnits then raise .sessionUnits s
  else if s.addressMask.toNat < 0x1FF then raise .sessionMaskTooSmall s
  else if s.sess.active then andThen (closeSession s) (openWindow a)
  else openWindow a s

/-- The detectors are reprogrammed and emptied, the session opens and the interrupts are enabled (43_control_plane.md R202). -/
def armSession (base : Word) (s : State) : State :=
  { clearQueues s with
    det := { armed := true, base := base, wfifo := [], rcount := 0, wirqEn := true, rirqEn := true }
    sess := { active := true, base := some base } }

/-- CP_STEP on `Begin`, step B2 (43_control_plane.md R202). -/
def cpBeginB2 (base : Word) (s : State) : StepResult :=
  andThen (writeRom base.toNat (List.replicate Config.winSize 0) s) fun s1 =>
  andThen (writeRom base.toNat magicBytes s1) fun s2 =>
  andThen (writeField base fieldActive 1 (armSession base s2)) fun s3 =>
  ret .begin .ok { s3 with inflight := none }

/-- CP_STEP on `End` (43_control_plane.md R206). -/
def cpEnd (s : State) : StepResult :=
  if s.sess.active then andThen (closeSession s) (ret .endSession .ok) else ret .endSession .ok s

end Sys2Proof.Machine
end

