-- ==== Sys2Proof/Machine/Suspend.lean ====
section
/-! DEFINITION. Suspension, persistence and the mask: SUSPEND, RESUME, PERSIST, SET_MASK (43_control_plane.md R216 to R219). -/

namespace Sys2Proof.Machine

/-- SUSPEND issues `Suspend` (43_control_plane.md R216). -/
def execSuspend (s : State) : StepResult := live s (issue .suspend s)

/-- RESUME issues `Resume` (43_control_plane.md R217). -/
def execResume (s : State) : StepResult := live s (issue .resume s)

/-- PERSIST issues `Persist` (43_control_plane.md R218). -/
def execPersist (r : Region) (s : State) : StepResult := live s (issue (.persist r) s)

/-- SET_MASK issues `SetMask` (43_control_plane.md R219). -/
def execSetMask (m : Word) (s : State) : StepResult := live s (issue (.setMask m) s)

/-- CP_STEP on `Suspend` (43_control_plane.md R216). -/
def cpSuspend (s : State) : StepResult :=
  if s.suspended then raise .suspendNested s else ret .suspend .ok { s with suspended := true }

/-- CP_STEP on `Resume` (43_control_plane.md R217): the responder re-enters its loop at S1. -/
def cpResume (s : State) : StepResult :=
  if s.suspended then ret .resume .ok { s with suspended := false, resp := { s.resp with phase := .s1 } }
  else raise .resumeNotSuspended s

/-- CP_STEP on `Persist` (43_control_plane.md R218): the physical operation is outside the block. -/
def cpPersist (s : State) : StepResult := if s.suspended then ret .persist .ok s else raise .persistNotSuspended s

/-- CP_STEP on `SetMask` (43_control_plane.md R219), its three checks in order. -/
def cpSetMask (m : Word) (s : State) : StepResult :=
  if s.suspended = false then raise .maskNotSuspended s
  else if s.sess.active then raise .maskSessionActive s
  else if maskLegal s.cfg m = false then raise .maskInvalid s
  else ret .setMask .ok { s with addressMask := m }

end Sys2Proof.Machine
end

