-- ==== Sys2Proof/Machine/Mailbox.lean ====
section
/-! DEFINITION. The Mailbox detectors' capture (42_mailbox.md R173 to R176), the three window rows (30_encoding.md R97) and the
two interrupt handlers (42_mailbox.md R180, R181). -/

namespace Sys2Proof.Machine

/-! ## Capture -/

/-- `PushW(b)` (42_mailbox.md R175). -/
def pushW (b : Byte) (s : State) : StepResult :=
  if s.det.wfifo.length < s.cfg.detFifoDepth then
    .next { s with det := { s.det with wfifo := s.det.wfifo ++ [b] } }
  else if s.det.wirqEn then raise .detectorOverflow s
  else .next s

/-- `PushR` (42_mailbox.md R175). -/
def pushR (s : State) : StepResult :=
  if s.det.rcount < s.cfg.detFifoDepth then .next { s with det := { s.det with rcount := s.det.rcount + 1 } }
  else if s.det.rirqEn then raise .detectorOverflow s
  else .next s

/-- An event recorded while suspended emits MAILBOX_WHILE_SUSPENDED and may be lost, by a draw (42_mailbox.md R173, R176). -/
def recordEvent (push : State → StepResult) (s : State) : StepResult :=
  if s.suspended then
    let s1 := (s.emit (.timingViolation .mailboxWhileSuspended)).tookDraw
    if Config.drawBool s.draws then .next s1 else push s1
  else push s

/-- What an armed detector does with a classified access (42_mailbox.md R173, from "if cls = PLAIN" on). -/
def captureClass (cls : DetClass) (s : State) : StepResult :=
  match cls with
  | .plain => .next s
  | .out b => recordEvent (pushW b) s
  | .consume => recordEvent pushR s

/-- `Malformed()` (42_mailbox.md R174): the class of an access whose lines never settled, and the state after its event and draws. -/
def malformed (s : State) : DetClass × State :=
  let s1 := s.emit (.timingViolation .unsettledAccess)
  match Config.drawClass s.draws with
  | .plain => (.plain, s1.tookDraw)
  | .out => (.out (Config.drawByte (s.draws + 1)), s1.tookDraw.tookDraw)
  | .consume => (.consume, s1.tookDraw)

/-- `DetCapture(seen)` (42_mailbox.md R173). -/
def detCapture (seen : Option Word) (s : State) : StepResult :=
  if s.det.armed then
    match seen with
    | some a => captureClass (classify s.det.base (masked a s.addressMask)) s
    | none => captureClass (malformed s).1 (malformed s).2
  else .next s

/-- `CloseAccess` (40_bus_decoder.md R124). -/
def closeAccess (s : State) : StepResult := detCapture s.acc.seen s

/-! ## The window rows: one classified access, captured -/

/-- MBOX_OUT (42_mailbox.md R171): an armed write-detector records byte `b`. -/
def execMboxOut (b : Byte) (s : State) : StepResult :=
  live s (if s.det.armed then captureClass (.out b) s else .next s)

/-- MBOX_CONSUME (42_mailbox.md R172): an armed read-detector records a consume. -/
def execMboxConsume (s : State) : StepResult :=
  live s (if s.det.armed then captureClass .consume s else .next s)

/-- PLAIN_READ (42_mailbox.md R170): no event. -/
def execPlainRead (s : State) : StepResult :=
  live s (if s.det.armed then captureClass .plain s else .next s)

/-! ## The interrupt handlers -/

/-- A byte enters the Outbound Queue and is acknowledged: the push, then the outbound sequence (42_mailbox.md R180,
43_control_plane.md R210, 20_memory.md R75(c)). -/
def acceptOutbound (b : Byte) (s : State) : StepResult :=
  withBase s fun base => bumpField base fieldOutSeq { s with outq := s.outq.push s.cfg.outqCap b }

/-- IRQ_W (42_mailbox.md R180). -/
def execIrqW (s : State) : StepResult :=
  live s <|
    match s.det.wfifo with
    | [] => hold
    | b :: rest =>
      if s.det.wirqEn = false ∨ s.suspended then hold
      else
        let s1 := { s with det := { s.det with wfifo := rest } }
        if s1.deferred = [] ∧ s1.outq.count < s1.cfg.outqCap then acceptOutbound b s1
        else .next { s1 with deferred := s1.deferred ++ [b] }

/-- The next queued byte becomes the offered one: the inbound byte, then the inbound sequence (42_mailbox.md R181,
43_control_plane.md R209, 20_memory.md R75(b)). -/
def offerInbound (base : Word) (b : Byte) (s : State) : StepResult :=
  andThen (writeField base fieldInByte (b.zeroExtend 32) s) (bumpField base fieldInSeq)

/-- IRQ_R (42_mailbox.md R181). -/
def execIrqR (s : State) : StepResult :=
  live s <|
    if intR s = false ∨ s.suspended then hold
    else
      let s1 := { s with det := { s.det with rcount := s.det.rcount - 1 } }
      if s1.inq.count = 0 then .next s1
      else withBase s1 fun base =>
        let s2 := { s1 with inq := s1.inq.pop }
        if s2.inq.count = 0 then writeField base fieldPending 0 s2
        else offerInbound base (s2.inq.front s2.cfg.inqCap) s2

end Sys2Proof.Machine
end

