-- ==== Sys2Proof/Machine/Update.lean ====
section
/-! DEFINITION. UPDATE (43_control_plane.md R207 to R215). -/

namespace Sys2Proof.Machine

/-- UPDATE issues `Update` (43_control_plane.md R207). -/
def execUpdate (timeout : Word) (data : List Byte) (s : State) : StepResult :=
  live s (issue (.update { data, timeout, i := 0, t0 := 0, chunk := [], left := 0, phase := .u0 }) s)

/-- The call's record goes on with new progress fields. -/
def setUpdate (u : UpdateCall) (s : State) : StepResult := .next { s with call := some (.update u) }

/-- `Publish(b)` (43_control_plane.md R209): push, `pending`, and, if the queue was empty, the byte and the sequence. -/
def publish (b : Byte) (s : State) : StepResult :=
  withBase s fun base =>
    andThen (writeField base fieldPending 1 { s with inq := s.inq.push s.cfg.inqCap b }) fun s1 =>
      if s.inq.count = 0 then offerInbound base b s1 else .next s1

/-- `FlushChunk` (43_control_plane.md R214): the call's record and the state after it. -/
def flushChunk (u : UpdateCall) (s : State) : UpdateCall × State :=
  if u.chunk = [] then (u, s) else ({ u with chunk := [] }, s.emit (.xfer u.chunk))

/-- `Drain1` (43_control_plane.md R209): the call's record and the state after it. -/
def drain1 (u : UpdateCall) (s : State) : UpdateCall × State :=
  let u1 := { u with chunk := u.chunk ++ [s.outq.front s.cfg.outqCap] }
  let s1 := { s with outq := s.outq.pop }
  if u1.chunk.length = s.cfg.chunkSize then flushChunk u1 s1 else (u1, s1)

/-- `Replay1` (43_control_plane.md R210): the oldest deferred byte enters the Outbound Queue and is acknowledged. -/
def replay1 (s : State) : StepResult :=
  match s.deferred with
  | [] => hold
  | b :: rest => acceptOutbound b { s with deferred := rest }

/-- The call forwards its remainder and returns (43_control_plane.md R213(c), R215). -/
def finishUpdate (u : UpdateCall) (v : ResultValue) (s : State) : StepResult := ret .update v (flushChunk u s).2

/-- CP_STEP on `Update`, step U0 (43_control_plane.md R208). -/
def cpUpdateU0 (u : UpdateCall) (s : State) : StepResult :=
  if s.sess.active then setUpdate { u with t0 := s.nowMs, phase := .u1 } s else ret .update .ok s

/-- CP_STEP on `Update`, step U1 (43_control_plane.md R211). -/
def cpUpdateU1 (u : UpdateCall) (s : State) : StepResult :=
  match u.data[u.i]? with
  | none => setUpdate { u with left := s.outq.count + s.deferred.length, phase := .u2 } s
  | some b =>
    if s.inq.count < s.cfg.inqCap then andThen (publish b s) (setUpdate { u with i := u.i + 1 })
    else if u.timeout.toNat ≤ s.nowMs - u.t0 then finishUpdate u (.timeout u.i) s
    else if 0 < s.outq.count then setUpdate (drain1 u s).1 (drain1 u s).2
    else replay1 s

/-- CP_STEP on `Update`, step U2 (43_control_plane.md R215). -/
def cpUpdateU2 (u : UpdateCall) (s : State) : StepResult :=
  if 0 < u.left ∧ 0 < s.outq.count then setUpdate { (drain1 u s).1 with left := u.left - 1 } (drain1 u s).2
  else if 0 < u.left ∧ s.deferred ≠ [] then replay1 s
  else finishUpdate u .ok s

/-- CP_STEP on `Update` (43_control_plane.md R207). -/
def cpUpdate (u : UpdateCall) (s : State) : StepResult :=
  match u.phase with
  | .u0 => cpUpdateU0 u s
  | .u1 => cpUpdateU1 u s
  | .u2 => cpUpdateU2 u s

end Sys2Proof.Machine
end

