-- ==== Sys2Proof/Machine/Control.lean ====
section
/-! DEFINITION. CP_STEP (43_control_plane.md R200) and the Environment's TICK (R225). -/

namespace Sys2Proof.Machine

/-- The step of a call's rule for its current phase (43_control_plane.md R200). -/
def callStep (c : Call) (s : State) : StepResult :=
  match c with
  | .begin a _ .b1 => cpBeginB1 a s
  | .begin _ base .b2 => cpBeginB2 base s
  | .endSession => cpEnd s
  | .update u => cpUpdate u s
  | .suspend => cpSuspend s
  | .resume => cpResume s
  | .persist _ => cpPersist s
  | .setMask m => cpSetMask m s
  | .setPtr p => cpSetPtr p s
  | .getPtr => cpGetPtr s
  | .romWrite data .w1 => cpRomWriteW1 data s
  | .romWrite data .w2 => cpRomWriteW2 data s
  | .romRead n => cpRomRead n s
  | .accRead => cpAccRead s
  | .accClear => cpAccClear s

/-- CP_STEP (43_control_plane.md R200): one atomic sub-step of the call in progress. -/
def execCpStep (s : State) : StepResult :=
  live s <|
    match s.call with
    | none => hold
    | some c => callStep c s

/-- TICK (43_control_plane.md R225). -/
def execTick (s : State) : StepResult := live s (.next { s with nowMs := s.nowMs + 1 })

end Sys2Proof.Machine
end

