-- ==== Sys2Proof/Machine/ReadPath.lean ====
section
/-! DEFINITION. The Real-Time Responder's steps (41_read_path.md R151 to R154). -/

namespace Sys2Proof.Machine

/-- An accepted address: the responder goes on to serve it (41_read_path.md R151, R153). -/
def acceptSample (v : Word) (t : Option Nat) (s : State) : State :=
  { s with resp := { s.resp with a := v, aTag := t, phase := .serve } }

/-- The first sample of a pair (41_read_path.md R152; a rejected pair slides to this too, R153). -/
def firstSample (v : Word) (t : Option Nat) (s : State) : State :=
  { s with resp := { s.resp with s1 := v, s1Tag := t, phase := .s2 } }

/-- RESP_SAMPLE (41_read_path.md R151 in `Single` mode, R152 and R153 in `Double` mode). -/
def execRespSample (s : State) : StepResult :=
  live s <|
    if s.suspended then hold
    else
      match s.cfg.sampleMode, s.resp.phase with
      | .single, .s1 => .next (acceptSample (sample s).1 (sample s).2.1 (sample s).2.2)
      | .single, .s2 => hold
      | .single, .serve => hold
      | .double, .s1 => .next (firstSample (sample s).1 (sample s).2.1 (sample s).2.2)
      | .double, .s2 =>
        if (sample s).1 = s.resp.s1 then .next (acceptSample (sample s).1 (sample s).2.1 (sample s).2.2)
        else .next (firstSample (sample s).1 (sample s).2.1 (sample s).2.2)
      | .double, .serve => hold

/-- The byte is forwarded to the output driver and the loop repeats (41_read_path.md R154). -/
def forwardByte (d : Byte) (s : State) : State :=
  { s with outLatch := d, outTag := s.resp.aTag, resp := { s.resp with phase := .s1 } }

/-- RESP_SERVE (41_read_path.md R154): mask, index, forward. An offset in flight is a draw. -/
def execRespServe (s : State) : StepResult :=
  live s <|
    if s.suspended ∨ s.resp.phase ≠ .serve then hold
    else
      let o := (masked s.resp.a s.addressMask).toNat
      if s.cfg.romCap ≤ o then .fault (.outsideBuffer o)
      else if inFlight s o then .next (forwardByte (Config.drawByte s.draws) s).tookDraw
      else .next (forwardByte (s.romByte o) s)

end Sys2Proof.Machine
end

