-- ==== Sys2Proof/Machine/TargetBus.lean ====
section
/-! DEFINITION. The Target's steps (40_bus_decoder.md R121, R122, R123, R126). -/

namespace Sys2Proof.Machine

/-- The lines start to move to a new address (40_bus_decoder.md R121, the last four writes). -/
def moveLines (a : Word) (s : State) : State :=
  { s with bus := { s.bus with prev := s.bus.addr, addr := a, stable := false, epoch := s.bus.epoch + 1 } }

/-- BUS_ADDR (40_bus_decoder.md R121). -/
def execBusAddr (a : Word) (s : State) : StepResult :=
  live s <|
    if a = s.bus.addr then .next s
    else if s.acc.isOpen then
      andThen (closeAccess s) fun s1 => .next (moveLines a { s1 with acc := { s1.acc with seen := none } })
    else .next (moveLines a s)

/-- BUS_SETTLE (40_bus_decoder.md R122). -/
def execBusSettle (s : State) : StepResult :=
  live s <|
    if s.bus.stable then .next s
    else
      let s1 := { s with bus := { s.bus with stable := true } }
      if s1.acc.isOpen ∧ s1.acc.seen = none then .next { s1 with acc := { s1.acc with seen := some s1.bus.addr } }
      else .next s1

/-- BUS_ENABLE (40_bus_decoder.md R123). -/
def execBusEnable (ce oe : Bool) (s : State) : StepResult :=
  live s <|
    let s1 := { s with bus := { s.bus with ce := ce, oe := oe } }
    if s.en = false ∧ s1.en = true then
      .next { s1 with acc := { isOpen := true, seen := if s1.bus.stable then some s1.bus.addr else none } }
    else if s.en = true ∧ s1.en = false then
      andThen (closeAccess s1) fun s2 => .next { s2 with acc := { isOpen := false, seen := none } }
    else .next s1

/-- BUS_LATCH (40_bus_decoder.md R126). -/
def execBusLatch (s : State) : StepResult :=
  live s <|
    match latchKind s with
    | none => .next (s.emit (.latch s.pinsVal true))
    | some kind => .next (((s.emit (.latch (Config.drawByte s.draws) false)).emit (.timingViolation kind)).tookDraw)

end Sys2Proof.Machine
end

