-- ==== Sys2Proof/Machine/Dispatch.lean ====
section
/-! DEFINITION. The meaning of every instruction: one arm per row of spec/opcode_table.json. -/

namespace Sys2Proof.Machine

def exec (i : Instr) (s : State) : Host.Outcome State Fault Refusal :=
  match i with
  | .busAddr a => Sys2Proof.Machine.execBusAddr a s
  | .busSettle => Sys2Proof.Machine.execBusSettle s
  | .busEnable ce oe => Sys2Proof.Machine.execBusEnable ce oe s
  | .busLatch => Sys2Proof.Machine.execBusLatch s
  | .oeseqStep => Sys2Proof.Machine.execOeseqStep s
  | .drvShift => Sys2Proof.Machine.execDrvShift s
  | .repStep => Sys2Proof.Machine.execRepStep s
  | .respSample => Sys2Proof.Machine.execRespSample s
  | .respServe => Sys2Proof.Machine.execRespServe s
  | .irqW => Sys2Proof.Machine.execIrqW s
  | .irqR => Sys2Proof.Machine.execIrqR s
  | .cpStep => Sys2Proof.Machine.execCpStep s
  | .beginSession a => Sys2Proof.Machine.execBeginSession a s
  | .endSession => Sys2Proof.Machine.execEndSession s
  | .update timeout data => Sys2Proof.Machine.execUpdate timeout data s
  | .suspend => Sys2Proof.Machine.execSuspend s
  | .resume => Sys2Proof.Machine.execResume s
  | .persist r => Sys2Proof.Machine.execPersist r s
  | .setMask m => Sys2Proof.Machine.execSetMask m s
  | .romSetptr p => Sys2Proof.Machine.execRomSetptr p s
  | .romGetptr => Sys2Proof.Machine.execRomGetptr s
  | .romWrite data => Sys2Proof.Machine.execRomWrite data s
  | .romRead n => Sys2Proof.Machine.execRomRead n s
  | .accflagRead => Sys2Proof.Machine.execAccflagRead s
  | .accflagClear => Sys2Proof.Machine.execAccflagClear s
  | .tick => Sys2Proof.Machine.execTick s
  | .mboxOut b => Sys2Proof.Machine.execMboxOut b s
  | .mboxConsume => Sys2Proof.Machine.execMboxConsume s
  | .plainRead => Sys2Proof.Machine.execPlainRead s

end Sys2Proof.Machine
end

