-- ==== Sys2Proof/Machine/Fetch.lean ====
section
/-! DEFINITION. Where the next operation comes from: the front of the schedule (30_encoding.md R102, R106), and how a window
row, which no schedule byte spells, is made the next thing the detectors run (log 10). -/

namespace Sys2Proof.Machine

/-- Why a schedule is refused as a whole, and at which offset: it contains an encoding that is no operation (30_encoding.md R98, R99;
60_exceptions.md R265(b)). None for a schedule that decodes to its end. -/
def scheduleProblem (s : State) : Option (DecodeError × Nat) :=
  (decodeSchedule s.cfg.addrBits s.sched).invalid.map fun p => (p.1, s.pos + p.2)

/-- The operation at the front of the schedule. -/
def fetch (s : State) : Decoded := decodeOp s.cfg.addrBits s.sched

/-- The schedule goes on after an operation of `n` bytes. -/
def State.consume (s : State) (n : Nat) : State := { s with sched := s.sched.drop n, pos := s.pos + n }

/-- A byte string is the schedule to replay, from its offset 0 (30_encoding.md R106). -/
def State.load (s : State) (bs : List Byte) : State := { s with sched := bs, pos := 0 }

/-- An enabled access at window offset `w` of armed detectors is in progress, and the next operation, BUS_ENABLE 0, 0, closes it:
the detectors then classify that offset (42_mailbox.md R173) and run its row. -/
def State.closeNext (s : State) (w : BitVec 9) : State :=
  { s with
    det := { s.det with armed := true }
    bus := { s.bus with ce := true, oe := true }
    acc := { isOpen := true, seen := some (s.det.base ||| w.zeroExtend 32) }
    sched := encodeBytes (.busEnable false false) }

end Sys2Proof.Machine
end

