-- ==== Sys2Proof/Machine/Step.lean ====
section
/-! DEFINITION. One step of the machine: the next operation of the schedule is decoded and run (30_encoding.md R106). -/

namespace Sys2Proof.Machine

/-- One step. A configuration that fails 00_scope.md R6 and a schedule that contains an encoding of no operation are refused, since no
run of them exists (60_exceptions.md R265); a run that a model fault ended takes no step (R254); and the operation at the front of the
schedule is run in the state that has moved past its bytes. -/
def step (s : State) : Host.Outcome State Fault Refusal :=
  match configProblem s.cfg with
  | some p => .refused (.configuration p)
  | none =>
    match scheduleProblem s with
    | some (e, offset) => .refused (.decode e offset)
    | none =>
      live s <|
        match fetch s with
        | .done => .refused .scheduleEnd
        | .invalid e => .refused (.decode e s.pos)
        | .op i n => exec i (s.consume n)

/-- The state in which the next step runs the instruction of an opcode-table word: an operation's bytes are the schedule; a
classification row is what the access that the next step closes is classified as (log 10). -/
def State.withFetchWord (s : State) (nbits w : Nat) : State :=
  match tableCode nbits w with
  | .bytes bs => { s with sched := bs }
  | .window woff => s.closeNext woff

end Sys2Proof.Machine
end

