-- ==== Sys2Proof/Machine/Agents.lean ====
section
/-! DEFINITION. Whose step each operation is (00_scope.md R4, 30_encoding.md R96). -/

namespace Sys2Proof.Machine

/-- The agents that take steps of their own (00_scope.md R4); the Detectors, the eighth, act inside the Target's steps. -/
inductive Agent where
  | target
  | decoder
  | responder
  | handlers
  | calls
  | host
  | environment
deriving DecidableEq, Repr

/-- The agent whose step an operation is (30_encoding.md R96); none for a window classification row, which is no agent's own step
(00_scope.md R4, 30_encoding.md R97). -/
def agentOf : Instr → Option Agent
  | .busAddr _ => some .target
  | .busSettle => some .target
  | .busEnable _ _ => some .target
  | .busLatch => some .target
  | .oeseqStep => some .decoder
  | .drvShift => some .decoder
  | .repStep => some .decoder
  | .respSample => some .responder
  | .respServe => some .responder
  | .irqW => some .handlers
  | .irqR => some .handlers
  | .cpStep => some .calls
  | .beginSession _ => some .host
  | .endSession => some .host
  | .update _ _ => some .host
  | .suspend => some .host
  | .resume => some .host
  | .persist _ => some .host
  | .setMask _ => some .host
  | .romSetptr _ => some .host
  | .romGetptr => some .host
  | .romWrite _ => some .host
  | .romRead _ => some .host
  | .accflagRead => some .host
  | .accflagClear => some .host
  | .tick => some .environment
  | .mboxOut _ => none
  | .mboxConsume => none
  | .plainRead => none

/-- A step that some agent can take at all (00_scope.md R11(a)): an agent's own operation, with operands that exist (00_scope.md R7,
30_encoding.md R99). -/
def isAgentStep (addrBits : Nat) (i : Instr) : Bool := (agentOf i).isSome && i.wellFormed addrBits

end Sys2Proof.Machine
end

