-- ==== Sys2Proof/Machine/Pseudo.lean ====
section
/-! DEFINITION. Schedules as lists of operations: their replay (30_encoding.md R106) and the pseudo-operations of R104. -/

namespace Sys2Proof.Machine

/-- The meanings of operations in order, one step each (30_encoding.md R106), stopping where one holds or the run ends. Like `exec`, it
asks nothing of the configuration; a run of a refused one does not exist (00_scope.md R6: `step`, `expandLines`, `runTread32`). -/
def replay : List Instr → State → StepResult
  | [], s => .next s
  | i :: rest, s =>
    match exec i s with
    | .next s1 => replay rest s1
    | .fault f => .fault f
    | .refused q => .refused q

/-- The state a replay goes through to, by a model fault of its last operation too: only a `hold` and a step after a fault are
infeasible (30_encoding.md R106(a), (d)). -/
def reached (ops : List Instr) (s : State) : Option State :=
  match replay ops s with
  | .next s1 => some s1
  | .fault _ => none
  | .refused _ => none

/-- The state after a replay that more operations follow: it goes through and raises no fault (30_encoding.md R106(d)). -/
def after (ops : List Instr) (s : State) : Option State := (reached ops s).filter fun s1 => s1.faulted.isNone

/-- A line of a schedule: an operation, or a pseudo-operation (30_encoding.md R104). -/
inductive Pseudo where
  | op (i : Instr)
  | serveNow
  | tread (a : Word)
  | tread32 (a : Word)
  | tsend (base : Word) (b : Byte)
  | tconsume (base : Word)
  | call (i : Instr)
deriving DecidableEq, Repr

/-- The samples of SERVE_NOW: one if `Single`, two if `Double` (30_encoding.md R104). -/
def samplesOf : SampleMode → List Instr
  | .single => [.respSample]
  | .double => [.respSample, .respSample]

/-- SERVE_NOW from `s` (30_encoding.md R104): its DRV_SHIFT is left out where it would hold. None where it is infeasible. -/
def expandServeNow (s : State) : Option (List Instr) :=
  if s.resp.phase ≠ .s1 then none
  else
    let ops := samplesOf s.cfg.sampleMode ++ [.respServe]
    (after ops s).map fun s1 =>
      if s1.pinsVal = s1.outLatch ∧ s1.pinsTag = s1.outTag then ops else ops ++ [.drvShift]

/-- The precondition of TREAD (30_encoding.md R104). -/
def treadReady (s : State) : Bool :=
  decide (s.resp.phase = .s1) && !s.suspended && !s.en && decide (s.oeseq = .released)

/-- TREAD `a` from `s` (30_encoding.md R104); an address line that does not exist cannot be driven (R99(c)). -/
def expandTread (a : Word) (s : State) : Option (List Instr) :=
  if treadReady s = false ∨ isAddr s.cfg.addrBits a = false then none
  else
    let opening := [.busAddr a, .busSettle, .busEnable true true, .oeseqStep]
    (after opening s).bind fun s1 =>
      (expandServeNow s1).map fun serve => opening ++ serve ++ [.busLatch, .busEnable false false, .oeseqStep]

/-- TREADs one after the other, each in the state the one before it leaves. -/
def expandTreads : List Word → State → Option (List Instr)
  | [], _ => some []
  | a :: rest, s =>
    (expandTread a s).bind fun ops =>
      (after ops s).bind fun s1 => (expandTreads rest s1).map fun more => ops ++ more

/-- Nothing of a call is left to run: it has returned, or a model fault has ended the run (30_encoding.md R104, R106(d)). -/
def callOver (s : State) : Bool := s.call.isNone || s.faulted.isSome

/-- CP_STEPs until the call returns or faults (30_encoding.md R104, R106(b)), at most `fuel` of them; none where one holds. -/
def expandCpSteps : Nat → State → Option (List Instr)
  | 0, s => if callOver s then some [] else none
  | fuel + 1, s =>
    if callOver s then some []
    else (reached [.cpStep] s).bind fun s1 => (expandCpSteps fuel s1).map fun more => .cpStep :: more

/-- CP_STEPs enough for any call that no other agent interrupts: the most is UPDATE's (43_control_plane.md R211, R215). -/
def callFuel (s : State) : Nat :=
  match s.call with
  | some (.update u) => u.data.length + 4 * (s.outq.count + s.deferred.length) + 4
  | some _ => 2
  | none => 0

/-- CALL `i` from `s`, for a Host operation `i` (30_encoding.md R104); a fault at the issue or at a CP_STEP ends it there. -/
def expandCall (i : Instr) (s : State) : Option (List Instr) :=
  if agentOf i ≠ some .host ∨ s.call ≠ none ∨ i.wellFormed s.cfg.addrBits = false then none
  else (reached [i] s).bind fun s1 => (expandCpSteps (callFuel s1) s1).map fun more => i :: more

/-- The operations a schedule line stands for, from the state it is reached in (30_encoding.md R104); none where it is
infeasible. DESIGN CHOICE (log 18), unsafe: the sums of TREAD32, TSEND and TCONSUME wrap modulo 2^32; the spec states the
wrap for `+1` only (00_scope.md R8). -/
def Pseudo.expand (p : Pseudo) (s : State) : Option (List Instr) :=
  match p with
  | .op i => if isAgentStep s.cfg.addrBits i then some [i] else none
  | .serveNow => expandServeNow s
  | .tread a => expandTread a s
  | .tread32 a => expandTreads [a, a + 1, a + 2, a + 3] s
  | .tsend base b => expandTread (base + 256 + b.zeroExtend 32) s
  | .tconsume base => expandTread (base + 12) s
  | .call i => expandCall i s

/-- The operations of a list of schedule lines, one line after the other. -/
def expandFrom : List Pseudo → State → Option (List Instr)
  | [], _ => some []
  | p :: rest, s =>
    if s.faulted.isSome then none
    else
      (p.expand s).bind fun ops =>
        (reached ops s).bind fun s1 => (expandFrom rest s1).map fun more => ops ++ more

/-- The operations of a schedule given as lines, from `s`; the last line may end in a model fault, and none may follow one
(30_encoding.md R106(d)). None for a configuration that is refused (00_scope.md R6). -/
def expandLines (lines : List Pseudo) (s : State) : Option (List Instr) :=
  match configProblem s.cfg with
  | some _ => none
  | none => expandFrom lines s

/-! ## What a target reads -/

/-- The byte a latch took, of an event that is one (00_scope.md R12). -/
def Event.latched : Event → Option Byte
  | .latch v _ => some v
  | .timingViolation _ => none
  | .xfer _ => none
  | .result _ _ => none
  | .fault _ => none

/-- The bytes latched between two states of a run, oldest first: the history only grows (10_state.md R39). -/
def latchedSince (s t : State) : List Byte := (t.history.drop s.history.length).filterMap Event.latched

/-- The `u32` of a TREAD32's four latched bytes: little-endian, the first byte least significant (30_encoding.md R104). -/
def assemble32 : List Byte → Option Word
  | [b0, b1, b2, b3] => some (BitVec.ofNat 32 (leValue [b0, b1, b2, b3]))
  | _ => none

/-- TREAD32 `a` from `s`, replayed: the value the target assembles, and the state after it (30_encoding.md R104). None for a
configuration that is refused (00_scope.md R6). -/
def runTread32 (a : Word) (s : State) : Option (Word × State) :=
  (expandLines [.tread32 a] s).bind fun ops =>
    (reached ops s).bind fun t => (assemble32 (latchedSince s t)).map fun v => (v, t)

end Sys2Proof.Machine
end

