-- ==== Sys2Proof/Machine/Text.lean ====
section
/-! DEFINITION. The text syntax of schedules (30_encoding.md R103) and of the pseudo-operations (R104), over lists of characters:
one line `MNEMONIC operands ; comment` to what it stands for. What the spec leaves open of it is in log 14. -/

namespace Sys2Proof.Machine

/-- A parser of a line's front: what it read and the rest, or none. -/
abbrev Parser (α : Type) := List Char → Option (α × List Char)

/-- Blanks are skipped. -/
def skipBlanks : List Char → List Char
  | [] => []
  | c :: rest => if c = ' ' then skipBlanks rest else c :: rest

/-- A digit's value in a base up to 16. -/
def digitValue (base : Nat) (c : Char) : Option Nat :=
  let n := c.toNat
  let v := if 48 ≤ n ∧ n ≤ 57 then n - 48
    else if 65 ≤ n ∧ n ≤ 70 then n - 55
    else if 97 ≤ n ∧ n ≤ 102 then n - 87
    else 16
  if v < base then some v else none

/-- The digits at the front, read on from `acc`; `any` says whether one has been read. -/
def parseDigits (base : Nat) (acc : Nat) (any : Bool) : Parser Nat
  | [] => if any then some (acc, []) else none
  | c :: rest =>
    match digitValue base c with
    | some v => parseDigits base (acc * base + v) true rest
    | none => if any then some (acc, c :: rest) else none

/-- A number, decimal, or hexadecimal with `0x` (R103). -/
def parseNumber (cs : List Char) : Option (Nat × List Char) :=
  match skipBlanks cs with
  | '0' :: 'x' :: rest => parseDigits 16 0 false rest
  | rest => parseDigits 10 0 false rest

/-- A number below `bound`. -/
def parseBelow (bound : Nat) (cs : List Char) : Option (Nat × List Char) :=
  (parseNumber cs).bind fun (n, rest) => if n < bound then some (n, rest) else none

/-- A `u32`. -/
def parseWord (cs : List Char) : Option (Word × List Char) :=
  (parseBelow (2 ^ 32) cs).map fun (n, rest) => (BitVec.ofNat 32 n, rest)

/-- A `u8`. -/
def parseByte (cs : List Char) : Option (Byte × List Char) :=
  (parseBelow 256 cs).map fun (n, rest) => (BitVec.ofNat 8 n, rest)

/-- A flag, 0 or 1. -/
def parseFlag (cs : List Char) : Option (Bool × List Char) :=
  (parseBelow 2 cs).map fun (n, rest) => (n == 1, rest)

/-- One given character, after blanks. -/
def expectChar (c : Char) (cs : List Char) : Option (List Char) :=
  match skipBlanks cs with
  | d :: rest => if c = d then some rest else none
  | [] => none

/-- A comma between two operands. -/
def comma (cs : List Char) : Option (List Char) := expectChar ',' cs

/-- The bytes of a list after its first bracket, to the closing one. -/
def parseByteTail : Nat → List Char → Option (List Byte × List Char)
  | 0, _ => none
  | fuel + 1, cs =>
    (parseByte cs).bind fun (b, rest) =>
      match skipBlanks rest with
      | ',' :: more => (parseByteTail fuel more).map fun (bs, left) => (b :: bs, left)
      | ']' :: left => some ([b], left)
      | _ => none

/-- The characters of a string literal after its first quote, as their ASCII bytes. -/
def parseString : List Char → Option (List Byte × List Char)
  | [] => none
  | c :: rest =>
    if c.toNat = 34 then some ([], rest)
    else if c.toNat < 128 then (parseString rest).map fun (bs, left) => (BitVec.ofNat 8 c.toNat :: bs, left)
    else none

/-- A byte list, in brackets or as a string literal (R103). -/
def parseData (cs : List Char) : Option (List Byte × List Char) :=
  match skipBlanks cs with
  | '[' :: rest =>
    match skipBlanks rest with
    | ']' :: left => some ([], left)
    | inner => parseByteTail (inner.length + 1) inner
  | c :: rest => if c.toNat = 34 then parseString rest else none
  | [] => none

/-- The word at the front: letters, digits and underscores. -/
def takeWord : List Char → List Char × List Char
  | [] => ([], [])
  | c :: rest =>
    if c.isAlphanum || c == '_' then ((c :: (takeWord rest).1), (takeWord rest).2) else ([], c :: rest)

/-- PERSIST's region name (R103). -/
def parseRegion (cs : List Char) : Option (Region × List Char) :=
  let w := takeWord (skipBlanks cs)
  if w.1 = "RomImage".toList then some (.romImage, w.2)
  else if w.1 = "Config".toList then some (.config, w.2)
  else none

/-- The operations that take no operand, by mnemonic (R103). -/
def plainMnemonics : List (String × Instr) :=
  [("BUS_SETTLE", .busSettle), ("BUS_LATCH", .busLatch), ("OESEQ_STEP", .oeseqStep), ("DRV_SHIFT", .drvShift),
   ("REP_STEP", .repStep), ("RESP_SAMPLE", .respSample), ("RESP_SERVE", .respServe), ("IRQ_W", .irqW), ("IRQ_R", .irqR),
   ("CP_STEP", .cpStep), ("END_SESSION", .endSession), ("SUSPEND", .suspend), ("RESUME", .resume),
   ("ROM_GETPTR", .romGetptr), ("ACCFLAG_READ", .accflagRead), ("ACCFLAG_CLEAR", .accflagClear), ("TICK", .tick)]

/-- An operation: its mnemonic and its operands (R103). -/
def parseOp (cs : List Char) : Option (Instr × List Char) :=
  let w := takeWord (skipBlanks cs)
  let is (m : String) : Bool := w.1 == m.toList
  if is "BUS_ADDR" then (parseWord w.2).map fun (a, r) => (.busAddr a, r)
  else if is "BEGIN_SESSION" then (parseWord w.2).map fun (a, r) => (.beginSession a, r)
  else if is "SET_MASK" then (parseWord w.2).map fun (a, r) => (.setMask a, r)
  else if is "ROM_SETPTR" then (parseWord w.2).map fun (a, r) => (.romSetptr a, r)
  else if is "BUS_ENABLE" then
    (parseFlag w.2).bind fun (ce, r) => (comma r).bind fun r1 => (parseFlag r1).map fun (oe, r2) => (.busEnable ce oe, r2)
  else if is "PERSIST" then (parseRegion w.2).map fun (g, r) => (.persist g, r)
  else if is "UPDATE" then
    (parseWord w.2).bind fun (t, r) => (comma r).bind fun r1 => (parseData r1).map fun (d, r2) => (.update t d, r2)
  else if is "ROM_WRITE" then (parseData w.2).map fun (d, r) => (.romWrite d, r)
  else if is "ROM_READ" then (parseBelow 65536 w.2).map fun (n, r) => (.romRead (BitVec.ofNat 16 n), r)
  else (plainMnemonics.find? fun e => is e.1).map fun e => (e.2, w.2)

/-- An operation or a pseudo-operation (R103, R104). -/
def parsePseudo (cs : List Char) : Option (Pseudo × List Char) :=
  let w := takeWord (skipBlanks cs)
  let is (m : String) : Bool := w.1 == m.toList
  if is "SERVE_NOW" then some (.serveNow, w.2)
  else if is "TREAD" then (parseWord w.2).map fun (a, r) => (.tread a, r)
  else if is "TREAD32" then (parseWord w.2).map fun (a, r) => (.tread32 a, r)
  else if is "TSEND" then
    (parseWord w.2).bind fun (a, r) => (comma r).bind fun r1 => (parseByte r1).map fun (b, r2) => (.tsend a b, r2)
  else if is "TCONSUME" then (parseWord w.2).map fun (a, r) => (.tconsume a, r)
  else if is "CALL" then (parseOp w.2).map fun (i, r) => (.call i, r)
  else (parseOp cs).map fun (i, r) => (.op i, r)

/-- A line's text before its comment; a `;` inside a string literal starts none. -/
def stripComment (inString : Bool) : List Char → List Char
  | [] => []
  | c :: rest =>
    if c.toNat = 34 then c :: stripComment (!inString) rest
    else if c = ';' ∧ inString = false then []
    else c :: stripComment inString rest

/-- The prefix `k×` (R103): how often the line stands, 1 without it. -/
def parseRepeat (cs : List Char) : Nat × List Char :=
  match parseDigits 10 0 false (skipBlanks cs) with
  | some (k, rest) =>
    match skipBlanks rest with
    | '×' :: more => (k, more)
    | _ => (1, cs)
  | none => (1, cs)

/-- One line (R103): what it stands for, as often as its prefix says; a line with no text stands for nothing. None where it is no
line of the syntax. -/
def parseLine (cs : List Char) : Option (List Pseudo) :=
  match skipBlanks (stripComment false cs) with
  | [] => some []
  | text =>
    let p := parseRepeat text
    (parsePseudo p.2).bind fun (q, rest) => if skipBlanks rest = [] then some (List.replicate p.1 q) else none

/-- A schedule's lines (R103). -/
def parseLines : List (List Char) → Option (List Pseudo)
  | [] => some []
  | l :: rest => (parseLine l).bind fun ps => (parseLines rest).map fun more => ps ++ more

end Sys2Proof.Machine
end

