-- ==== Sys2Proof/Safety.lean ====
section
/-! DEFINITION. What claims are stated in: the invariants of 10_state.md R44 and those of the other state rules, enabledness,
fairness and the end of a run (70_reset_and_hazards.md R296, R297), and the timing premises (R290 to R293). -/

namespace Sys2Proof.Machine

/-! ## The invariants of R44 -/

/-- R44(a), and R32's ring of CAP bytes. -/
abbrev QueueOk (q : Queue) (cap : Nat) : Prop := q.ring.length = cap ∧ q.tail ≤ q.head ∧ q.head ≤ q.tail + cap

/-- R44(b): the session pointer, the detectors and the interrupt enables agree. -/
abbrev SessionOk (s : State) : Prop :=
  (s.sess.active = true ↔ s.sess.base ≠ none) ∧
  (s.sess.active = true →
    s.det.armed = true ∧ s.sess.base = some s.det.base ∧ s.det.wirqEn = true ∧ s.det.rirqEn = true) ∧
  (s.sess.active = false → s.det.wirqEn = false ∧ s.det.rirqEn = false)

/-- R44(c): an idle controller holds no byte. -/
abbrev IdleEmpty (s : State) : Prop :=
  s.sess.active = false → s.inq.count = 0 ∧ s.outq.count = 0 ∧ s.deferred = []

/-- R44(d) for the base of an active session: alignment, placement and the `active` field. -/
abbrev WindowPlaced (s : State) (base : Word) : Prop :=
  base.toNat % 512 = 0 ∧ base.toNat + 511 ≤ s.addressMask.toNat ∧ s.field base fieldActive = 1

/-- R44(e): `pending` mirrors the Inbound Queue. -/
abbrev PendingMirrors (s : State) (base : Word) : Prop :=
  s.field base fieldPending = (if 0 < s.inq.count then 1 else 0)

/-- R44(f): the inbound byte is the Inbound Queue's front. -/
abbrev InboundByteIsFront (s : State) (base : Word) : Prop :=
  0 < s.inq.count → s.field base fieldInByte = (s.inq.front s.cfg.inqCap).zeroExtend 32

/-- R44(g): the inbound sequence counts the bytes that have become the front. -/
abbrev InboundSeqCounts (s : State) (base : Word) : Prop :=
  s.field base fieldInSeq = BitVec.ofNat 32 (s.inq.tail + (if 0 < s.inq.count then 1 else 0))

/-- R44(h): the outbound sequence counts the bytes that have entered the Outbound Queue. -/
abbrev OutboundSeqCounts (s : State) (base : Word) : Prop :=
  s.field base fieldOutSeq = BitVec.ofNat 32 s.outq.head

/-- R44(d) to (h), at the base of the active session. -/
abbrev WindowOk (s : State) : Prop :=
  ∀ base, s.sess.active = true → s.sess.base = some base →
    WindowPlaced s base ∧ PendingMirrors s base ∧ InboundByteIsFront s base ∧ InboundSeqCounts s base ∧
      OutboundSeqCounts s base

/-- R44(i): the detector FIFOs stay within their depth. -/
abbrev FifosOk (s : State) : Prop :=
  s.det.wfifo.length ≤ s.cfg.detFifoDepth ∧ s.det.rcount ≤ s.cfg.detFifoDepth

/-- R44(j). -/
abbrev IdleNotInFlight (s : State) : Prop := s.call = none → s.inflight = none

/-- The invariants of R44, (a) to (j). -/
structure R44 (s : State) : Prop where
  inqOk : QueueOk s.inq s.cfg.inqCap
  outqOk : QueueOk s.outq s.cfg.outqCap
  session : SessionOk s
  idle : IdleEmpty s
  window : WindowOk s
  fifos : FifosOk s
  inflight : IdleNotInFlight s

/-! ## The invariants of the other state rules -/

/-- The configuration has passed the check of 00_scope.md R6. -/
abbrev ConfigOk (s : State) : Prop := configProblem s.cfg = none

/-- 10_state.md R21: the ROM Buffer is in canonical form and holds no byte outside it. -/
abbrev BufferOk (s : State) : Prop := Memory.wf s.rom = true ∧ ∀ c ∈ s.rom, c.1 < s.cfg.romCap

/-- 10_state.md R22: the mask is a legal value. -/
abbrev MaskOk (s : State) : Prop := maskLegal s.cfg s.addressMask = true

/-- 00_scope.md R7, 10_state.md R23, R24, R28: every address register holds an `Addr`. -/
abbrev AddressesOk (s : State) : Prop :=
  isAddr s.cfg.addrBits s.bus.addr = true ∧ isAddr s.cfg.addrBits s.bus.prev = true ∧
  isAddr s.cfg.addrBits s.resp.s1 = true ∧ isAddr s.cfg.addrBits s.resp.a = true ∧
  ∀ a, s.acc.seen = some a → isAddr s.cfg.addrBits a = true

/-- 10_state.md R24, 40_bus_decoder.md R124: an access is open exactly while the target is enabled, and what it has seen is the
settled address on the lines. -/
abbrev AccessOk (s : State) : Prop :=
  s.acc.isOpen = s.en ∧ s.acc.seen = (if s.en ∧ s.bus.stable then some s.bus.addr else none)

/-- 10_state.md R29: bits [8:0] of the detectors' base are 0. -/
abbrev DetBaseAligned (s : State) : Prop := s.det.base.toNat % 512 = 0

/-- 60_exceptions.md R260: the loaded programs fit the hardware units. -/
abbrev UnitsOk (s : State) : Prop := unitsUsed s ≤ s.cfg.smUnits

/-- A tag names an epoch that has begun (10_state.md R26, R28). -/
abbrev TagOk (s : State) (t : Option Nat) : Prop := ∀ e, t = some e → e ≤ s.bus.epoch

/-- A tagged address of the current epoch is the address on the lines (41_read_path.md R153 corner case 2, R155). -/
abbrev TaggedAddress (s : State) (t : Option Nat) (a : Word) : Prop := t = some s.bus.epoch → a = s.bus.addr

/-- The tags of the read pipeline (10_state.md R26, R28; 41_read_path.md R155, R156). -/
abbrev TagsOk (s : State) : Prop :=
  TagOk s s.resp.s1Tag ∧ TagOk s s.resp.aTag ∧ TagOk s s.outTag ∧ TagOk s s.pinsTag ∧
  TaggedAddress s s.resp.s1Tag s.resp.s1 ∧ TaggedAddress s s.resp.aTag s.resp.a

/-- 10_state.md R42: `S2` never occurs in `Single` mode. -/
abbrev PhaseOk (s : State) : Prop := s.cfg.sampleMode = .single → s.resp.phase ≠ .s2

/-- What the call in progress says of the rest of the state (10_state.md R37, R38; 43_control_plane.md R201, R208, R211, R215,
R222, R224). -/
def callOk (s : State) : Bool :=
  match s.call with
  | none => s.inflight == none
  | some (.begin _ _ .b1) => s.inflight == none && !s.suspended
  | some (.begin _ base .b2) =>
    s.inflight == some (base.toNat, base.toNat + 512) && !s.sess.active && !s.suspended
      && decide (base.toNat % 512 = 0) && decide (base.toNat + 511 ≤ s.addressMask.toNat) && decide (5 ≤ s.cfg.smUnits)
  | some (.romWrite _ .w1) => s.inflight == none && !s.suspended
  | some (.romWrite data .w2) =>
    s.inflight == some (s.romPtr.toNat, s.romPtr.toNat + data.length) && !s.suspended
      && decide (s.romPtr.toNat + data.length ≤ s.cfg.romCap)
      && (!s.sess.active || decide (s.det.base.toNat + 512 ≤ s.romPtr.toNat)
          || decide (s.romPtr.toNat + data.length ≤ s.det.base.toNat))
  | some (.update u) =>
    s.inflight == none && !s.suspended && decide (u.i ≤ u.data.length) && decide (u.chunk.length < s.cfg.chunkSize)
      && decide (u.t0 ≤ s.nowMs)
      && (!decide (u.phase = .u0) || u.chunk == []) && (decide (u.phase = .u0) || s.sess.active)
      && (!decide (u.phase = .u2) || decide (u.left ≤ s.outq.count + s.deferred.length))
  | some c => s.inflight == none && (!s.suspended || c.admittedSuspended)

/-- A good state: the invariants of R44 and of the other state rules. -/
structure Good (s : State) : Prop where
  config : ConfigOk s
  r44 : R44 s
  buffer : BufferOk s
  mask : MaskOk s
  addresses : AddressesOk s
  access : AccessOk s
  detBase : DetBaseAligned s
  units : UnitsOk s
  tags : TagsOk s
  phase : PhaseOk s
  callRecord : callOk s = true

/-! ## The bytes on their way (42_mailbox.md R183, R186; 43_control_plane.md R227) -/

/-- The bytes a queue holds, front first (10_state.md R32). -/
def Queue.contents (q : Queue) (cap : Nat) : List Byte :=
  (List.range q.count).map fun j => q.ring.getD ((q.tail + j) % cap) 0

/-- The bytes of an event's outbound chunk (00_scope.md R12). -/
def Event.chunk : Event → List Byte
  | .xfer bs => bs
  | .latch _ _ => []
  | .timingViolation _ => []
  | .result _ _ => []
  | .fault _ => []

/-- The drained bytes an UPDATE call has not forwarded yet (43_control_plane.md R214). -/
def pendingChunk (s : State) : List Byte :=
  match s.call with
  | some (.update u) => u.chunk
  | some _ => []
  | none => []

/-- Every outbound byte the write-detector recorded and the channel still accounts for, oldest first: Forwarded, Drained, Accepted,
Deferred, Detected (42_mailbox.md R183). -/
def outboundStream (s : State) : List Byte :=
  s.history.flatMap Event.chunk ++ pendingChunk s ++ s.outq.contents s.cfg.outqCap ++ s.deferred ++ s.det.wfifo

/-- The bytes an UPDATE call has not published yet (43_control_plane.md R211). -/
def unpublished (u : UpdateCall) : List Byte := u.data.drop u.i

/-! ## A malformed access (42_mailbox.md R174) -/

/-- The state in which the row of an access whose lines never settled runs: its event is emitted and its draws are taken
(42_mailbox.md R174). -/
def unsettled (s : State) : State := (malformed s).2

/-- The window row an access whose lines never settled is drawn as (42_mailbox.md R174). -/
def drawnRow (s : State) : Instr := (malformed s).1.row

/-! ## The call of each Host operation -/

/-- The call record a Host operation issues (43_control_plane.md R200); the steps of the other agents issue none. -/
def hostCall : Instr → Option Call
  | .beginSession a => some (.begin a 0 .b1)
  | .endSession => some .endSession
  | .update timeout data =>
    some (.update { data, timeout, i := 0, t0 := 0, chunk := [], left := 0, phase := .u0 })
  | .suspend => some .suspend
  | .resume => some .resume
  | .persist r => some (.persist r)
  | .setMask m => some (.setMask m)
  | .romSetptr p => some (.setPtr p)
  | .romGetptr => some .getPtr
  | .romWrite data => some (.romWrite data .w1)
  | .romRead n => some (.romRead n)
  | .accflagRead => some .accRead
  | .accflagClear => some .accClear
  | .busAddr _ => none
  | .busSettle => none
  | .busEnable _ _ => none
  | .busLatch => none
  | .oeseqStep => none
  | .drvShift => none
  | .repStep => none
  | .respSample => none
  | .respServe => none
  | .irqW => none
  | .irqR => none
  | .cpStep => none
  | .tick => none
  | .mboxOut _ => none
  | .mboxConsume => none
  | .plainRead => none

/-! ## Enabled steps, fairness, the end of a run -/

/-- A step is enabled: the configuration is one that runs (00_scope.md R6), the step does not hold, and the run has not ended
(00_scope.md R10(d)). -/
def enabled (i : Instr) (s : State) : Bool :=
  (configProblem s.cfg).isNone &&
    match exec i s with
    | .next _ => true
    | .fault _ => false
    | .refused _ => false

/-- An atomic step of the interleaving: some agent takes an enabled step of its own, from `s` to `t` (00_scope.md R11(a)). A
configuration that fails the check of 00_scope.md R6 takes none: no run of it exists. -/
def Takes (i : Instr) (s t : State) : Prop :=
  configProblem s.cfg = none ∧ isAgentStep s.cfg.addrBits i = true ∧ exec i s = .next t

/-- The weakly fair steps (00_scope.md R11(b), 70_reset_and_hazards.md R297(a) to (d)). -/
def fairSteps : List Instr := [.oeseqStep, .drvShift, .repStep, .respSample, .respServe, .irqW, .irqR, .cpStep]

/-- An infinite interleaving: step `ops n` is taken from state `σ n` to `σ (n + 1)` (00_scope.md R11(a)). -/
def IsRun (ops : Nat → Instr) (σ : Nat → State) : Prop := ∀ n, Takes (ops n) (σ n) (σ (n + 1))

/-- An infinite run: a fair step that stays enabled is eventually taken (00_scope.md R11(b), 70_reset_and_hazards.md R297). -/
def FairRun (ops : Nat → Instr) (σ : Nat → State) : Prop :=
  IsRun ops σ ∧ ∀ i ∈ fairSteps, ∀ n, (∀ m, n ≤ m → enabled i (σ m) = true) → ∃ m, n ≤ m ∧ ops m = i

/-- A finite interleaving: the steps `ops`, taken in order, lead from `s` to `t` (00_scope.md R11(a)); a refused configuration has
none, not even the empty one (00_scope.md R6). -/
def Leads : List Instr → State → State → Prop
  | [], s, t => configProblem s.cfg = none ∧ t = s
  | i :: rest, s, t => ∃ u, Takes i s u ∧ Leads rest u t

/-- No agent has an enabled step. -/
def Quiet (s : State) : Prop := ∀ i, isAgentStep s.cfg.addrBits i = true → enabled i s = false

/-- A finite run: a finite interleaving that ends where no step is enabled (70_reset_and_hazards.md R297). -/
def FiniteRun (ops : List Instr) (s t : State) : Prop := Leads ops s t ∧ Quiet t

/-- The Decoder's, Responder's and handlers' steps (70_reset_and_hazards.md R296). -/
def autonomousSteps : List Instr := [.oeseqStep, .drvShift, .repStep, .respSample, .respServe, .irqW, .irqR]

/-- The block has caught up, as the second sentence of 70_reset_and_hazards.md R296 says it: the pins hold the queued byte, the
sequencer follows `en`, and each detector FIFO is empty or its interrupt disabled, whether or not a suspension keeps its handler from
running. -/
def caughtUp (s : State) : Bool :=
  decide (s.pinsVal = s.outLatch ∧ s.pinsTag = s.outTag) &&
  decide (s.oeseq = if s.en then .driving else .released) &&
  (s.det.wfifo.isEmpty || !s.det.wirqEn) && (s.det.rcount == 0 || !s.det.rirqEn)

/-- A finite run that ends here ends well (70_reset_and_hazards.md R296): a configuration that runs, no fault, no call, nothing in flight, no Decoder, Responder
or handler step enabled, and the block has caught up (log 12). -/
def endsWell (s : State) : Bool :=
  (configProblem s.cfg).isNone && s.faulted.isNone && s.call.isNone && s.inflight.isNone &&
    autonomousSteps.all (fun i => !enabled i s) && caughtUp s

/-- A run that ends here ends badly (70_reset_and_hazards.md R296). -/
def endsBadly (s : State) : Bool := (configProblem s.cfg).isNone && s.faulted.isSome

/-- A run that stops here is incomplete: a call is in progress, and a claim about its result does not apply (70_reset_and_hazards.md
R296). -/
def incomplete (s : State) : Bool := (configProblem s.cfg).isNone && s.call.isSome

/-- The observations of a run that ends here: the history (70_reset_and_hazards.md R296, 00_scope.md R12). -/
def observations (s : State) : List Event := s.history

/-! ## Measures -/

/-- The most CP_STEPs an UPDATE call in step U2 still takes before the one that returns it (43_control_plane.md R215). -/
def finishMeasure (s : State) (u : UpdateCall) : Nat := 2 * u.left + (if s.outq.count = 0 then 1 else 0)

/-! ## Timing premises -/

/-- A kind of timing violation occurs in the history (70_reset_and_hazards.md R299). -/
def violated (s : State) (k : ViolationKind) : Bool := s.history.contains (.timingViolation k)

/-- TP_ACCESS holds: every latch so far was fresh (70_reset_and_hazards.md R290). -/
def tpAccess (s : State) : Bool :=
  s.history.all fun e =>
    match e with
    | .latch _ fresh => fresh
    | .timingViolation _ => true
    | .xfer _ => true
    | .result _ _ => true
    | .fault _ => true

/-- TP_SETTLE holds (70_reset_and_hazards.md R292). -/
def tpSettle (s : State) : Bool := !violated s .unsettledAccess

/-- TP_SUSPEND_BOUNDED holds (70_reset_and_hazards.md R293). -/
def tpSuspendBounded (s : State) : Bool := !violated s .stalled && !violated s .mailboxWhileSuspended

end Sys2Proof.Machine
end

