-- ==== Sys2Proof/Certificates/Slice0/Obligations.lean ====
section
/-! DEFINITION. The statements for the provers. -/

open Sys2Proof Sys2Proof.Machine

/-! ## Encodings -/

/-- R93, R96, R97, R101: an encoded well-formed instruction decodes to itself, whatever bytes follow it, and its length is the
encoding's; a window row's offset decodes to the row. -/
def Obligations.DecodeOfEncodeIsIdentity : Prop :=
  ∀ (addrBits : Nat) (i : Instr), i.wellFormed addrBits = true →
    match encode i with
    | .bytes bs => ∀ rest, decodeOp addrBits (bs ++ rest) = .op i bs.length
    | .window w => decodeWindow w = i

/-- R101, R102: the concatenation of operations' encodings decodes to those operations and the end of the string. -/
def Obligations.ScheduleDecodesToItsOperations : Prop :=
  ∀ (addrBits : Nat) (ops : List Instr), (∀ i ∈ ops, i.wellFormed addrBits = true ∧ encodeBytes i ≠ []) →
    decodeSchedule addrBits (encodeSchedule ops) = ⟨ops, none⟩

/-- R93, R99, R101: an operation that decodes has the length R101 computes, lies within the bytes, has legal operands, and its encoding
is exactly the bytes it was read from, so no reserved operand value decodes. -/
def Obligations.DecodedOperationFitsItsBytes : Prop :=
  ∀ (addrBits : Nat) (bs : List Byte) (i : Instr) (n : Nat), decodeOp addrBits bs = .op i n →
    opLength bs = some n ∧ 1 ≤ n ∧ n ≤ bs.length ∧ i.wellFormed addrBits = true ∧ encode i = .bytes (bs.take n)

/-- R98, R99, R265(b): exactly the unassigned selectors are UNKNOWN_SELECTOR; exactly the reserved operand values and the strings that
end too soon are BAD_OPERAND; and a schedule that contains such an encoding is refused by name and position before any operation of it
runs. The schedule and its offset as fields of the state are the model's choice (log 5). -/
def Obligations.IllegalEncodingsAreRefused : Prop :=
  (∀ (addrBits : Nat) (sel : Byte) (args : List Byte), decodeOp addrBits (sel :: args) = .invalid .unknownSelector ↔
    sel.toNat = 0x00 ∨ (0x05 ≤ sel.toNat ∧ sel.toNat ≤ 0x0F) ∨ (0x13 ≤ sel.toNat ∧ sel.toNat ≤ 0x17) ∨
    (0x1A ≤ sel.toNat ∧ sel.toNat ≤ 0x1F) ∨ (0x23 ≤ sel.toNat ∧ sel.toNat ≤ 0x2F) ∨
    (0x3D ≤ sel.toNat ∧ sel.toNat ≤ 0x3F) ∨ 0x41 ≤ sel.toNat) ∧
  (∀ (addrBits : Nat) (sel : Byte) (args : List Byte), decodeOp addrBits (sel :: args) = .invalid .badOperand ↔
    ∃ n, opLength (sel :: args) = some n ∧
      (args.length + 1 < n ∨ (sel.toNat = 0x03 ∧ 4 ≤ (args.getD 0 0).toNat) ∨
        (sel.toNat = 0x35 ∧ 2 ≤ (args.getD 0 0).toNat) ∨ (sel.toNat = 0x01 ∧ 2 ^ addrBits ≤ leValue (args.take 4)))) ∧
  (∀ (s : State) (ops : List Instr) (bad : List Byte) (e : DecodeError), configProblem s.cfg = none →
    (∀ i ∈ ops, i.wellFormed s.cfg.addrBits = true ∧ encodeBytes i ≠ []) → s.sched = encodeSchedule ops ++ bad →
    decodeOp s.cfg.addrBits bad = .invalid e → step s = .refused (.decode e (s.pos + (encodeSchedule ops).length)))

/-- R93, R96, R97: words written out from the encoding tables decode to the instructions they stand for. -/
def Obligations.WrittenOutWordsDecode : Prop :=
  decodeOp 18 [0x01, 0x01, 0x02, 0x01, 0x00] = .op (.busAddr 0x10201) 5 ∧
  decodeOp 18 [0x03, 0x02] = .op (.busEnable false true) 2 ∧
  decodeOp 18 [0x19] = .op .respServe 1 ∧
  decodeOp 18 [0x21] = .op .irqR 1 ∧
  decodeOp 18 [0x32, 0x0A, 0, 0, 0, 0x02, 0, 0x48, 0x69] = .op (.update 10 [0x48, 0x69]) 9 ∧
  decodeOp 18 [0x35, 0x01] = .op (.persist .config) 2 ∧
  decodeOp 18 [0x39, 0x02, 0x00, 0xDE, 0xAD] = .op (.romWrite [0xDE, 0xAD]) 5 ∧
  decodeOp 18 [0x40] = .op .tick 1 ∧
  decodeWindow 0x141 = .mboxOut 0x41 ∧ decodeWindow 0x00C = .mboxConsume ∧ decodeWindow 0x0FF = .plainRead

/-- R170 to R172: an armed detector classifies a masked address by its window and its offset in it: byte `b` at offset 256 + b, a
consume at offset 12, plain elsewhere. -/
def Obligations.ClassifyByWindowOffset : Prop :=
  ∀ (base a : Word),
    (∀ b : Byte, classify base a = .out b ↔ a.toNat / 512 = base.toNat / 512 ∧ a.toNat % 512 = 256 + b.toNat) ∧
    (classify base a = .consume ↔ a.toNat / 512 = base.toNat / 512 ∧ a.toNat % 512 = 12) ∧
    (classify base a = .plain ↔ a.toNat / 512 ≠ base.toNat / 512 ∨ (a.toNat % 512 < 256 ∧ a.toNat % 512 ≠ 12))

/-! ## The step -/

/-- R106, R102, R6, R265: of a schedule that decodes to its end, a step runs the first operation, in the state that has moved past its
bytes; at the schedule's end it refuses; and it refuses every configuration that the check of R6 fails, which is every one outside
R5's ranges and R6's constraints. The schedule as a field of the state (log 5) and the form of the image (log 2) are the model's
choice. -/
def Obligations.StepRunsDecodedOperation : Prop :=
  (∀ (s : State),
    (∀ (i : Instr) (n : Nat), configProblem s.cfg = none → (decodeSchedule s.cfg.addrBits s.sched).invalid = none →
      s.faulted = none → decodeOp s.cfg.addrBits s.sched = .op i n →
      step s = exec i { s with sched := s.sched.drop n, pos := s.pos + n }) ∧
    (configProblem s.cfg = none → s.faulted = none → s.sched = [] → step s = .refused .scheduleEnd) ∧
    (∀ problem, configProblem s.cfg = some problem → step s = .refused (.configuration problem)) ∧
    (s.cfg.clockCounting = true → step s = .refused (.configuration .clockCountingVariant))) ∧
  (∀ (p : Params), configProblem p = none ↔
    p.clockCounting = false ∧ (9 ≤ p.addrBits ∧ p.addrBits ≤ 32) ∧
    ((∃ k, p.romCap = 2 ^ k) ∧ 512 ≤ p.romCap ∧ p.romCap ≤ 2 ^ 32) ∧
    ((∃ k, p.initialMask.toNat + 1 = 2 ^ k) ∧ p.initialMask.toNat + 1 ≤ p.romCap ∧ p.initialMask.toNat < 2 ^ p.addrBits) ∧
    (Memory.wf p.initialImage = true ∧ ∀ c ∈ p.initialImage, c.1 < p.romCap) ∧
    (1 ≤ p.inqCap ∧ 1 ≤ p.outqCap ∧ 1 ≤ p.chunkSize ∧ 1 ≤ p.detFifoDepth) ∧ 3 ≤ p.smUnits)

/-- R39, R254, R267: after a model fault no agent takes a step. -/
def Obligations.FaultedRunTakesNoStep : Prop :=
  ∀ (s : State) (code : FaultCode), s.faulted = some code →
    (∀ i, exec i s = .fault (.runEnded code)) ∧
    (configProblem s.cfg = none → (decodeSchedule s.cfg.addrBits s.sched).invalid = none →
      step s = .fault (.runEnded code))

/-- R39, R254: a fault is recorded in `faulted` and as the history's last event, and every other next state has none. -/
def Obligations.FaultIsRecorded : Prop :=
  ∀ (i : Instr) (s t : State), exec i s = .next t → ∀ code, t.faulted = some code →
    s.faulted = none ∧ ∃ evs, t.history = s.history ++ evs ++ [.fault code]

/-- R12, R39: the history only grows, and no operation changes the parameters or the schedule. -/
def Obligations.HistoryOnlyGrows : Prop :=
  ∀ (i : Instr) (s t : State), exec i s = .next t →
    (∃ evs, t.history = s.history ++ evs) ∧ t.cfg = s.cfg ∧ t.sched = s.sched ∧ t.pos = s.pos

/-! ## Reset and invariants -/

/-- R45: the reset value of every component, for every configuration and every value of the reset draws. -/
def Obligations.ResetValues : Prop :=
  ∀ (p : Params) (d : ResetDraws),
    let s := State.resetWith p d
    (∀ o, s.romByte o = Memory.read p.initialImage o) ∧ s.addressMask = p.initialMask ∧
    s.bus.addr = d.busAddr ∧ s.bus.prev = s.bus.addr ∧ s.bus.stable = false ∧ s.bus.epoch = 0 ∧
    s.bus.ce = false ∧ s.bus.oe = false ∧ s.acc.isOpen = false ∧ s.acc.seen = none ∧ s.oeseq = .released ∧
    s.outLatch = d.outLatch ∧ s.pinsVal = d.pinsVal ∧ s.outTag = none ∧ s.pinsTag = none ∧
    s.accessFlag = false ∧ s.repSeen = false ∧ s.resp.phase = .s1 ∧ s.resp.s1 = d.respS1 ∧ s.resp.a = d.respA ∧
    s.resp.s1Tag = none ∧ s.resp.aTag = none ∧ s.det.armed = false ∧ s.det.base = 0 ∧ s.det.wfifo = [] ∧
    s.det.rcount = 0 ∧ s.det.wirqEn = false ∧ s.det.rirqEn = false ∧ s.sess.active = false ∧ s.sess.base = none ∧
    s.inq.head = 0 ∧ s.inq.tail = 0 ∧ s.inq.ring = d.inqRing ∧ s.outq.head = 0 ∧ s.outq.tail = 0 ∧
    s.outq.ring = d.outqRing ∧ s.deferred = [] ∧ s.suspended = false ∧ s.romPtr = 0 ∧ s.nowMs = 0 ∧ s.call = none ∧
    s.inflight = none ∧ s.faulted = none ∧ s.history = []

/-- R44, R45: the reset state of every configuration that passes R6 is good. -/
def Obligations.ResetIsGood : Prop :=
  ∀ (p : Params) (d : ResetDraws), configProblem p = none →
    isAddr p.addrBits d.busAddr = true → isAddr p.addrBits d.respS1 = true → isAddr p.addrBits d.respA = true →
    d.inqRing.length = p.inqCap → d.outqRing.length = p.outqCap → Good (State.resetWith p d)

/-- R44: every step that raises no fault keeps the invariants R44(a) to (j), and those of the other state rules. -/
def Obligations.StepKeepsGood : Prop :=
  ∀ (s t : State), Good s → step s = .next t → t.faulted = none → Good t

/-- R21, R63, R66: every step keeps the ROM Buffer canonical and inside its capacity, whatever else the state holds. -/
def Obligations.StepKeepsBuffer : Prop :=
  ∀ (s t : State), BufferOk s → step s = .next t → BufferOk t

/-- R63, R66, R44(b): from a good state no operation leaves the ROM Buffer or uses a session base that is not there. -/
def Obligations.GoodStatesNeverStopOnAFault : Prop :=
  ∀ (i : Instr) (s : State) (f : Fault), Good s → s.faulted = none → exec i s ≠ .fault f

/-! ## The Target's steps -/

/-- R121, R124, R174: BUS_ADDR, its forms: the address already driven; no access open; an access open with no detector loaded; an
access open on a settled address, whose row then runs first; an access open that never settled, whose row the draws give. Where the
row faults, the step ends there. -/
def Obligations.BusAddrMovesTheLines : Prop :=
  ∀ (a : Word) (s : State), s.faulted = none →
    let moved : Bus := { s.bus with prev := s.bus.addr, addr := a, stable := false, epoch := s.bus.epoch + 1 }
    (a = s.bus.addr → exec (.busAddr a) s = .next s) ∧
    (a ≠ s.bus.addr → s.acc.isOpen = false → exec (.busAddr a) s = .next { s with bus := moved }) ∧
    (a ≠ s.bus.addr → s.acc.isOpen = true → s.det.armed = false →
      exec (.busAddr a) s = .next { s with bus := moved, acc := { s.acc with seen := none } }) ∧
    (∀ x : Word, a ≠ s.bus.addr → s.acc.isOpen = true → s.det.armed = true → s.acc.seen = some x →
      ∃ t, exec (classify s.det.base (x &&& s.addressMask)).row s = .next t ∧
        exec (.busAddr a) s =
          .next (if t.faulted = none then { t with bus := moved, acc := { s.acc with seen := none } } else t)) ∧
    (a ≠ s.bus.addr → s.acc.isOpen = true → s.det.armed = true → s.acc.seen = none →
      ∃ t, exec (drawnRow s) (unsettled s) = .next t ∧
        exec (.busAddr a) s =
          .next (if t.faulted = none then { t with bus := moved, acc := { s.acc with seen := none } } else t))

/-- R122: BUS_SETTLE, selector 0x02: settled lines stay as they are; moving lines settle, and an open access that has seen no
address records the settled one. -/
def Obligations.BusSettleSettles : Prop :=
  encode .busSettle = .bytes [0x02] ∧
  ∀ (s : State), s.faulted = none →
    (s.bus.stable = true → exec .busSettle s = .next s) ∧
    (s.bus.stable = false → s.acc.isOpen = true → s.acc.seen = none →
      exec .busSettle s =
        .next { s with bus := { s.bus with stable := true }, acc := { s.acc with seen := some s.bus.addr } }) ∧
    (s.bus.stable = false → (s.acc.isOpen = false ∨ s.acc.seen ≠ none) →
      exec .busSettle s = .next { s with bus := { s.bus with stable := true } })

/-- R123, R124, R174: BUS_ENABLE: the lines change; an access opens; an access closes with no detector loaded; an access closes on a
settled address, or one that never settled, and its row runs in the state with the new enables (and, where it faults, the step ends
there). -/
def Obligations.BusEnableOpensAndCloses : Prop :=
  ∀ (ce oe : Bool) (s : State), s.faulted = none →
    let s1 : State := { s with bus := { s.bus with ce := ce, oe := oe } }
    ((s.bus.ce && s.bus.oe) = (ce && oe) → exec (.busEnable ce oe) s = .next s1) ∧
    ((s.bus.ce && s.bus.oe) = false → (ce && oe) = true →
      exec (.busEnable ce oe) s =
        .next { s1 with acc := { isOpen := true, seen := if s.bus.stable then some s.bus.addr else none } }) ∧
    ((s.bus.ce && s.bus.oe) = true → (ce && oe) = false → s.det.armed = false →
      exec (.busEnable ce oe) s = .next { s1 with acc := { isOpen := false, seen := none } }) ∧
    (∀ x : Word, (s.bus.ce && s.bus.oe) = true → (ce && oe) = false → s.det.armed = true → s.acc.seen = some x →
      ∃ t, exec (classify s.det.base (x &&& s.addressMask)).row s1 = .next t ∧
        exec (.busEnable ce oe) s =
          .next (if t.faulted = none then { t with acc := { isOpen := false, seen := none } } else t)) ∧
    ((s.bus.ce && s.bus.oe) = true → (ce && oe) = false → s.det.armed = true → s.acc.seen = none →
      ∃ t, exec (drawnRow s1) (unsettled s1) = .next t ∧
        exec (.busEnable ce oe) s =
          .next (if t.faulted = none then { t with acc := { isOpen := false, seen := none } } else t))

/-- R126: BUS_LATCH, selector 0x04: fresh, the pins' byte; otherwise a free value with the first premise that fails. -/
def Obligations.BusLatchOutcome : Prop :=
  encode .busLatch = .bytes [0x04] ∧
  ∀ (s : State), s.faulted = none →
    let en := s.bus.ce && s.bus.oe
    let unfresh (kind : ViolationKind) : State :=
      { s with
        history := s.history ++ [.latch (Config.drawByte s.draws) false, .timingViolation kind]
        draws := s.draws + 1 }
    (en = true → s.bus.stable = true → s.oeseq = .driving → s.pinsTag = some s.bus.epoch →
      exec .busLatch s = .next { s with history := s.history ++ [.latch s.pinsVal true] }) ∧
    (en = false → exec .busLatch s = .next (unfresh .notEnabled)) ∧
    (en = true → s.bus.stable = false → exec .busLatch s = .next (unfresh .unsettled)) ∧
    (en = true → s.bus.stable = true → s.oeseq = .released → exec .busLatch s = .next (unfresh .notDriving)) ∧
    (en = true → s.bus.stable = true → s.oeseq = .driving → s.pinsTag ≠ some s.bus.epoch → s.suspended = true →
      exec .busLatch s = .next (unfresh .stalled)) ∧
    (en = true → s.bus.stable = true → s.oeseq = .driving → s.pinsTag ≠ some s.bus.epoch → s.suspended = false →
      exec .busLatch s = .next (unfresh .lateData))

/-! ## The window rows and the capture -/

/-- R171 to R173, R175: the window rows of armed, running detectors with room: MBOX_OUT queues its byte, MBOX_CONSUME counts one
event, PLAIN_READ and every row of unarmed detectors do nothing. -/
def Obligations.WindowRowsRecordEvents : Prop :=
  ∀ (b : Byte) (s : State), s.faulted = none →
    (s.det.armed = true → s.suspended = false → s.det.wfifo.length < s.cfg.detFifoDepth →
      exec (.mboxOut b) s = .next { s with det := { s.det with wfifo := s.det.wfifo ++ [b] } }) ∧
    (s.det.armed = true → s.suspended = false → s.det.rcount < s.cfg.detFifoDepth →
      exec .mboxConsume s = .next { s with det := { s.det with rcount := s.det.rcount + 1 } }) ∧
    exec .plainRead s = .next s ∧
    (s.det.armed = false → exec (.mboxOut b) s = .next s ∧ exec .mboxConsume s = .next s)

/-- R175, R254: a full detector FIFO, not suspended, faults DETECTOR_OVERFLOW where its interrupt is enabled, and drops the event where
not. -/
def Obligations.FullDetectorFifo : Prop :=
  ∀ (b : Byte) (s : State), s.faulted = none → s.det.armed = true → s.suspended = false →
    let overflow : State :=
      { s with faulted := some .detectorOverflow, history := s.history ++ [.fault .detectorOverflow] }
    (s.cfg.detFifoDepth ≤ s.det.wfifo.length →
      exec (.mboxOut b) s = .next (if s.det.wirqEn then overflow else s)) ∧
    (s.cfg.detFifoDepth ≤ s.det.rcount →
      exec .mboxConsume s = .next (if s.det.rirqEn then overflow else s))

/-- R173, R175, R176: an event captured while suspended emits MAILBOX_WHILE_SUSPENDED, and a free value says whether it is lost; one
that is kept is pushed as at any other time: recorded where the FIFO has room, and where it is full a fault DETECTOR_OVERFLOW with the
interrupt enabled and dropped with it disabled. -/
def Obligations.CaptureWhileSuspended : Prop :=
  ∀ (b : Byte) (s : State), s.faulted = none → s.det.armed = true → s.suspended = true →
    let s1 : State :=
      { s with history := s.history ++ [.timingViolation .mailboxWhileSuspended], draws := s.draws + 1 }
    let full (enabled : Bool) : State :=
      if enabled then
        { s1 with faulted := some .detectorOverflow, history := s1.history ++ [.fault .detectorOverflow] }
      else s1
    exec (.mboxOut b) s = .next (
      if Config.drawBool s.draws then s1
      else if s.det.wfifo.length < s.cfg.detFifoDepth then { s1 with det := { s.det with wfifo := s.det.wfifo ++ [b] } }
      else full s.det.wirqEn) ∧
    exec .mboxConsume s = .next (
      if Config.drawBool s.draws then s1
      else if s.det.rcount < s.cfg.detFifoDepth then { s1 with det := { s.det with rcount := s.det.rcount + 1 } }
      else full s.det.rirqEn)

/-- R174: an access that closes with no settled address, while the detectors are armed, emits UNSETTLED_ACCESS, and free values say
which event it leaves: the state and the row of `unsettled` and `drawnRow` are that event, that count of draws and that class; and,
with the responder running and room in the FIFOs, every BUS_ENABLE that closes the access and every BUS_ADDR that moves on from it end
with nothing, an outbound byte of free value, or a consume recorded. -/
def Obligations.MalformedAccessIsDrawn : Prop :=
  ∀ (s : State),
    (let emitted : State := { s with history := s.history ++ [.timingViolation .unsettledAccess] }
     (Config.drawClass s.draws = .plain → drawnRow s = .plainRead ∧ unsettled s = { emitted with draws := s.draws + 1 }) ∧
     (Config.drawClass s.draws = .out →
       drawnRow s = .mboxOut (Config.drawByte (s.draws + 1)) ∧ unsettled s = { emitted with draws := s.draws + 2 }) ∧
     (Config.drawClass s.draws = .consume →
       drawnRow s = .mboxConsume ∧ unsettled s = { emitted with draws := s.draws + 1 })) ∧
    (s.faulted = none → s.det.armed = true → s.acc.seen = none → s.suspended = false →
      s.det.wfifo.length < s.cfg.detFifoDepth → s.det.rcount < s.cfg.detFifoDepth →
      let recorded (s1 : State) : State :=
        match Config.drawClass s.draws with
        | .plain => { s1 with draws := s.draws + 1 }
        | .out =>
          { s1 with
            draws := s.draws + 2
            det := { s.det with wfifo := s.det.wfifo ++ [Config.drawByte (s.draws + 1)] } }
        | .consume => { s1 with draws := s.draws + 1, det := { s.det with rcount := s.det.rcount + 1 } }
      (∀ ce oe, (s.bus.ce && s.bus.oe) = true → (ce && oe) = false →
        exec (.busEnable ce oe) s = .next (recorded { s with
          bus := { s.bus with ce := ce, oe := oe }
          acc := { isOpen := false, seen := none }
          history := s.history ++ [.timingViolation .unsettledAccess] })) ∧
      (∀ a, a ≠ s.bus.addr → s.acc.isOpen = true →
        exec (.busAddr a) s = .next (recorded { s with
          bus := { s.bus with prev := s.bus.addr, addr := a, stable := false, epoch := s.bus.epoch + 1 }
          history := s.history ++ [.timingViolation .unsettledAccess] })))

/-! ## The Decoder -/

/-- R130: OESEQ_STEP, selector 0x10: the sequencer follows the enable condition, and holds where it already does. -/
def Obligations.OeseqFollowsEnable : Prop :=
  encode .oeseqStep = .bytes [0x10] ∧
  ∀ (s : State), s.faulted = none →
    ((s.bus.ce && s.bus.oe) = true → s.oeseq = .released → exec .oeseqStep s = .next { s with oeseq := .driving }) ∧
    ((s.bus.ce && s.bus.oe) = false → s.oeseq = .driving → exec .oeseqStep s = .next { s with oeseq := .released }) ∧
    ((s.bus.ce && s.bus.oe) = true → s.oeseq = .driving → exec .oeseqStep s = .refused .infeasible) ∧
    ((s.bus.ce && s.bus.oe) = false → s.oeseq = .released → exec .oeseqStep s = .refused .infeasible)

/-- R132: DRV_SHIFT, selector 0x11: the queued byte and its tag reach the pins; it holds where they are already there. -/
def Obligations.DrvShiftMovesTheQueuedByte : Prop :=
  encode .drvShift = .bytes [0x11] ∧
  ∀ (s : State), s.faulted = none →
    ((s.pinsVal, s.pinsTag) ≠ (s.outLatch, s.outTag) →
      exec .drvShift s = .next { s with pinsVal := s.outLatch, pinsTag := s.outTag }) ∧
    ((s.pinsVal, s.pinsTag) = (s.outLatch, s.outTag) → exec .drvShift s = .refused .infeasible)

/-- R135: REP_STEP, selector 0x12: one report for each assertion it sees, re-armed when it sees the deassertion. -/
def Obligations.RepStepReportsOnce : Prop :=
  encode .repStep = .bytes [0x12] ∧
  ∀ (s : State), s.faulted = none →
    ((s.bus.ce && s.bus.oe) = true → s.repSeen = false →
      exec .repStep s = .next { s with accessFlag := true, repSeen := true }) ∧
    ((s.bus.ce && s.bus.oe) = false → s.repSeen = true → exec .repStep s = .next { s with repSeen := false }) ∧
    ((s.bus.ce && s.bus.oe) = s.repSeen → exec .repStep s = .refused .infeasible)

/-- R131, R133, R134: only OESEQ_STEP changes who owns the data lines and the buffer's enable, only DRV_SHIFT what the pins carry, so
the data lines change at no other operation; BUF_EN is a port exactly where a buffer is fitted, asserted exactly while the sequencer
drives, as the data lines are. -/
def Obligations.DataLinesChangeOnlyAtDecoderSteps : Prop :=
  (∀ (i : Instr) (s t : State), exec i s = .next t →
    (t.oeseq ≠ s.oeseq → i = .oeseqStep) ∧
    (t.pinsVal ≠ s.pinsVal ∨ t.pinsTag ≠ s.pinsTag → i = .drvShift) ∧
    (dataLines t ≠ dataLines s → i = .oeseqStep ∨ (i = .drvShift ∧ s.oeseq = .driving)) ∧
    (bufEn t ≠ bufEn s → i = .oeseqStep)) ∧
  (∀ (s : State),
    (s.cfg.bufPresent = false → bufEn s = none) ∧
    (s.cfg.bufPresent = true → (bufEn s = some true ↔ s.oeseq = .driving) ∧ (bufEn s = some false ↔ s.oeseq = .released)) ∧
    (s.oeseq = .driving ↔ dataLines s = .driven s.pinsVal) ∧ (s.oeseq = .released ↔ dataLines s = .highZ))

/-- R120, R138: what a Decoder step does depends on the bus wires and the Decoder's registers alone. -/
def Obligations.DecoderIgnoresTheRestOfTheState : Prop :=
  ∀ (i : Instr) (s u t : State), (i = .oeseqStep ∨ i = .drvShift ∨ i = .repStep) →
    s.faulted = none → u.faulted = none → u.bus = s.bus → u.oeseq = s.oeseq → u.outLatch = s.outLatch →
    u.outTag = s.outTag → u.pinsVal = s.pinsVal → u.pinsTag = s.pinsTag → u.repSeen = s.repSeen →
    u.accessFlag = s.accessFlag → exec i s = .next t →
    exec i u = .next { u with
      oeseq := t.oeseq, pinsVal := t.pinsVal, pinsTag := t.pinsTag, accessFlag := t.accessFlag, repSeen := t.repSeen }

/-! ## The Responder -/

/-- R151 to R153, R155: RESP_SAMPLE on settled lines takes the true address of the epoch: accepted at once in `Single` mode; in
`Double` mode the first sample, then accepted where the pair agrees, the first of a new pair where not. -/
def Obligations.SampleOfSettledLines : Prop :=
  ∀ (s : State), s.faulted = none → s.suspended = false → s.bus.stable = true →
    let accepted : State :=
      { s with resp := { s.resp with a := s.bus.addr, aTag := some s.bus.epoch, phase := .serve } }
    let first : State := { s with resp := { s.resp with s1 := s.bus.addr, s1Tag := some s.bus.epoch, phase := .s2 } }
    (s.cfg.sampleMode = .single → s.resp.phase = .s1 → exec .respSample s = .next accepted) ∧
    (s.cfg.sampleMode = .double → s.resp.phase = .s1 → exec .respSample s = .next first) ∧
    (s.cfg.sampleMode = .double → s.resp.phase = .s2 → s.resp.s1 = s.bus.addr → exec .respSample s = .next accepted) ∧
    (s.cfg.sampleMode = .double → s.resp.phase = .s2 → s.resp.s1 ≠ s.bus.addr → exec .respSample s = .next first)

/-- R151 to R153, R155: RESP_SAMPLE while the lines move takes a value whose every bit is the old or the new address's, by a free
value, and carries no tag; the hardware then compares values only. -/
def Obligations.SampleOfMovingLines : Prop :=
  ∀ (s : State), s.faulted = none → s.suspended = false → s.bus.stable = false →
    ∃ v : Word,
      (∀ k, v.getLsbD k = if (Config.drawMask s.draws).getLsbD k then s.bus.addr.getLsbD k else s.bus.prev.getLsbD k) ∧
      (isAddr s.cfg.addrBits s.bus.addr = true → isAddr s.cfg.addrBits s.bus.prev = true →
        isAddr s.cfg.addrBits v = true) ∧
      (let accepted : State :=
        { s with resp := { s.resp with a := v, aTag := none, phase := .serve }, draws := s.draws + 1 }
       let first : State := { s with resp := { s.resp with s1 := v, s1Tag := none, phase := .s2 }, draws := s.draws + 1 }
       (s.cfg.sampleMode = .single → s.resp.phase = .s1 → exec .respSample s = .next accepted) ∧
       (s.cfg.sampleMode = .double → s.resp.phase = .s1 → exec .respSample s = .next first) ∧
       (s.cfg.sampleMode = .double → s.resp.phase = .s2 →
         exec .respSample s = .next (if v = s.resp.s1 then accepted else first)))

/-- R154: RESP_SERVE forwards the buffer's byte at the masked address, or a free value where the offset is in flight, with the
accepted tag either way. -/
def Obligations.RespServeForwardsTheByte : Prop :=
  ∀ (s : State), s.faulted = none → s.suspended = false → s.resp.phase = .serve →
    (s.resp.a &&& s.addressMask).toNat < s.cfg.romCap →
    ((∀ lo hi, s.inflight = some (lo, hi) →
        ¬ (lo ≤ (s.resp.a &&& s.addressMask).toNat ∧ (s.resp.a &&& s.addressMask).toNat < hi)) →
      exec .respServe s = .next { s with
        outLatch := s.romByte (s.resp.a &&& s.addressMask).toNat
        outTag := s.resp.aTag
        resp := { s.resp with phase := .s1 } }) ∧
    (∀ lo hi, s.inflight = some (lo, hi) → lo ≤ (s.resp.a &&& s.addressMask).toNat →
      (s.resp.a &&& s.addressMask).toNat < hi →
      exec .respServe s = .next { s with
        outLatch := Config.drawByte s.draws
        outTag := s.resp.aTag
        resp := { s.resp with phase := .s1 }
        draws := s.draws + 1 })

/-- R158: the Responder writes only its registers and the output latch, and what it writes depends only on the bus wires, the mask,
the buffer, the range in flight, its own registers and the draws. -/
def Obligations.ResponderIsIsolated : Prop :=
  ∀ (i : Instr) (s u t : State), (i = .respSample ∨ i = .respServe) → exec i s = .next t →
    u.cfg = s.cfg → u.faulted = none → u.suspended = s.suspended → u.bus = s.bus → u.addressMask = s.addressMask →
    u.rom = s.rom → u.inflight = s.inflight → u.resp = s.resp → u.outLatch = s.outLatch → u.outTag = s.outTag →
    u.draws = s.draws →
    exec i u = .next { u with resp := t.resp, outLatch := t.outLatch, outTag := t.outTag, draws := t.draws }

/-- R104, R156, R157: from settled, enabled, driven lines, with the responder running and at S1 and the offset not in flight,
SERVE_NOW followed by BUS_LATCH gives the target the buffer's byte at the masked address, fresh, in either sampling mode. -/
def Obligations.ServedReadIsFresh : Prop :=
  ∀ (s : State), s.faulted = none → s.suspended = false → s.resp.phase = .s1 → s.bus.stable = true →
    s.bus.ce = true → s.bus.oe = true → s.oeseq = .driving → (s.bus.addr &&& s.addressMask).toNat < s.cfg.romCap →
    (∀ lo hi, s.inflight = some (lo, hi) →
      ¬ (lo ≤ (s.bus.addr &&& s.addressMask).toNat ∧ (s.bus.addr &&& s.addressMask).toNat < hi)) →
    ∃ ops t, expandServeNow s = some ops ∧ replay (ops ++ [.busLatch]) s = .next t ∧
      t.history = s.history ++ [.latch (s.romByte (s.bus.addr &&& s.addressMask).toNat) true] ∧
      t.rom = s.rom ∧ t.bus = s.bus ∧ t.det = s.det ∧ t.resp.phase = .s1

/-! ## The interrupt handlers -/

/-- R180, R82: IRQ_W with room and nothing deferred: the byte enters the Outbound Queue, the outbound sequence rises by one modulo
2^32, and every byte of the buffer outside that field stays. -/
def Obligations.IrqWAcceptsTheByte : Prop :=
  ∀ (s : State) (base : Word) (b : Byte) (rest : List Byte), s.faulted = none → Memory.wf s.rom = true →
    s.det.wirqEn = true → s.det.wfifo = b :: rest → s.suspended = false → s.deferred = [] →
    s.outq.head - s.outq.tail < s.cfg.outqCap → s.sess.base = some base → base.toNat + 24 ≤ s.cfg.romCap →
    ∃ t, exec .irqW s = .next t ∧
      t = { s with
        det := { s.det with wfifo := rest }
        outq := { s.outq with ring := s.outq.ring.set (s.outq.head % s.cfg.outqCap) b, head := s.outq.head + 1 }
        rom := t.rom } ∧
      t.field base 20 = s.field base 20 + 1 ∧
      ∀ o, o < base.toNat + 20 ∨ base.toNat + 24 ≤ o → t.romByte o = s.romByte o

/-- R180: IRQ_W with the queue full or bytes already deferred: the byte is deferred, and nothing is acknowledged. -/
def Obligations.IrqWDefersTheByte : Prop :=
  ∀ (s : State) (b : Byte) (rest : List Byte), s.faulted = none → s.det.wirqEn = true → s.det.wfifo = b :: rest →
    s.suspended = false → (s.deferred ≠ [] ∨ s.cfg.outqCap ≤ s.outq.head - s.outq.tail) →
    exec .irqW s = .next { s with det := { s.det with wfifo := rest }, deferred := s.deferred ++ [b] }

/-- R181: IRQ_R: a consume with nothing queued; the last byte, which clears `pending` alone; a byte with another behind it, which
becomes the inbound byte and raises the inbound sequence. -/
def Obligations.IrqRRetiresTheByte : Prop :=
  ∀ (s : State) (base : Word), s.faulted = none → Memory.wf s.rom = true → s.det.rirqEn = true → 0 < s.det.rcount →
    s.suspended = false → s.sess.base = some base → base.toNat + 24 ≤ s.cfg.romCap →
    (s.inq.head = s.inq.tail → exec .irqR s = .next { s with det := { s.det with rcount := s.det.rcount - 1 } }) ∧
    (s.inq.head = s.inq.tail + 1 → ∃ t, exec .irqR s = .next t ∧
      t = { s with
        det := { s.det with rcount := s.det.rcount - 1 }
        inq := { s.inq with tail := s.inq.tail + 1 }
        rom := t.rom } ∧
      t.field base 8 = 0 ∧ ∀ o, o < base.toNat + 8 ∨ base.toNat + 12 ≤ o → t.romByte o = s.romByte o) ∧
    (s.inq.tail + 1 < s.inq.head → ∃ t, exec .irqR s = .next t ∧
      t = { s with
        det := { s.det with rcount := s.det.rcount - 1 }
        inq := { s.inq with tail := s.inq.tail + 1 }
        rom := t.rom } ∧
      t.field base 12 = (s.inq.ring.getD ((s.inq.tail + 1) % s.cfg.inqCap) 0).zeroExtend 32 ∧
      t.field base 16 = s.field base 16 + 1 ∧
      ∀ o, o < base.toNat + 12 ∨ base.toNat + 20 ≤ o → t.romByte o = s.romByte o)

/-- R251, R252, R150, R151, R154, R200: where the steps of the control plane and the Responder hold: a handler exactly where its
interrupt is not pending or the responder is suspended; RESP_SAMPLE exactly while suspended, at SERVE, or at `Single` mode's S2
(SERVE in `Double` mode and `Single` mode's S2 are the model's inference, log 15); RESP_SERVE exactly while suspended or away from
SERVE; CP_STEP with no call. -/
def Obligations.StepsHoldUnlessEnabled : Prop :=
  ∀ (s : State), s.faulted = none →
    (exec .irqW s = .refused .infeasible ↔ ¬ (s.det.wirqEn = true ∧ s.det.wfifo ≠ [] ∧ s.suspended = false)) ∧
    (exec .irqR s = .refused .infeasible ↔ ¬ (s.det.rirqEn = true ∧ 0 < s.det.rcount ∧ s.suspended = false)) ∧
    (exec .respSample s = .refused .infeasible ↔
      s.suspended = true ∨ s.resp.phase = .serve ∨ (s.cfg.sampleMode = .single ∧ s.resp.phase = .s2)) ∧
    (exec .respServe s = .refused .infeasible ↔ s.suspended = true ∨ s.resp.phase ≠ .serve) ∧
    (s.call = none → exec .cpStep s = .refused .infeasible)

/-! ## Calls -/

/-- R200, R224: each Host operation (BEGIN_SESSION, END_SESSION, UPDATE, SUSPEND, RESUME, PERSIST, SET_MASK, ROM_SETPTR, ROM_GETPTR,
ROM_WRITE, ROM_READ, ACCFLAG_READ, ACCFLAG_CLEAR) records its call where no call is in progress, and while suspended only if it is
one of SUSPEND, RESUME, PERSIST, SET_MASK; otherwise it holds, or faults CALL_WHILE_SUSPENDED. The 0 in the base field of BEGIN_SESSION's
record, before step B1 writes it, is the model's choice (log 9). -/
def Obligations.HostOperationsIssueTheirCalls : Prop :=
  ∀ (i : Instr) (c : Call) (s : State), hostCall i = some c → s.faulted = none →
    (s.call ≠ none → exec i s = .refused .infeasible) ∧
    (s.call = none → s.suspended = false → exec i s = .next { s with call := some c }) ∧
    (s.call = none → s.suspended = true →
      (i = .suspend ∨ i = .resume ∨ (∃ r, i = .persist r) ∨ (∃ m, i = .setMask m)) →
      exec i s = .next { s with call := some c }) ∧
    (s.call = none → s.suspended = true →
      ¬ (i = .suspend ∨ i = .resume ∨ (∃ r, i = .persist r) ∨ (∃ m, i = .setMask m)) →
      exec i s = .next { s with
        faulted := some .callWhileSuspended, history := s.history ++ [.fault .callWhileSuspended] })

/-- R201, R95(b): CP_STEP on BEGIN_SESSION, step B1: the base is the masked address rounded down, its window is in flight; an active
session is first torn down, which writes its `active` field and nothing else of the buffer. -/
def Obligations.BeginStepB1 : Prop :=
  ∀ (s : State) (a b0 : Word), s.faulted = none → s.call = some (.begin a b0 .b1) → 5 ≤ s.cfg.smUnits →
    0x1FF ≤ s.addressMask.toNat →
    let base := a &&& s.addressMask &&& 0xFFFFFE00#32
    let opened (s : State) : State :=
      { s with call := some (.begin a base .b2), inflight := some (base.toNat, base.toNat + 512) }
    (s.sess.active = false → exec .cpStep s = .next (opened s)) ∧
    (∀ old : Word, s.sess.active = true → s.sess.base = some old → old.toNat + 8 ≤ s.cfg.romCap →
      Memory.wf s.rom = true → ∃ t, exec .cpStep s = .next t ∧
        t = opened { s with
          det := { s.det with wirqEn := false, rirqEn := false }
          sess := { active := false, base := none }
          inq := { s.inq with head := 0, tail := 0 }
          outq := { s.outq with head := 0, tail := 0 }
          deferred := []
          rom := t.rom } ∧
        t.field old 4 = 0 ∧ ∀ o, o < old.toNat + 4 ∨ old.toNat + 8 ≤ o → t.romByte o = s.romByte o)

/-- R95(b), R201, R204: the base of a session is a multiple of 512 whose window lies under the mask, for every argument and every
legal mask that can hold a window. -/
def Obligations.WindowBaseIsPlaced : Prop :=
  ∀ (p : Params) (a mask : Word), maskLegal p mask = true → 0x1FF ≤ mask.toNat →
    (windowBase a mask).toNat % 512 = 0 ∧ (windowBase a mask).toNat + 511 ≤ mask.toNat ∧
    (windowBase a mask).toNat + 512 ≤ p.romCap ∧
    (a.toNat ≤ mask.toNat → (windowBase a mask).toNat = a.toNat / 512 * 512)

/-- R70, R71, R202: CP_STEP on BEGIN_SESSION, step B2: the window holds the magic, `active` = 1 and zeros, the buffer outside it is
unchanged, the detectors are armed and emptied, the queues cleared, the session open, the interrupts enabled. -/
def Obligations.BeginStepB2 : Prop :=
  ∀ (s : State) (a base : Word), s.faulted = none → s.call = some (.begin a base .b2) → Memory.wf s.rom = true →
    base.toNat + 512 ≤ s.cfg.romCap →
    ∃ t, exec .cpStep s = .next t ∧
      t = { s with
        rom := t.rom
        det := { armed := true, base := base, wfifo := [], rcount := 0, wirqEn := true, rirqEn := true }
        sess := { active := true, base := some base }
        inq := { s.inq with head := 0, tail := 0 }
        outq := { s.outq with head := 0, tail := 0 }
        deferred := []
        inflight := none
        call := none
        history := s.history ++ [.result .begin .ok] } ∧
      t.romByte base.toNat = 0x50 ∧ t.romByte (base.toNat + 1) = 0x49 ∧ t.romByte (base.toNat + 2) = 0x43 ∧
      t.romByte (base.toNat + 3) = 0x4F ∧ t.field base 4 = 1 ∧
      (∀ o, base.toNat + 8 ≤ o → o < base.toNat + 512 → t.romByte o = 0) ∧
      (∀ o, o < base.toNat ∨ base.toNat + 512 ≤ o → t.romByte o = s.romByte o)

/-- R206: CP_STEP on END_SESSION: with no session a no-op that returns Ok; with one, the interrupts go off, `active` is cleared and
nothing else of the buffer changes, and the queued and deferred bytes are discarded. -/
def Obligations.EndSessionCloses : Prop :=
  ∀ (s : State), s.faulted = none → s.call = some .endSession →
    (s.sess.active = false →
      exec .cpStep s = .next { s with call := none, history := s.history ++ [.result .endSession .ok] }) ∧
    (∀ base : Word, s.sess.active = true → s.sess.base = some base → base.toNat + 8 ≤ s.cfg.romCap →
      Memory.wf s.rom = true → ∃ t, exec .cpStep s = .next t ∧
        t = { s with
          det := { s.det with wirqEn := false, rirqEn := false }
          sess := { active := false, base := none }
          inq := { s.inq with head := 0, tail := 0 }
          outq := { s.outq with head := 0, tail := 0 }
          deferred := []
          rom := t.rom
          call := none
          history := s.history ++ [.result .endSession .ok] } ∧
        t.field base 4 = 0 ∧ ∀ o, o < base.toNat + 4 ∨ base.toNat + 8 ≤ o → t.romByte o = s.romByte o)

/-- R216 to R219: CP_STEP on SUSPEND, RESUME, PERSIST and SET_MASK where they are legal. -/
def Obligations.SuspensionCallsComplete : Prop :=
  ∀ (s : State), s.faulted = none →
    (s.call = some .suspend → s.suspended = false →
      exec .cpStep s =
        .next { s with suspended := true, call := none, history := s.history ++ [.result .suspend .ok] }) ∧
    (s.call = some .resume → s.suspended = true →
      exec .cpStep s = .next { s with
        suspended := false, resp := { s.resp with phase := .s1 }, call := none
        history := s.history ++ [.result .resume .ok] }) ∧
    (∀ r, s.call = some (.persist r) → s.suspended = true →
      exec .cpStep s = .next { s with call := none, history := s.history ++ [.result .persist .ok] }) ∧
    (∀ m : Word, s.call = some (.setMask m) → s.suspended = true → s.sess.active = false →
      (∃ k, m.toNat + 1 = 2 ^ k) → m.toNat + 1 ≤ s.cfg.romCap → m.toNat < 2 ^ s.cfg.addrBits →
      exec .cpStep s =
        .next { s with addressMask := m, call := none, history := s.history ++ [.result .setMask .ok] })

/-- R136, R137, R220, R221, R223: CP_STEP on ROM_SETPTR, ROM_GETPTR, ROM_READ, ACCFLAG_READ and ACCFLAG_CLEAR. -/
def Obligations.PointerAndFlagCallsComplete : Prop :=
  ∀ (s : State), s.faulted = none →
    (∀ p : Word, s.call = some (.setPtr p) →
      exec .cpStep s = .next { s with romPtr := p, call := none, history := s.history ++ [.result .setPtr .ok] }) ∧
    (s.call = some .getPtr →
      exec .cpStep s =
        .next { s with call := none, history := s.history ++ [.result .getPtr (.pointer s.romPtr)] }) ∧
    (∀ n : Half, s.call = some (.romRead n) → s.romPtr.toNat + n.toNat ≤ s.cfg.romCap →
      ∃ bytes : List Byte, bytes.length = n.toNat ∧
        (∀ k, k < n.toNat → bytes.getD k 0 = s.romByte (s.romPtr.toNat + k)) ∧
        exec .cpStep s = .next { s with
          romPtr := BitVec.ofNat 32 (s.romPtr.toNat + n.toNat), call := none
          history := s.history ++ [.result .romRead (.bytes bytes)] }) ∧
    (s.call = some .accRead →
      exec .cpStep s = .next { s with
        call := none, history := s.history ++ [.result .accRead (.flag (if s.accessFlag then 1 else 0))] }) ∧
    (s.call = some .accClear →
      exec .cpStep s =
        .next { s with accessFlag := false, call := none, history := s.history ++ [.result .accClear .ok] })

/-- R222: ROM_WRITE: step W1 writes nothing and marks the range in flight (an empty write returns at once); step W2 writes exactly
the bytes of the range and moves the pointer past them, modulo 2^32. -/
def Obligations.RomWriteWritesItsRange : Prop :=
  ∀ (s : State) (data : List Byte), s.faulted = none → s.romPtr.toNat + data.length ≤ s.cfg.romCap →
    (s.call = some (.romWrite data .w1) → data = [] →
      exec .cpStep s = .next { s with call := none, history := s.history ++ [.result .romWrite .ok] }) ∧
    (s.call = some (.romWrite data .w1) → data ≠ [] →
      (s.sess.active = false ∨ ∃ base : Word, s.sess.base = some base ∧
        (base.toNat + 512 ≤ s.romPtr.toNat ∨ s.romPtr.toNat + data.length ≤ base.toNat)) →
      exec .cpStep s = .next { s with
        inflight := some (s.romPtr.toNat, s.romPtr.toNat + data.length), call := some (.romWrite data .w2) }) ∧
    (s.call = some (.romWrite data .w2) → Memory.wf s.rom = true → ∃ t, exec .cpStep s = .next t ∧
      t = { s with
        rom := t.rom
        romPtr := BitVec.ofNat 32 (s.romPtr.toNat + data.length)
        inflight := none
        call := none
        history := s.history ++ [.result .romWrite .ok] } ∧
      (∀ k, k < data.length → t.romByte (s.romPtr.toNat + k) = data.getD k 0) ∧
      ∀ o, o < s.romPtr.toNat ∨ s.romPtr.toNat + data.length ≤ o → t.romByte o = s.romByte o)

/-- R201, R216 to R219, R222, R223, R254: the faults of the calls, F2 to F9, F11 and F12, each with the state it freezes. -/
def Obligations.CallFaults : Prop :=
  ∀ (s : State), s.faulted = none →
    let raised (code : FaultCode) : StepResult :=
      .next { s with faulted := some code, history := s.history ++ [.fault code] }
    (∀ a b0, s.call = some (.begin a b0 .b1) → s.cfg.smUnits < 5 → exec .cpStep s = raised .sessionUnits) ∧
    (∀ a b0, s.call = some (.begin a b0 .b1) → 5 ≤ s.cfg.smUnits → s.addressMask.toNat < 0x1FF →
      exec .cpStep s = raised .sessionMaskTooSmall) ∧
    (s.call = some .suspend → s.suspended = true → exec .cpStep s = raised .suspendNested) ∧
    (s.call = some .resume → s.suspended = false → exec .cpStep s = raised .resumeNotSuspended) ∧
    (∀ r, s.call = some (.persist r) → s.suspended = false → exec .cpStep s = raised .persistNotSuspended) ∧
    (∀ m, s.call = some (.setMask m) → s.suspended = false → exec .cpStep s = raised .maskNotSuspended) ∧
    (∀ m, s.call = some (.setMask m) → s.suspended = true → s.sess.active = true →
      exec .cpStep s = raised .maskSessionActive) ∧
    (∀ m : Word, s.call = some (.setMask m) → s.suspended = true → s.sess.active = false →
      ((∀ k, m.toNat + 1 ≠ 2 ^ k) ∨ s.cfg.romCap < m.toNat + 1 ∨ 2 ^ s.cfg.addrBits ≤ m.toNat) →
      exec .cpStep s = raised .maskInvalid) ∧
    (∀ data, s.call = some (.romWrite data .w1) → s.cfg.romCap < s.romPtr.toNat + data.length →
      exec .cpStep s = raised .romOutOfRange) ∧
    (∀ n : Half, s.call = some (.romRead n) → s.cfg.romCap < s.romPtr.toNat + n.toNat →
      exec .cpStep s = raised .romOutOfRange) ∧
    (∀ (data : List Byte) (base : Word), s.call = some (.romWrite data .w1) →
      s.romPtr.toNat + data.length ≤ s.cfg.romCap → s.sess.active = true → s.sess.base = some base → data ≠ [] →
      s.romPtr.toNat < base.toNat + 512 → base.toNat < s.romPtr.toNat + data.length →
      exec .cpStep s = raised .mailboxOverlapWrite)

/-! ## UPDATE -/

/-- R208, R211: UPDATE, step U0, and the end of its byte loop. -/
def Obligations.UpdateStartsAndLeavesItsLoop : Prop :=
  ∀ (s : State) (u : UpdateCall), s.faulted = none → s.call = some (.update u) →
    (u.phase = .u0 → s.sess.active = false →
      exec .cpStep s = .next { s with call := none, history := s.history ++ [.result .update .ok] }) ∧
    (u.phase = .u0 → s.sess.active = true →
      exec .cpStep s = .next { s with call := some (.update { u with t0 := s.nowMs, phase := .u1 }) }) ∧
    (u.phase = .u1 → u.i = u.data.length →
      exec .cpStep s = .next { s with call := some (.update { u with
        left := (s.outq.head - s.outq.tail) + s.deferred.length, phase := .u2 }) })

/-- R209, R211, R82: UPDATE, step U1 with room: the next byte is queued, `pending` is 1, and only a byte that enters an empty queue
is offered: it becomes the inbound byte and raises the inbound sequence. -/
def Obligations.UpdatePublishesAByte : Prop :=
  ∀ (s : State) (u : UpdateCall) (b : Byte) (base : Word), s.faulted = none → s.call = some (.update u) →
    u.phase = .u1 → u.data[u.i]? = some b → s.inq.tail ≤ s.inq.head → s.inq.head < s.inq.tail + s.cfg.inqCap →
    s.sess.base = some base → base.toNat + 24 ≤ s.cfg.romCap → Memory.wf s.rom = true →
    ∃ t, exec .cpStep s = .next t ∧
      t = { s with
        rom := t.rom
        inq := { s.inq with ring := s.inq.ring.set (s.inq.head % s.cfg.inqCap) b, head := s.inq.head + 1 }
        call := some (.update { u with i := u.i + 1 }) } ∧
      t.field base 8 = 1 ∧
      (s.inq.head = s.inq.tail → t.field base 12 = b.zeroExtend 32 ∧ t.field base 16 = s.field base 16 + 1 ∧
        ∀ o, o < base.toNat + 8 ∨ base.toNat + 20 ≤ o → t.romByte o = s.romByte o) ∧
      (s.inq.tail < s.inq.head → ∀ o, o < base.toNat + 8 ∨ base.toNat + 12 ≤ o → t.romByte o = s.romByte o)

/-- R211 to R214: UPDATE, step U1 with the Inbound Queue full: past the deadline it forwards its chunk and returns Timeout with what
it accepted; before it, it drains a waiting outbound byte, then makes a deferred acknowledgment visible, and else holds. -/
def Obligations.UpdateWaitsWhileFull : Prop :=
  ∀ (s : State) (u : UpdateCall) (b : Byte), s.faulted = none → s.call = some (.update u) → u.phase = .u1 →
    u.data[u.i]? = some b → s.cfg.inqCap ≤ s.inq.head - s.inq.tail →
    let front := s.outq.ring.getD (s.outq.tail % s.cfg.outqCap) 0
    (u.timeout.toNat ≤ s.nowMs - u.t0 →
      exec .cpStep s = .next { s with
        call := none
        history := s.history ++ (if u.chunk = [] then [] else [.xfer u.chunk]) ++ [.result .update (.timeout u.i)] }) ∧
    (s.nowMs - u.t0 < u.timeout.toNat → s.outq.tail < s.outq.head →
      exec .cpStep s = .next (if (u.chunk ++ [front]).length = s.cfg.chunkSize then
          { s with
            outq := { s.outq with tail := s.outq.tail + 1 }
            history := s.history ++ [.xfer (u.chunk ++ [front])]
            call := some (.update { u with chunk := [] }) }
        else
          { s with
            outq := { s.outq with tail := s.outq.tail + 1 }
            call := some (.update { u with chunk := u.chunk ++ [front] }) })) ∧
    (∀ (d : Byte) (rest : List Byte) (base : Word), s.nowMs - u.t0 < u.timeout.toNat → s.outq.head = s.outq.tail →
      s.deferred = d :: rest → s.sess.base = some base → base.toNat + 24 ≤ s.cfg.romCap → Memory.wf s.rom = true →
      ∃ t, exec .cpStep s = .next t ∧
        t = { s with
          rom := t.rom
          deferred := rest
          outq := { s.outq with ring := s.outq.ring.set (s.outq.head % s.cfg.outqCap) d, head := s.outq.head + 1 } } ∧
        t.field base 20 = s.field base 20 + 1 ∧
        ∀ o, o < base.toNat + 20 ∨ base.toNat + 24 ≤ o → t.romByte o = s.romByte o) ∧
    (s.nowMs - u.t0 < u.timeout.toNat → s.outq.head ≤ s.outq.tail → s.deferred = [] →
      exec .cpStep s = .refused .infeasible)

/-- R209, R210, R214, R215: UPDATE, step U2: with something left and a byte queued it drains one; with something left, none queued and
bytes deferred it replays the oldest; with nothing left, or nothing waiting, it forwards the remainder and returns Ok. -/
def Obligations.UpdateFinishSteps : Prop :=
  ∀ (s : State) (u : UpdateCall), s.faulted = none → s.call = some (.update u) → u.phase = .u2 →
    let front := s.outq.ring.getD (s.outq.tail % s.cfg.outqCap) 0
    (0 < u.left → s.outq.tail < s.outq.head →
      exec .cpStep s = .next (if (u.chunk ++ [front]).length = s.cfg.chunkSize then
          { s with
            outq := { s.outq with tail := s.outq.tail + 1 }
            history := s.history ++ [.xfer (u.chunk ++ [front])]
            call := some (.update { u with chunk := [], left := u.left - 1 }) }
        else
          { s with
            outq := { s.outq with tail := s.outq.tail + 1 }
            call := some (.update { u with chunk := u.chunk ++ [front], left := u.left - 1 }) })) ∧
    (∀ (d : Byte) (rest : List Byte) (base : Word), 0 < u.left → s.outq.head = s.outq.tail → s.deferred = d :: rest →
      s.sess.base = some base → base.toNat + 24 ≤ s.cfg.romCap → Memory.wf s.rom = true →
      ∃ t, exec .cpStep s = .next t ∧
        t = { s with
          rom := t.rom
          deferred := rest
          outq := { s.outq with ring := s.outq.ring.set (s.outq.head % s.cfg.outqCap) d, head := s.outq.head + 1 } } ∧
        t.field base 20 = s.field base 20 + 1 ∧
        ∀ o, o < base.toNat + 20 ∨ base.toNat + 24 ≤ o → t.romByte o = s.romByte o) ∧
    (u.left = 0 ∨ (s.outq.head = s.outq.tail ∧ s.deferred = []) →
      exec .cpStep s = .next { s with
        call := none
        history := s.history ++ (if u.chunk = [] then [] else [.xfer u.chunk]) ++ [.result .update .ok] })

/-- R215: the finish of UPDATE is bounded, even if the target keeps pushing: from a good state in step U2, at most 2 · left + 1
CP_STEPs return the call, with Ok, and raise no fault; and, however the other agents' steps fall between them, each CP_STEP returns the
call or lowers the measure of what it still has to do, while no other operation raises it or touches the call. -/
def Obligations.UpdateFinishIsBounded : Prop :=
  ∀ (s : State) (u : UpdateCall), Good s → s.faulted = none → s.call = some (.update u) → u.phase = .u2 →
    (∃ k t, k ≤ 2 * u.left + 1 ∧ replay (List.replicate k .cpStep) s = .next t ∧ t.faulted = none ∧ t.call = none ∧
      t.history.getLast? = some (.result .update .ok)) ∧
    (∃ t, exec .cpStep s = .next t ∧ t.faulted = none ∧
      (t.call = none ∨ ∃ v, t.call = some (.update v) ∧ v.phase = .u2 ∧ finishMeasure t v < finishMeasure s u)) ∧
    (∀ i t, i ≠ .cpStep → exec i s = .next t → t.call = s.call ∧ finishMeasure t u ≤ finishMeasure s u)

/-- R183, R227(b): no outbound byte is lost, doubled or reordered while a session stays open: every operation keeps the stream of bytes
forwarded, drained, queued, deferred and detected, or is an access whose byte the write-detector records, which joins its end. The
handlers and the steps of UPDATE keep it in every good state, and the MBOX_OUT row of running detectors with room adds its byte. -/
def Obligations.OutboundStreamIsKept : Prop :=
  ∀ (s t : State), Good s → t.faulted = none →
    (∀ i, s.sess.active = true → t.sess.active = true → exec i s = .next t →
      outboundStream t = outboundStream s ∨
      ∃ b, t.det.wfifo = s.det.wfifo ++ [b] ∧ outboundStream t = outboundStream s ++ [b] ∧
        (i = .mboxOut b ∨ (∃ a, i = .busAddr a) ∨ ∃ ce oe, i = .busEnable ce oe)) ∧
    (∀ i, (i = .irqW ∨ i = .irqR ∨ (i = .cpStep ∧ ∃ u, s.call = some (.update u))) → exec i s = .next t →
      outboundStream t = outboundStream s) ∧
    (∀ b, s.det.armed = true → s.suspended = false → s.det.wfifo.length < s.cfg.detFifoDepth →
      exec (.mboxOut b) s = .next t → outboundStream t = outboundStream s ++ [b])

/-- R227(a): no inbound byte is lost, doubled or reordered: while UPDATE goes on, the Inbound Queue followed by what is not yet
published stays the same, and IRQ_R takes exactly the queue's front. -/
def Obligations.InboundOrderIsKept : Prop :=
  ∀ (s t : State), Good s → t.faulted = none →
    (∀ u v, s.call = some (.update u) → t.call = some (.update v) → exec .cpStep s = .next t →
      t.inq.contents t.cfg.inqCap ++ unpublished v = s.inq.contents s.cfg.inqCap ++ unpublished u) ∧
    (exec .irqR s = .next t → s.inq.contents s.cfg.inqCap =
      (if s.inq.count = 0 then [] else [s.inq.front s.cfg.inqCap]) ++ t.inq.contents t.cfg.inqCap)

/-! ## Rules of the whole machine -/

/-- R77(b), R82, R210: while a session stays open, every operation leaves each sequence counter as it was or raises it by one, modulo
2^32. -/
def Obligations.SequenceCountersOnlyCountUp : Prop :=
  ∀ (i : Instr) (s t : State) (base : Word), Good s → exec i s = .next t → t.faulted = none →
    s.sess.active = true → s.sess.base = some base → t.sess.active = true →
    t.sess.base = some base ∧
    (t.field base 16 = s.field base 16 ∨ t.field base 16 = s.field base 16 + 1) ∧
    (t.field base 20 = s.field base 20 ∨ t.field base 20 = s.field base 20 + 1)

/-- R21, R81: only control-plane steps write the ROM Buffer; and of the Mailbox writers, IRQ_W writes only word 20 and IRQ_R only
words 8, 12 and 16 of the window. -/
def Obligations.RomIsWrittenOnlyByControlPlane : Prop :=
  ∀ (i : Instr) (s t : State), exec i s = .next t →
    (t.rom ≠ s.rom → i = .cpStep ∨ i = .irqW ∨ i = .irqR) ∧
    (∀ base : Word, Memory.wf s.rom = true → s.sess.base = some base →
      (i = .irqW → ∀ o, o < base.toNat + 20 ∨ base.toNat + 24 ≤ o → t.romByte o = s.romByte o) ∧
      (i = .irqR → ∀ o, o < base.toNat + 8 ∨ base.toNat + 20 ≤ o → t.romByte o = s.romByte o))

/-- R22, R27, R29 to R31, R34 to R36, R43: which operation may change each piece of control state. -/
def Obligations.WritersOfControlState : Prop :=
  ∀ (i : Instr) (s t : State), exec i s = .next t →
    (t.suspended ≠ s.suspended → i = .cpStep ∧ (s.call = some .suspend ∨ s.call = some .resume)) ∧
    (t.sess ≠ s.sess → i = .cpStep ∧ (s.call = some .endSession ∨ ∃ a b ph, s.call = some (.begin a b ph))) ∧
    (t.det.armed ≠ s.det.armed ∨ t.det.base ≠ s.det.base → i = .cpStep ∧ ∃ a b, s.call = some (.begin a b .b2)) ∧
    (t.det.wirqEn ≠ s.det.wirqEn ∨ t.det.rirqEn ≠ s.det.rirqEn →
      i = .cpStep ∧ (s.call = some .endSession ∨ ∃ a b ph, s.call = some (.begin a b ph))) ∧
    (t.addressMask ≠ s.addressMask → i = .cpStep ∧ s.call = some (.setMask t.addressMask) ∧ s.suspended = true ∧
      s.sess.active = false ∧ maskLegal s.cfg t.addressMask = true) ∧
    (t.accessFlag = true → s.accessFlag = false → i = .repStep) ∧
    (t.accessFlag = false → s.accessFlag = true → i = .cpStep ∧ s.call = some .accClear) ∧
    (t.romPtr ≠ s.romPtr → i = .cpStep ∧ ((∃ p, s.call = some (.setPtr p)) ∨ (∃ d, s.call = some (.romWrite d .w2)) ∨
      ∃ n, s.call = some (.romRead n))) ∧
    (t.nowMs ≠ s.nowMs → i = .tick ∧ t.nowMs = s.nowMs + 1)

/-- R150, R217: while suspended no operation changes the responder's registers or the output latch, until RESUME's step, which
restarts it at S1. -/
def Obligations.SuspensionStopsTheResponder : Prop :=
  ∀ (i : Instr) (s t : State), exec i s = .next t → s.suspended = true →
    t.outLatch = s.outLatch ∧ t.outTag = s.outTag ∧
    (t.resp ≠ s.resp → i = .cpStep ∧ s.call = some .resume ∧ t.resp = { s.resp with phase := .s1 } ∧ t.suspended = false)

/-- R225: TICK, selector 0x40, advances the millisecond time base by one, suspended or not. -/
def Obligations.TickAdvancesTime : Prop :=
  encode .tick = .bytes [0x40] ∧
  ∀ (s : State), s.faulted = none → exec .tick s = .next { s with nowMs := s.nowMs + 1 }

/-- R41: the logical registers' fields, their reserved bits zero. -/
def Obligations.ControlRegistersReadTheirFields : Prop :=
  ∀ (s : State),
    (controlReg s .addrMask = s.addressMask) ∧
    ((controlReg s .detBase).toNat = s.det.base.toNat / 512 * 512) ∧
    ((controlReg s .detCtrl).toNat = s.det.armed.toNat + 2 * s.det.wirqEn.toNat + 4 * s.det.rirqEn.toNat) ∧
    ((controlReg s .respCtrl).toNat = s.suspended.toNat) ∧
    ((controlReg s .config).toNat =
      (decide (s.cfg.sampleMode = .double)).toNat + 2 * s.cfg.bufPresent.toNat + 4 * s.cfg.expanderPresent.toNat) ∧
    ((controlReg s .access).toNat = s.accessFlag.toNat) ∧
    ((controlReg s .session).toNat = s.sess.active.toNat + (s.sess.base.getD 0).toNat / 512 * 512)

/-- R65, R66: MemWrite stores the little-endian image of a value and nothing else, MemRead reads it back, and a range outside the
buffer is a fault. -/
def Obligations.MemWriteIsLittleEndian : Prop :=
  ∀ (s : State) (o n v : Nat), Memory.wf s.rom = true → v < 256 ^ n →
    (o + n ≤ s.cfg.romCap → ∃ t, memWrite o n v s = .next t ∧ t = { s with rom := t.rom } ∧ memRead t o n = v ∧
      (∀ k, k < n → (t.romByte (o + k)).toNat = v / 256 ^ k % 256) ∧
      ∀ a, a < o ∨ o + n ≤ a → t.romByte a = s.romByte a) ∧
    (s.cfg.romCap < o + n → memWrite o n v s = .fault (.outsideBuffer o))
end

