-- ==== Sys2Proof/Laws/State.lean ====
section
/-! SUPPORT. What each named update of the state does to each field: one lemma per field per update, so that no proof unfolds a
record update. -/

namespace Sys2Proof.Machine

variable (s : State)

/-! ## State.emit -/

@[simp] theorem State.emit_cfg (e : Event) : (s.emit e).cfg = s.cfg := rfl
@[simp] theorem State.emit_rom (e : Event) : (s.emit e).rom = s.rom := rfl
@[simp] theorem State.emit_addressMask (e : Event) : (s.emit e).addressMask = s.addressMask := rfl
@[simp] theorem State.emit_bus (e : Event) : (s.emit e).bus = s.bus := rfl
@[simp] theorem State.emit_acc (e : Event) : (s.emit e).acc = s.acc := rfl
@[simp] theorem State.emit_oeseq (e : Event) : (s.emit e).oeseq = s.oeseq := rfl
@[simp] theorem State.emit_outLatch (e : Event) : (s.emit e).outLatch = s.outLatch := rfl
@[simp] theorem State.emit_outTag (e : Event) : (s.emit e).outTag = s.outTag := rfl
@[simp] theorem State.emit_pinsVal (e : Event) : (s.emit e).pinsVal = s.pinsVal := rfl
@[simp] theorem State.emit_pinsTag (e : Event) : (s.emit e).pinsTag = s.pinsTag := rfl
@[simp] theorem State.emit_accessFlag (e : Event) : (s.emit e).accessFlag = s.accessFlag := rfl
@[simp] theorem State.emit_repSeen (e : Event) : (s.emit e).repSeen = s.repSeen := rfl
@[simp] theorem State.emit_resp (e : Event) : (s.emit e).resp = s.resp := rfl
@[simp] theorem State.emit_det (e : Event) : (s.emit e).det = s.det := rfl
@[simp] theorem State.emit_sess (e : Event) : (s.emit e).sess = s.sess := rfl
@[simp] theorem State.emit_inq (e : Event) : (s.emit e).inq = s.inq := rfl
@[simp] theorem State.emit_outq (e : Event) : (s.emit e).outq = s.outq := rfl
@[simp] theorem State.emit_deferred (e : Event) : (s.emit e).deferred = s.deferred := rfl
@[simp] theorem State.emit_suspended (e : Event) : (s.emit e).suspended = s.suspended := rfl
@[simp] theorem State.emit_romPtr (e : Event) : (s.emit e).romPtr = s.romPtr := rfl
@[simp] theorem State.emit_nowMs (e : Event) : (s.emit e).nowMs = s.nowMs := rfl
@[simp] theorem State.emit_call (e : Event) : (s.emit e).call = s.call := rfl
@[simp] theorem State.emit_inflight (e : Event) : (s.emit e).inflight = s.inflight := rfl
@[simp] theorem State.emit_faulted (e : Event) : (s.emit e).faulted = s.faulted := rfl
@[simp] theorem State.emit_history (e : Event) : (s.emit e).history = s.history ++ [e] := rfl
@[simp] theorem State.emit_draws (e : Event) : (s.emit e).draws = s.draws := rfl
@[simp] theorem State.emit_sched (e : Event) : (s.emit e).sched = s.sched := rfl
@[simp] theorem State.emit_pos (e : Event) : (s.emit e).pos = s.pos := rfl

/-! ## State.tookDraw -/

@[simp] theorem State.tookDraw_cfg : (s.tookDraw).cfg = s.cfg := rfl
@[simp] theorem State.tookDraw_rom : (s.tookDraw).rom = s.rom := rfl
@[simp] theorem State.tookDraw_addressMask : (s.tookDraw).addressMask = s.addressMask := rfl
@[simp] theorem State.tookDraw_bus : (s.tookDraw).bus = s.bus := rfl
@[simp] theorem State.tookDraw_acc : (s.tookDraw).acc = s.acc := rfl
@[simp] theorem State.tookDraw_oeseq : (s.tookDraw).oeseq = s.oeseq := rfl
@[simp] theorem State.tookDraw_outLatch : (s.tookDraw).outLatch = s.outLatch := rfl
@[simp] theorem State.tookDraw_outTag : (s.tookDraw).outTag = s.outTag := rfl
@[simp] theorem State.tookDraw_pinsVal : (s.tookDraw).pinsVal = s.pinsVal := rfl
@[simp] theorem State.tookDraw_pinsTag : (s.tookDraw).pinsTag = s.pinsTag := rfl
@[simp] theorem State.tookDraw_accessFlag : (s.tookDraw).accessFlag = s.accessFlag := rfl
@[simp] theorem State.tookDraw_repSeen : (s.tookDraw).repSeen = s.repSeen := rfl
@[simp] theorem State.tookDraw_resp : (s.tookDraw).resp = s.resp := rfl
@[simp] theorem State.tookDraw_det : (s.tookDraw).det = s.det := rfl
@[simp] theorem State.tookDraw_sess : (s.tookDraw).sess = s.sess := rfl
@[simp] theorem State.tookDraw_inq : (s.tookDraw).inq = s.inq := rfl
@[simp] theorem State.tookDraw_outq : (s.tookDraw).outq = s.outq := rfl
@[simp] theorem State.tookDraw_deferred : (s.tookDraw).deferred = s.deferred := rfl
@[simp] theorem State.tookDraw_suspended : (s.tookDraw).suspended = s.suspended := rfl
@[simp] theorem State.tookDraw_romPtr : (s.tookDraw).romPtr = s.romPtr := rfl
@[simp] theorem State.tookDraw_nowMs : (s.tookDraw).nowMs = s.nowMs := rfl
@[simp] theorem State.tookDraw_call : (s.tookDraw).call = s.call := rfl
@[simp] theorem State.tookDraw_inflight : (s.tookDraw).inflight = s.inflight := rfl
@[simp] theorem State.tookDraw_faulted : (s.tookDraw).faulted = s.faulted := rfl
@[simp] theorem State.tookDraw_history : (s.tookDraw).history = s.history := rfl
@[simp] theorem State.tookDraw_draws : (s.tookDraw).draws = s.draws + 1 := rfl
@[simp] theorem State.tookDraw_sched : (s.tookDraw).sched = s.sched := rfl
@[simp] theorem State.tookDraw_pos : (s.tookDraw).pos = s.pos := rfl

/-! ## State.consume -/

@[simp] theorem State.consume_cfg (n : Nat) : (s.consume n).cfg = s.cfg := rfl
@[simp] theorem State.consume_rom (n : Nat) : (s.consume n).rom = s.rom := rfl
@[simp] theorem State.consume_addressMask (n : Nat) : (s.consume n).addressMask = s.addressMask := rfl
@[simp] theorem State.consume_bus (n : Nat) : (s.consume n).bus = s.bus := rfl
@[simp] theorem State.consume_acc (n : Nat) : (s.consume n).acc = s.acc := rfl
@[simp] theorem State.consume_oeseq (n : Nat) : (s.consume n).oeseq = s.oeseq := rfl
@[simp] theorem State.consume_outLatch (n : Nat) : (s.consume n).outLatch = s.outLatch := rfl
@[simp] theorem State.consume_outTag (n : Nat) : (s.consume n).outTag = s.outTag := rfl
@[simp] theorem State.consume_pinsVal (n : Nat) : (s.consume n).pinsVal = s.pinsVal := rfl
@[simp] theorem State.consume_pinsTag (n : Nat) : (s.consume n).pinsTag = s.pinsTag := rfl
@[simp] theorem State.consume_accessFlag (n : Nat) : (s.consume n).accessFlag = s.accessFlag := rfl
@[simp] theorem State.consume_repSeen (n : Nat) : (s.consume n).repSeen = s.repSeen := rfl
@[simp] theorem State.consume_resp (n : Nat) : (s.consume n).resp = s.resp := rfl
@[simp] theorem State.consume_det (n : Nat) : (s.consume n).det = s.det := rfl
@[simp] theorem State.consume_sess (n : Nat) : (s.consume n).sess = s.sess := rfl
@[simp] theorem State.consume_inq (n : Nat) : (s.consume n).inq = s.inq := rfl
@[simp] theorem State.consume_outq (n : Nat) : (s.consume n).outq = s.outq := rfl
@[simp] theorem State.consume_deferred (n : Nat) : (s.consume n).deferred = s.deferred := rfl
@[simp] theorem State.consume_suspended (n : Nat) : (s.consume n).suspended = s.suspended := rfl
@[simp] theorem State.consume_romPtr (n : Nat) : (s.consume n).romPtr = s.romPtr := rfl
@[simp] theorem State.consume_nowMs (n : Nat) : (s.consume n).nowMs = s.nowMs := rfl
@[simp] theorem State.consume_call (n : Nat) : (s.consume n).call = s.call := rfl
@[simp] theorem State.consume_inflight (n : Nat) : (s.consume n).inflight = s.inflight := rfl
@[simp] theorem State.consume_faulted (n : Nat) : (s.consume n).faulted = s.faulted := rfl
@[simp] theorem State.consume_history (n : Nat) : (s.consume n).history = s.history := rfl
@[simp] theorem State.consume_draws (n : Nat) : (s.consume n).draws = s.draws := rfl
@[simp] theorem State.consume_sched (n : Nat) : (s.consume n).sched = s.sched.drop n := rfl
@[simp] theorem State.consume_pos (n : Nat) : (s.consume n).pos = s.pos + n := rfl

/-! ## State.load -/

@[simp] theorem State.load_cfg (bs : List Byte) : (s.load bs).cfg = s.cfg := rfl
@[simp] theorem State.load_rom (bs : List Byte) : (s.load bs).rom = s.rom := rfl
@[simp] theorem State.load_addressMask (bs : List Byte) : (s.load bs).addressMask = s.addressMask := rfl
@[simp] theorem State.load_bus (bs : List Byte) : (s.load bs).bus = s.bus := rfl
@[simp] theorem State.load_acc (bs : List Byte) : (s.load bs).acc = s.acc := rfl
@[simp] theorem State.load_oeseq (bs : List Byte) : (s.load bs).oeseq = s.oeseq := rfl
@[simp] theorem State.load_outLatch (bs : List Byte) : (s.load bs).outLatch = s.outLatch := rfl
@[simp] theorem State.load_outTag (bs : List Byte) : (s.load bs).outTag = s.outTag := rfl
@[simp] theorem State.load_pinsVal (bs : List Byte) : (s.load bs).pinsVal = s.pinsVal := rfl
@[simp] theorem State.load_pinsTag (bs : List Byte) : (s.load bs).pinsTag = s.pinsTag := rfl
@[simp] theorem State.load_accessFlag (bs : List Byte) : (s.load bs).accessFlag = s.accessFlag := rfl
@[simp] theorem State.load_repSeen (bs : List Byte) : (s.load bs).repSeen = s.repSeen := rfl
@[simp] theorem State.load_resp (bs : List Byte) : (s.load bs).resp = s.resp := rfl
@[simp] theorem State.load_det (bs : List Byte) : (s.load bs).det = s.det := rfl
@[simp] theorem State.load_sess (bs : List Byte) : (s.load bs).sess = s.sess := rfl
@[simp] theorem State.load_inq (bs : List Byte) : (s.load bs).inq = s.inq := rfl
@[simp] theorem State.load_outq (bs : List Byte) : (s.load bs).outq = s.outq := rfl
@[simp] theorem State.load_deferred (bs : List Byte) : (s.load bs).deferred = s.deferred := rfl
@[simp] theorem State.load_suspended (bs : List Byte) : (s.load bs).suspended = s.suspended := rfl
@[simp] theorem State.load_romPtr (bs : List Byte) : (s.load bs).romPtr = s.romPtr := rfl
@[simp] theorem State.load_nowMs (bs : List Byte) : (s.load bs).nowMs = s.nowMs := rfl
@[simp] theorem State.load_call (bs : List Byte) : (s.load bs).call = s.call := rfl
@[simp] theorem State.load_inflight (bs : List Byte) : (s.load bs).inflight = s.inflight := rfl
@[simp] theorem State.load_faulted (bs : List Byte) : (s.load bs).faulted = s.faulted := rfl
@[simp] theorem State.load_history (bs : List Byte) : (s.load bs).history = s.history := rfl
@[simp] theorem State.load_draws (bs : List Byte) : (s.load bs).draws = s.draws := rfl
@[simp] theorem State.load_sched (bs : List Byte) : (s.load bs).sched = bs := rfl
@[simp] theorem State.load_pos (bs : List Byte) : (s.load bs).pos = 0 := rfl

/-! ## moveLines -/

@[simp] theorem moveLines_cfg (a : Word) : (moveLines a s).cfg = s.cfg := rfl
@[simp] theorem moveLines_rom (a : Word) : (moveLines a s).rom = s.rom := rfl
@[simp] theorem moveLines_addressMask (a : Word) : (moveLines a s).addressMask = s.addressMask := rfl
@[simp] theorem moveLines_bus (a : Word) : (moveLines a s).bus = { s.bus with prev := s.bus.addr, addr := a, stable := false, epoch := s.bus.epoch + 1 } := rfl
@[simp] theorem moveLines_acc (a : Word) : (moveLines a s).acc = s.acc := rfl
@[simp] theorem moveLines_oeseq (a : Word) : (moveLines a s).oeseq = s.oeseq := rfl
@[simp] theorem moveLines_outLatch (a : Word) : (moveLines a s).outLatch = s.outLatch := rfl
@[simp] theorem moveLines_outTag (a : Word) : (moveLines a s).outTag = s.outTag := rfl
@[simp] theorem moveLines_pinsVal (a : Word) : (moveLines a s).pinsVal = s.pinsVal := rfl
@[simp] theorem moveLines_pinsTag (a : Word) : (moveLines a s).pinsTag = s.pinsTag := rfl
@[simp] theorem moveLines_accessFlag (a : Word) : (moveLines a s).accessFlag = s.accessFlag := rfl
@[simp] theorem moveLines_repSeen (a : Word) : (moveLines a s).repSeen = s.repSeen := rfl
@[simp] theorem moveLines_resp (a : Word) : (moveLines a s).resp = s.resp := rfl
@[simp] theorem moveLines_det (a : Word) : (moveLines a s).det = s.det := rfl
@[simp] theorem moveLines_sess (a : Word) : (moveLines a s).sess = s.sess := rfl
@[simp] theorem moveLines_inq (a : Word) : (moveLines a s).inq = s.inq := rfl
@[simp] theorem moveLines_outq (a : Word) : (moveLines a s).outq = s.outq := rfl
@[simp] theorem moveLines_deferred (a : Word) : (moveLines a s).deferred = s.deferred := rfl
@[simp] theorem moveLines_suspended (a : Word) : (moveLines a s).suspended = s.suspended := rfl
@[simp] theorem moveLines_romPtr (a : Word) : (moveLines a s).romPtr = s.romPtr := rfl
@[simp] theorem moveLines_nowMs (a : Word) : (moveLines a s).nowMs = s.nowMs := rfl
@[simp] theorem moveLines_call (a : Word) : (moveLines a s).call = s.call := rfl
@[simp] theorem moveLines_inflight (a : Word) : (moveLines a s).inflight = s.inflight := rfl
@[simp] theorem moveLines_faulted (a : Word) : (moveLines a s).faulted = s.faulted := rfl
@[simp] theorem moveLines_history (a : Word) : (moveLines a s).history = s.history := rfl
@[simp] theorem moveLines_draws (a : Word) : (moveLines a s).draws = s.draws := rfl
@[simp] theorem moveLines_sched (a : Word) : (moveLines a s).sched = s.sched := rfl
@[simp] theorem moveLines_pos (a : Word) : (moveLines a s).pos = s.pos := rfl

/-! ## acceptSample -/

@[simp] theorem acceptSample_cfg (v : Word) (t : Option Nat) : (acceptSample v t s).cfg = s.cfg := rfl
@[simp] theorem acceptSample_rom (v : Word) (t : Option Nat) : (acceptSample v t s).rom = s.rom := rfl
@[simp] theorem acceptSample_addressMask (v : Word) (t : Option Nat) : (acceptSample v t s).addressMask = s.addressMask := rfl
@[simp] theorem acceptSample_bus (v : Word) (t : Option Nat) : (acceptSample v t s).bus = s.bus := rfl
@[simp] theorem acceptSample_acc (v : Word) (t : Option Nat) : (acceptSample v t s).acc = s.acc := rfl
@[simp] theorem acceptSample_oeseq (v : Word) (t : Option Nat) : (acceptSample v t s).oeseq = s.oeseq := rfl
@[simp] theorem acceptSample_outLatch (v : Word) (t : Option Nat) : (acceptSample v t s).outLatch = s.outLatch := rfl
@[simp] theorem acceptSample_outTag (v : Word) (t : Option Nat) : (acceptSample v t s).outTag = s.outTag := rfl
@[simp] theorem acceptSample_pinsVal (v : Word) (t : Option Nat) : (acceptSample v t s).pinsVal = s.pinsVal := rfl
@[simp] theorem acceptSample_pinsTag (v : Word) (t : Option Nat) : (acceptSample v t s).pinsTag = s.pinsTag := rfl
@[simp] theorem acceptSample_accessFlag (v : Word) (t : Option Nat) : (acceptSample v t s).accessFlag = s.accessFlag := rfl
@[simp] theorem acceptSample_repSeen (v : Word) (t : Option Nat) : (acceptSample v t s).repSeen = s.repSeen := rfl
@[simp] theorem acceptSample_resp (v : Word) (t : Option Nat) : (acceptSample v t s).resp = { s.resp with a := v, aTag := t, phase := .serve } := rfl
@[simp] theorem acceptSample_det (v : Word) (t : Option Nat) : (acceptSample v t s).det = s.det := rfl
@[simp] theorem acceptSample_sess (v : Word) (t : Option Nat) : (acceptSample v t s).sess = s.sess := rfl
@[simp] theorem acceptSample_inq (v : Word) (t : Option Nat) : (acceptSample v t s).inq = s.inq := rfl
@[simp] theorem acceptSample_outq (v : Word) (t : Option Nat) : (acceptSample v t s).outq = s.outq := rfl
@[simp] theorem acceptSample_deferred (v : Word) (t : Option Nat) : (acceptSample v t s).deferred = s.deferred := rfl
@[simp] theorem acceptSample_suspended (v : Word) (t : Option Nat) : (acceptSample v t s).suspended = s.suspended := rfl
@[simp] theorem acceptSample_romPtr (v : Word) (t : Option Nat) : (acceptSample v t s).romPtr = s.romPtr := rfl
@[simp] theorem acceptSample_nowMs (v : Word) (t : Option Nat) : (acceptSample v t s).nowMs = s.nowMs := rfl
@[simp] theorem acceptSample_call (v : Word) (t : Option Nat) : (acceptSample v t s).call = s.call := rfl
@[simp] theorem acceptSample_inflight (v : Word) (t : Option Nat) : (acceptSample v t s).inflight = s.inflight := rfl
@[simp] theorem acceptSample_faulted (v : Word) (t : Option Nat) : (acceptSample v t s).faulted = s.faulted := rfl
@[simp] theorem acceptSample_history (v : Word) (t : Option Nat) : (acceptSample v t s).history = s.history := rfl
@[simp] theorem acceptSample_draws (v : Word) (t : Option Nat) : (acceptSample v t s).draws = s.draws := rfl
@[simp] theorem acceptSample_sched (v : Word) (t : Option Nat) : (acceptSample v t s).sched = s.sched := rfl
@[simp] theorem acceptSample_pos (v : Word) (t : Option Nat) : (acceptSample v t s).pos = s.pos := rfl

/-! ## firstSample -/

@[simp] theorem firstSample_cfg (v : Word) (t : Option Nat) : (firstSample v t s).cfg = s.cfg := rfl
@[simp] theorem firstSample_rom (v : Word) (t : Option Nat) : (firstSample v t s).rom = s.rom := rfl
@[simp] theorem firstSample_addressMask (v : Word) (t : Option Nat) : (firstSample v t s).addressMask = s.addressMask := rfl
@[simp] theorem firstSample_bus (v : Word) (t : Option Nat) : (firstSample v t s).bus = s.bus := rfl
@[simp] theorem firstSample_acc (v : Word) (t : Option Nat) : (firstSample v t s).acc = s.acc := rfl
@[simp] theorem firstSample_oeseq (v : Word) (t : Option Nat) : (firstSample v t s).oeseq = s.oeseq := rfl
@[simp] theorem firstSample_outLatch (v : Word) (t : Option Nat) : (firstSample v t s).outLatch = s.outLatch := rfl
@[simp] theorem firstSample_outTag (v : Word) (t : Option Nat) : (firstSample v t s).outTag = s.outTag := rfl
@[simp] theorem firstSample_pinsVal (v : Word) (t : Option Nat) : (firstSample v t s).pinsVal = s.pinsVal := rfl
@[simp] theorem firstSample_pinsTag (v : Word) (t : Option Nat) : (firstSample v t s).pinsTag = s.pinsTag := rfl
@[simp] theorem firstSample_accessFlag (v : Word) (t : Option Nat) : (firstSample v t s).accessFlag = s.accessFlag := rfl
@[simp] theorem firstSample_repSeen (v : Word) (t : Option Nat) : (firstSample v t s).repSeen = s.repSeen := rfl
@[simp] theorem firstSample_resp (v : Word) (t : Option Nat) : (firstSample v t s).resp = { s.resp with s1 := v, s1Tag := t, phase := .s2 } := rfl
@[simp] theorem firstSample_det (v : Word) (t : Option Nat) : (firstSample v t s).det = s.det := rfl
@[simp] theorem firstSample_sess (v : Word) (t : Option Nat) : (firstSample v t s).sess = s.sess := rfl
@[simp] theorem firstSample_inq (v : Word) (t : Option Nat) : (firstSample v t s).inq = s.inq := rfl
@[simp] theorem firstSample_outq (v : Word) (t : Option Nat) : (firstSample v t s).outq = s.outq := rfl
@[simp] theorem firstSample_deferred (v : Word) (t : Option Nat) : (firstSample v t s).deferred = s.deferred := rfl
@[simp] theorem firstSample_suspended (v : Word) (t : Option Nat) : (firstSample v t s).suspended = s.suspended := rfl
@[simp] theorem firstSample_romPtr (v : Word) (t : Option Nat) : (firstSample v t s).romPtr = s.romPtr := rfl
@[simp] theorem firstSample_nowMs (v : Word) (t : Option Nat) : (firstSample v t s).nowMs = s.nowMs := rfl
@[simp] theorem firstSample_call (v : Word) (t : Option Nat) : (firstSample v t s).call = s.call := rfl
@[simp] theorem firstSample_inflight (v : Word) (t : Option Nat) : (firstSample v t s).inflight = s.inflight := rfl
@[simp] theorem firstSample_faulted (v : Word) (t : Option Nat) : (firstSample v t s).faulted = s.faulted := rfl
@[simp] theorem firstSample_history (v : Word) (t : Option Nat) : (firstSample v t s).history = s.history := rfl
@[simp] theorem firstSample_draws (v : Word) (t : Option Nat) : (firstSample v t s).draws = s.draws := rfl
@[simp] theorem firstSample_sched (v : Word) (t : Option Nat) : (firstSample v t s).sched = s.sched := rfl
@[simp] theorem firstSample_pos (v : Word) (t : Option Nat) : (firstSample v t s).pos = s.pos := rfl

/-! ## forwardByte -/

@[simp] theorem forwardByte_cfg (d : Byte) : (forwardByte d s).cfg = s.cfg := rfl
@[simp] theorem forwardByte_rom (d : Byte) : (forwardByte d s).rom = s.rom := rfl
@[simp] theorem forwardByte_addressMask (d : Byte) : (forwardByte d s).addressMask = s.addressMask := rfl
@[simp] theorem forwardByte_bus (d : Byte) : (forwardByte d s).bus = s.bus := rfl
@[simp] theorem forwardByte_acc (d : Byte) : (forwardByte d s).acc = s.acc := rfl
@[simp] theorem forwardByte_oeseq (d : Byte) : (forwardByte d s).oeseq = s.oeseq := rfl
@[simp] theorem forwardByte_outLatch (d : Byte) : (forwardByte d s).outLatch = d := rfl
@[simp] theorem forwardByte_outTag (d : Byte) : (forwardByte d s).outTag = s.resp.aTag := rfl
@[simp] theorem forwardByte_pinsVal (d : Byte) : (forwardByte d s).pinsVal = s.pinsVal := rfl
@[simp] theorem forwardByte_pinsTag (d : Byte) : (forwardByte d s).pinsTag = s.pinsTag := rfl
@[simp] theorem forwardByte_accessFlag (d : Byte) : (forwardByte d s).accessFlag = s.accessFlag := rfl
@[simp] theorem forwardByte_repSeen (d : Byte) : (forwardByte d s).repSeen = s.repSeen := rfl
@[simp] theorem forwardByte_resp (d : Byte) : (forwardByte d s).resp = { s.resp with phase := .s1 } := rfl
@[simp] theorem forwardByte_det (d : Byte) : (forwardByte d s).det = s.det := rfl
@[simp] theorem forwardByte_sess (d : Byte) : (forwardByte d s).sess = s.sess := rfl
@[simp] theorem forwardByte_inq (d : Byte) : (forwardByte d s).inq = s.inq := rfl
@[simp] theorem forwardByte_outq (d : Byte) : (forwardByte d s).outq = s.outq := rfl
@[simp] theorem forwardByte_deferred (d : Byte) : (forwardByte d s).deferred = s.deferred := rfl
@[simp] theorem forwardByte_suspended (d : Byte) : (forwardByte d s).suspended = s.suspended := rfl
@[simp] theorem forwardByte_romPtr (d : Byte) : (forwardByte d s).romPtr = s.romPtr := rfl
@[simp] theorem forwardByte_nowMs (d : Byte) : (forwardByte d s).nowMs = s.nowMs := rfl
@[simp] theorem forwardByte_call (d : Byte) : (forwardByte d s).call = s.call := rfl
@[simp] theorem forwardByte_inflight (d : Byte) : (forwardByte d s).inflight = s.inflight := rfl
@[simp] theorem forwardByte_faulted (d : Byte) : (forwardByte d s).faulted = s.faulted := rfl
@[simp] theorem forwardByte_history (d : Byte) : (forwardByte d s).history = s.history := rfl
@[simp] theorem forwardByte_draws (d : Byte) : (forwardByte d s).draws = s.draws := rfl
@[simp] theorem forwardByte_sched (d : Byte) : (forwardByte d s).sched = s.sched := rfl
@[simp] theorem forwardByte_pos (d : Byte) : (forwardByte d s).pos = s.pos := rfl

/-! ## clearQueues -/

@[simp] theorem clearQueues_cfg : (clearQueues s).cfg = s.cfg := rfl
@[simp] theorem clearQueues_rom : (clearQueues s).rom = s.rom := rfl
@[simp] theorem clearQueues_addressMask : (clearQueues s).addressMask = s.addressMask := rfl
@[simp] theorem clearQueues_bus : (clearQueues s).bus = s.bus := rfl
@[simp] theorem clearQueues_acc : (clearQueues s).acc = s.acc := rfl
@[simp] theorem clearQueues_oeseq : (clearQueues s).oeseq = s.oeseq := rfl
@[simp] theorem clearQueues_outLatch : (clearQueues s).outLatch = s.outLatch := rfl
@[simp] theorem clearQueues_outTag : (clearQueues s).outTag = s.outTag := rfl
@[simp] theorem clearQueues_pinsVal : (clearQueues s).pinsVal = s.pinsVal := rfl
@[simp] theorem clearQueues_pinsTag : (clearQueues s).pinsTag = s.pinsTag := rfl
@[simp] theorem clearQueues_accessFlag : (clearQueues s).accessFlag = s.accessFlag := rfl
@[simp] theorem clearQueues_repSeen : (clearQueues s).repSeen = s.repSeen := rfl
@[simp] theorem clearQueues_resp : (clearQueues s).resp = s.resp := rfl
@[simp] theorem clearQueues_det : (clearQueues s).det = s.det := rfl
@[simp] theorem clearQueues_sess : (clearQueues s).sess = s.sess := rfl
@[simp] theorem clearQueues_inq : (clearQueues s).inq = s.inq.clear := rfl
@[simp] theorem clearQueues_outq : (clearQueues s).outq = s.outq.clear := rfl
@[simp] theorem clearQueues_deferred : (clearQueues s).deferred = [] := rfl
@[simp] theorem clearQueues_suspended : (clearQueues s).suspended = s.suspended := rfl
@[simp] theorem clearQueues_romPtr : (clearQueues s).romPtr = s.romPtr := rfl
@[simp] theorem clearQueues_nowMs : (clearQueues s).nowMs = s.nowMs := rfl
@[simp] theorem clearQueues_call : (clearQueues s).call = s.call := rfl
@[simp] theorem clearQueues_inflight : (clearQueues s).inflight = s.inflight := rfl
@[simp] theorem clearQueues_faulted : (clearQueues s).faulted = s.faulted := rfl
@[simp] theorem clearQueues_history : (clearQueues s).history = s.history := rfl
@[simp] theorem clearQueues_draws : (clearQueues s).draws = s.draws := rfl
@[simp] theorem clearQueues_sched : (clearQueues s).sched = s.sched := rfl
@[simp] theorem clearQueues_pos : (clearQueues s).pos = s.pos := rfl

/-! ## armSession -/

@[simp] theorem armSession_cfg (base : Word) : (armSession base s).cfg = s.cfg := rfl
@[simp] theorem armSession_rom (base : Word) : (armSession base s).rom = s.rom := rfl
@[simp] theorem armSession_addressMask (base : Word) : (armSession base s).addressMask = s.addressMask := rfl
@[simp] theorem armSession_bus (base : Word) : (armSession base s).bus = s.bus := rfl
@[simp] theorem armSession_acc (base : Word) : (armSession base s).acc = s.acc := rfl
@[simp] theorem armSession_oeseq (base : Word) : (armSession base s).oeseq = s.oeseq := rfl
@[simp] theorem armSession_outLatch (base : Word) : (armSession base s).outLatch = s.outLatch := rfl
@[simp] theorem armSession_outTag (base : Word) : (armSession base s).outTag = s.outTag := rfl
@[simp] theorem armSession_pinsVal (base : Word) : (armSession base s).pinsVal = s.pinsVal := rfl
@[simp] theorem armSession_pinsTag (base : Word) : (armSession base s).pinsTag = s.pinsTag := rfl
@[simp] theorem armSession_accessFlag (base : Word) : (armSession base s).accessFlag = s.accessFlag := rfl
@[simp] theorem armSession_repSeen (base : Word) : (armSession base s).repSeen = s.repSeen := rfl
@[simp] theorem armSession_resp (base : Word) : (armSession base s).resp = s.resp := rfl
@[simp] theorem armSession_det (base : Word) : (armSession base s).det = { armed := true, base := base, wfifo := [], rcount := 0, wirqEn := true, rirqEn := true } := rfl
@[simp] theorem armSession_sess (base : Word) : (armSession base s).sess = { active := true, base := some base } := rfl
@[simp] theorem armSession_inq (base : Word) : (armSession base s).inq = s.inq.clear := rfl
@[simp] theorem armSession_outq (base : Word) : (armSession base s).outq = s.outq.clear := rfl
@[simp] theorem armSession_deferred (base : Word) : (armSession base s).deferred = [] := rfl
@[simp] theorem armSession_suspended (base : Word) : (armSession base s).suspended = s.suspended := rfl
@[simp] theorem armSession_romPtr (base : Word) : (armSession base s).romPtr = s.romPtr := rfl
@[simp] theorem armSession_nowMs (base : Word) : (armSession base s).nowMs = s.nowMs := rfl
@[simp] theorem armSession_call (base : Word) : (armSession base s).call = s.call := rfl
@[simp] theorem armSession_inflight (base : Word) : (armSession base s).inflight = s.inflight := rfl
@[simp] theorem armSession_faulted (base : Word) : (armSession base s).faulted = s.faulted := rfl
@[simp] theorem armSession_history (base : Word) : (armSession base s).history = s.history := rfl
@[simp] theorem armSession_draws (base : Word) : (armSession base s).draws = s.draws := rfl
@[simp] theorem armSession_sched (base : Word) : (armSession base s).sched = s.sched := rfl
@[simp] theorem armSession_pos (base : Word) : (armSession base s).pos = s.pos := rfl

/-! ## advancePtr -/

@[simp] theorem advancePtr_cfg (n : Nat) : (advancePtr n s).cfg = s.cfg := rfl
@[simp] theorem advancePtr_rom (n : Nat) : (advancePtr n s).rom = s.rom := rfl
@[simp] theorem advancePtr_addressMask (n : Nat) : (advancePtr n s).addressMask = s.addressMask := rfl
@[simp] theorem advancePtr_bus (n : Nat) : (advancePtr n s).bus = s.bus := rfl
@[simp] theorem advancePtr_acc (n : Nat) : (advancePtr n s).acc = s.acc := rfl
@[simp] theorem advancePtr_oeseq (n : Nat) : (advancePtr n s).oeseq = s.oeseq := rfl
@[simp] theorem advancePtr_outLatch (n : Nat) : (advancePtr n s).outLatch = s.outLatch := rfl
@[simp] theorem advancePtr_outTag (n : Nat) : (advancePtr n s).outTag = s.outTag := rfl
@[simp] theorem advancePtr_pinsVal (n : Nat) : (advancePtr n s).pinsVal = s.pinsVal := rfl
@[simp] theorem advancePtr_pinsTag (n : Nat) : (advancePtr n s).pinsTag = s.pinsTag := rfl
@[simp] theorem advancePtr_accessFlag (n : Nat) : (advancePtr n s).accessFlag = s.accessFlag := rfl
@[simp] theorem advancePtr_repSeen (n : Nat) : (advancePtr n s).repSeen = s.repSeen := rfl
@[simp] theorem advancePtr_resp (n : Nat) : (advancePtr n s).resp = s.resp := rfl
@[simp] theorem advancePtr_det (n : Nat) : (advancePtr n s).det = s.det := rfl
@[simp] theorem advancePtr_sess (n : Nat) : (advancePtr n s).sess = s.sess := rfl
@[simp] theorem advancePtr_inq (n : Nat) : (advancePtr n s).inq = s.inq := rfl
@[simp] theorem advancePtr_outq (n : Nat) : (advancePtr n s).outq = s.outq := rfl
@[simp] theorem advancePtr_deferred (n : Nat) : (advancePtr n s).deferred = s.deferred := rfl
@[simp] theorem advancePtr_suspended (n : Nat) : (advancePtr n s).suspended = s.suspended := rfl
@[simp] theorem advancePtr_romPtr (n : Nat) : (advancePtr n s).romPtr = s.romPtr + BitVec.ofNat 32 n := rfl
@[simp] theorem advancePtr_nowMs (n : Nat) : (advancePtr n s).nowMs = s.nowMs := rfl
@[simp] theorem advancePtr_call (n : Nat) : (advancePtr n s).call = s.call := rfl
@[simp] theorem advancePtr_inflight (n : Nat) : (advancePtr n s).inflight = s.inflight := rfl
@[simp] theorem advancePtr_faulted (n : Nat) : (advancePtr n s).faulted = s.faulted := rfl
@[simp] theorem advancePtr_history (n : Nat) : (advancePtr n s).history = s.history := rfl
@[simp] theorem advancePtr_draws (n : Nat) : (advancePtr n s).draws = s.draws := rfl
@[simp] theorem advancePtr_sched (n : Nat) : (advancePtr n s).sched = s.sched := rfl
@[simp] theorem advancePtr_pos (n : Nat) : (advancePtr n s).pos = s.pos := rfl

end Sys2Proof.Machine
end

