-- ==== Sys2Proof/Laws/Memory.lean ====
section
/-! SUPPORT. The ROM Buffer: every memory operation keeps the canonical form, a read after a write gives what was written, and a
write leaves every other byte alone (20_memory.md R66). -/

namespace Sys2Proof.Machine

/-- The canonical form, unfolded once: the first cell is listed rightly and comes before every other. -/
theorem Memory.wf_cons (c : Host.Cell) (rest : List Host.Cell) :
    Memory.wf (c :: rest) = true ↔
      c.2 ≠ romBackground ∧ (∀ d ∈ rest, c.1 < d.1) ∧ Memory.wf rest = true := by
  induction rest generalizing c with
  | nil => simp [Memory.wf]
  | cons d rest ih =>
    have hd := ih d
    constructor
    · intro h
      simp only [Memory.wf, Bool.and_eq_true, bne_iff_ne, ne_eq, decide_eq_true_eq] at h
      have hw : Memory.wf (d :: rest) = true := by
        simp only [Memory.wf, Bool.and_eq_true, bne_iff_ne, ne_eq]
        exact h.2
      refine ⟨h.1.1, ?_, hw⟩
      intro e he
      rcases List.mem_cons.mp he with rfl | he'
      · exact h.1.2
      · exact lt_trans h.1.2 ((hd.mp hw).2.1 e he')
    · rintro ⟨h1, h2, h3⟩
      have hcd := h2 d (by simp)
      simp only [Memory.wf, Bool.and_eq_true, bne_iff_ne, ne_eq, decide_eq_true_eq] at h3 ⊢
      exact ⟨⟨h1, hcd⟩, h3⟩

/-- An offset that no cell lists holds the background byte. -/
theorem Memory.read_not_listed (m : List Host.Cell) (o : Nat) (h : ∀ c ∈ m, c.1 ≠ o) : Memory.read m o = romBackground := by
  induction m with
  | nil => rfl
  | cons c rest ih =>
    simp only [Memory.read]
    rw [if_neg (h c (by simp)), ih fun d hd => h d (by simp [hd])]

/-- The offsets a write lists are those listed before and the one written. -/
theorem Memory.mem_write {m : List Host.Cell} {o : Nat} {v : Byte} {c : Host.Cell} (h : c ∈ Memory.write m o v) :
    c ∈ m ∨ c = (o, v) := by
  induction m with
  | nil =>
    simp only [Memory.write, Memory.cons] at h
    split at h <;> simp_all
  | cons d rest ih =>
    simp only [Memory.write, Memory.cons] at h
    split at h
    · split at h <;> simp_all
      tauto
    · split at h
      · split at h <;> simp_all
        tauto
      · rcases List.mem_cons.mp h with rfl | h'
        · simp
        · rcases ih h' with h1 | h1
          · exact .inl (by simp [h1])
          · exact .inr h1

/-- A write keeps the canonical form. -/
theorem Memory.write_wf {m : List Host.Cell} (hm : Memory.wf m = true) (o : Nat) (v : Byte) :
    Memory.wf (Memory.write m o v) = true := by
  induction m with
  | nil =>
    simp only [Memory.write, Memory.cons]
    split
    · rfl
    · rename_i hv
      exact (Memory.wf_cons _ _).mpr ⟨hv, by simp, rfl⟩
  | cons c rest ih =>
    obtain ⟨hc, hlt, hw⟩ := (Memory.wf_cons c rest).mp hm
    simp only [Memory.write, Memory.cons]
    split
    · rename_i ho
      split
      · exact hm
      · rename_i hv
        refine (Memory.wf_cons _ _).mpr ⟨hv, ?_, hm⟩
        intro d hd
        rcases List.mem_cons.mp hd with rfl | hd'
        · exact ho
        · exact lt_trans ho (hlt d hd')
    · rename_i ho
      split
      · rename_i he
        split
        · exact hw
        · rename_i hv
          refine (Memory.wf_cons _ _).mpr ⟨hv, ?_, hw⟩
          intro d hd
          exact he ▸ hlt d hd
      · rename_i he
        refine (Memory.wf_cons _ _).mpr ⟨hc, ?_, ih hw⟩
        intro d hd
        rcases Memory.mem_write hd with h1 | rfl
        · exact hlt d h1
        · simp only; omega

/-- A read after a write: the byte written at its offset, the old byte anywhere else. -/
theorem Memory.read_write {m : List Host.Cell} (hm : Memory.wf m = true) (o : Nat) (v : Byte) (a : Nat) :
    Memory.read (Memory.write m o v) a = if a = o then v else Memory.read m a := by
  induction m with
  | nil =>
    simp only [Memory.write, Memory.cons]
    split <;> (rename_i hv; simp only [Memory.read]; split <;> simp_all <;> omega)
  | cons c rest ih =>
    obtain ⟨_, hlt, hw⟩ := (Memory.wf_cons c rest).mp hm
    simp only [Memory.write, Memory.cons]
    split
    · rename_i ho
      split
      · rename_i hv
        split
        · rename_i ha
          rw [Memory.read_not_listed, hv]
          intro d hd
          rcases List.mem_cons.mp hd with rfl | hd'
          · omega
          · have := hlt d hd'; omega
        · rfl
      · simp only [Memory.read, eq_comm]
    · rename_i ho
      split
      · rename_i he
        split
        · rename_i hv
          split
          · rename_i ha
            rw [Memory.read_not_listed, hv]
            intro d hd
            have := hlt d hd; omega
          · simp only [Memory.read]
            rw [if_neg (by omega)]
        · simp only [Memory.read]
          by_cases ha : a = o
          · simp [ha]
          · rw [if_neg (by omega), if_neg ha, if_neg (by omega)]
      · rename_i he
        simp only [Memory.read, ih hw]
        split <;> split <;> first | rfl | omega

/-- Writing bytes in order keeps the canonical form. -/
theorem Memory.writeBytes_wf {m : List Host.Cell} (hm : Memory.wf m = true) (o : Nat) (bs : List Byte) :
    Memory.wf (Memory.writeBytes m o bs) = true := by
  induction bs generalizing m o with
  | nil => exact hm
  | cons b rest ih => exact ih (Memory.write_wf hm o b) (o + 1)

/-- A read after bytes are written: the byte of the list inside its range, the old byte outside. -/
theorem Memory.read_writeBytes {m : List Host.Cell} (hm : Memory.wf m = true) (o : Nat) (bs : List Byte) (a : Nat) :
    Memory.read (Memory.writeBytes m o bs) a =
      if o ≤ a ∧ a < o + bs.length then bs.getD (a - o) 0 else Memory.read m a := by
  induction bs generalizing m o with
  | nil =>
    have : ¬ (o ≤ a ∧ a < o + ([] : List Byte).length) := by simp
    rw [if_neg this]; rfl
  | cons b rest ih =>
    simp only [Memory.writeBytes]
    rw [ih (Memory.write_wf hm o b), Memory.read_write hm]
    simp only [List.length_cons]
    by_cases h1 : o + 1 ≤ a ∧ a < o + 1 + rest.length
    · rw [if_pos h1, if_pos (by omega)]
      have : a - o = (a - (o + 1)) + 1 := by omega
      rw [this]; rfl
    · rw [if_neg h1]
      by_cases h2 : a = o
      · subst h2
        simp
      · rw [if_neg h2, if_neg (by omega)]

/-- Every cell that bytes written leave is an old one, or lies in the range written. -/
theorem Memory.mem_writeBytes {m : List Host.Cell} {o : Nat} {bs : List Byte} {c : Host.Cell}
    (h : c ∈ Memory.writeBytes m o bs) : c ∈ m ∨ (o ≤ c.1 ∧ c.1 < o + bs.length) := by
  induction bs generalizing m o with
  | nil => exact .inl h
  | cons b rest ih =>
    simp only [List.length_cons]
    rcases ih h with h1 | h1
    · rcases Memory.mem_write h1 with h2 | rfl
      · exact .inl h2
      · exact .inr ⟨le_refl _, by simp only; omega⟩
    · exact .inr (by omega)

/-- Bytes written outside a range do not change the range. -/
theorem Memory.readBytes_congr {m m' : List Host.Cell} {o n : Nat}
    (h : ∀ a, o ≤ a → a < o + n → Memory.read m' a = Memory.read m a) :
    Memory.readBytes m' o n = Memory.readBytes m o n := by
  induction n generalizing o with
  | zero => rfl
  | succ n ih =>
    simp only [Memory.readBytes]
    rw [h o (le_refl _) (by omega), ih fun a h1 h2 => h a (by omega) (by omega)]

@[simp] theorem Memory.readBytes_length (m : List Host.Cell) (o n : Nat) : (Memory.readBytes m o n).length = n := by
  induction n generalizing o with
  | zero => rfl
  | succ n ih => simp [Memory.readBytes, ih]

/-- Reading back the bytes just written gives them. -/
theorem Memory.readBytes_writeBytes {m : List Host.Cell} (hm : Memory.wf m = true) (o : Nat) (bs : List Byte) :
    Memory.readBytes (Memory.writeBytes m o bs) o bs.length = bs := by
  induction bs generalizing m o with
  | nil => rfl
  | cons b rest ih =>
    simp only [Memory.writeBytes, List.length_cons, Memory.readBytes]
    rw [ih (Memory.write_wf hm o b), Memory.read_writeBytes (Memory.write_wf hm o b), if_neg (by omega),
      Memory.read_write hm, if_pos rfl]

/-- `writeRom`, whole: it answers the written buffer, and only where the bytes lie inside it. -/
theorem writeRom_next {o : Nat} {bs : List Byte} {s t : State} :
    writeRom o bs s = .next t ↔
      o + bs.length ≤ s.cfg.romCap ∧ t = { s with rom := Memory.writeBytes s.rom o bs } := by
  unfold writeRom
  split
  · rename_i h
    constructor
    · intro he
      injection he with he
      exact ⟨h, he.symm⟩
    · rintro ⟨_, rfl⟩
      rfl
  · rename_i h
    constructor
    · intro he
      cases he
    · rintro ⟨h', _⟩
      exact absurd h' h

/-- `writeRom` where the bytes lie inside the buffer. -/
theorem writeRom_of_le {o : Nat} {bs : List Byte} {s : State} (h : o + bs.length ≤ s.cfg.romCap) :
    writeRom o bs s = .next { s with rom := Memory.writeBytes s.rom o bs } := by
  unfold writeRom
  rw [if_pos h]

/-- A byte after `writeRom`: written inside the range, untouched outside. -/
theorem romByte_writeRom {o : Nat} {bs : List Byte} {s t : State} (hm : Memory.wf s.rom = true)
    (h : writeRom o bs s = .next t) (a : Nat) :
    t.romByte a = if o ≤ a ∧ a < o + bs.length then bs.getD (a - o) 0 else s.romByte a := by
  obtain ⟨_, rfl⟩ := writeRom_next.mp h
  exact Memory.read_writeBytes hm o bs a

/-- A 4-byte field after bytes written outside it. -/
theorem field_congr {s t : State} {base : Word} {off : Nat}
    (h : ∀ a, base.toNat + off ≤ a → a < base.toNat + off + 4 → t.romByte a = s.romByte a) :
    t.field base off = s.field base off := by
  unfold State.field memRead
  rw [Memory.readBytes_congr h]

/-- `writeField`, whole. -/
theorem writeField_next {base : Word} {off : Nat} {v : Word} {s t : State} :
    writeField base off v s = .next t ↔
      base.toNat + off + 4 ≤ s.cfg.romCap ∧
        t = { s with rom := Memory.writeBytes s.rom (base.toNat + off) (leBytes 4 v.toNat) } := by
  unfold writeField memWrite
  rw [writeRom_next, leBytes_length]

/-- `writeField` where the field lies inside the buffer. -/
theorem writeField_of_le {base : Word} {off : Nat} {v : Word} {s : State} (h : base.toNat + off + 4 ≤ s.cfg.romCap) :
    writeField base off v s =
      .next { s with rom := Memory.writeBytes s.rom (base.toNat + off) (leBytes 4 v.toNat) } :=
  writeField_next.mpr ⟨h, rfl⟩

/-- The field just written reads as the value written. -/
theorem field_writeField_same {base : Word} {off : Nat} {v : Word} {s t : State} (hm : Memory.wf s.rom = true)
    (h : writeField base off v s = .next t) : t.field base off = v := by
  obtain ⟨_, rfl⟩ := writeField_next.mp h
  unfold State.field memRead
  have hb := Memory.readBytes_writeBytes hm (base.toNat + off) (leBytes 4 v.toNat)
  rw [leBytes_length] at hb
  simp only [hb, leValue_leBytes]
  apply BitVec.eq_of_toNat_eq
  have := v.isLt
  simp only [BitVec.toNat_ofNat]
  omega

/-- Another field keeps its value. -/
theorem field_writeField_other {base : Word} {off off' : Nat} {v : Word} {s t : State} (hm : Memory.wf s.rom = true)
    (h : writeField base off v s = .next t) (hne : off + 4 ≤ off' ∨ off' + 4 ≤ off) :
    t.field base off' = s.field base off' := by
  obtain ⟨_, rfl⟩ := writeField_next.mp h
  apply field_congr
  intro a h1 h2
  unfold State.romByte
  rw [Memory.read_writeBytes hm, if_neg]
  simp only [leBytes_length]
  omega

/-- The reset buffer of a configuration that passes R6 is canonical, and inside its capacity. -/
theorem reset_buffer_wf {p : Params} (d : ResetDraws) (h : configProblem p = none) :
    Memory.wf (State.resetWith p d).rom = true ∧ ∀ c ∈ (State.resetWith p d).rom, c.1 < p.romCap := by
  simp only [configProblem] at h
  repeat' split at h
  all_goals try cases h
  rename_i h5 _ _
  simp only [not_or, Bool.not_eq_false] at h5
  refine ⟨h5.1, fun c hc => ?_⟩
  have := List.all_eq_true.mp h5.2 c hc
  simpa using this

/-- The buffer of `State.reset` is canonical. -/
theorem reset_memory_wf : Memory.wf State.reset.rom = true := rfl

end Sys2Proof.Machine
end

