-- ==== Sys2Proof/Laws/Ops.lean ====
section
/-! SUPPORT. For each shared operation, once, everything it can do: what a next state of it says. -/

namespace Sys2Proof.Machine

/-! ## Sequencing -/

/-- A next state is that state. -/
theorem next_eq {s t : State} : (Host.Outcome.next s : StepResult) = .next t ↔ t = s := by
  constructor
  · intro h
    injection h with h
    exact h.symm
  · rintro rfl
    rfl

/-- `live` in a run that has not ended is its body. -/
theorem live_running {s : State} (h : s.faulted = none) (r : StepResult) : live s r = r := by
  unfold live
  rw [h]

/-- `live` after a model fault stops. -/
theorem live_faulted {s : State} {code : FaultCode} (h : s.faulted = some code) (r : StepResult) :
    live s r = .fault (.runEnded code) := by
  unfold live
  rw [h]

/-- A next state through `live` comes from its body, in a run that has not ended. -/
theorem live_next {s t : State} {r : StepResult} : live s r = .next t ↔ s.faulted = none ∧ r = .next t := by
  unfold live
  split <;> simp_all

/-- `andThen` whose first part goes on. -/
theorem andThen_of {r : StepResult} {s : State} {k : State → StepResult} (hr : r = .next s) (hs : s.faulted = none) :
    andThen r k = k s := by
  subst hr
  simp only [andThen, hs]

/-- A next state through `andThen`: the first part answered a state, and either it raised and the step ends there, or the rest
answered. -/
theorem andThen_next {r : StepResult} {k : State → StepResult} {t : State} :
    andThen r k = .next t ↔
      ∃ s, r = .next s ∧ ((s.faulted = none ∧ k s = .next t) ∨ (s.faulted ≠ none ∧ t = s)) := by
  cases r with
  | next s =>
    cases hs : s.faulted with
    | none => simp [andThen, hs]
    | some c =>
      simp only [andThen, hs]
      constructor
      · intro h
        injection h with h
        exact ⟨s, rfl, .inr ⟨by simp [hs], h.symm⟩⟩
      · rintro ⟨u, hu, h | ⟨_, rfl⟩⟩
        · injection hu with hu
          subst hu
          simp [hs] at h
        · exact hu
  | fault f => simp [andThen]
  | refused q => simp [andThen]

/-- `hold` gives no next state. -/
theorem hold_ne_next (t : State) : hold ≠ .next t := by
  intro h
  cases h

/-- `raise`, whole: the code is recorded and its event emitted. -/
theorem raise_next {code : FaultCode} {s t : State} :
    raise code s = .next t ↔ t = { s.emit (.fault code) with faulted := some code } := by
  unfold raise
  constructor
  · intro h
    injection h with h
    exact h.symm
  · rintro rfl
    rfl

/-- `withBase`, whole. -/
theorem withBase_next {s t : State} {k : Word → StepResult} :
    withBase s k = .next t ↔ ∃ base, s.sess.base = some base ∧ k base = .next t := by
  unfold withBase
  split <;> simp_all

/-- `withBase` where there is a base. -/
theorem withBase_of {s : State} {base : Word} (h : s.sess.base = some base) (k : Word → StepResult) :
    withBase s k = k base := by
  unfold withBase
  rw [h]

/-! ## Calls -/

/-- `issue` of an admitted call. -/
theorem issue_of {c : Call} {s : State} (hc : s.call = none) (ha : s.suspended = false ∨ c.admittedSuspended = true) :
    issue c s = .next { s with call := some c } := by
  unfold issue
  rw [hc]
  rcases ha with h | h <;> simp [h]

/-- `issue`, whole: no call was in progress, and the call is recorded, or the fault of R224 is raised. -/
theorem issue_next {c : Call} {s t : State} :
    issue c s = .next t ↔
      s.call = none ∧
        ((s.suspended = true ∧ c.admittedSuspended = false ∧ raise .callWhileSuspended s = .next t) ∨
          (¬ (s.suspended = true ∧ c.admittedSuspended = false) ∧ t = { s with call := some c })) := by
  unfold issue
  cases hc : s.call with
  | some d => simp [hold]
  | none =>
    simp only [true_and]
    split
    · rename_i h
      simp [h]
    · rename_i h
      constructor
      · intro he
        injection he with he
        exact .inr ⟨h, he.symm⟩
      · rintro (⟨h1, h2, _⟩ | ⟨_, rfl⟩)
        · exact absurd ⟨h1, h2⟩ h
        · rfl

/-- `ret`, whole. -/
theorem ret_next {name : CallName} {v : ResultValue} {s t : State} :
    ret name v s = .next t ↔ t = { s.emit (.result name v) with call := none } := by
  unfold ret
  constructor
  · intro h
    injection h with h
    exact h.symm
  · rintro rfl
    rfl

/-! ## Queues -/

theorem Queue.count_push {q : Queue} {cap : Nat} (b : Byte) (h : q.tail ≤ q.head) :
    (q.push cap b).count = q.count + 1 := by
  simp only [Queue.push, Queue.count]
  omega

theorem Queue.count_pop (q : Queue) : q.pop.count = q.count - 1 := by
  simp only [Queue.pop, Queue.count]
  omega

@[simp] theorem Queue.count_clear (q : Queue) : q.clear.count = 0 := rfl

/-- The slot just pushed into an empty queue is its front. -/
theorem Queue.front_push_empty {q : Queue} {cap : Nat} (b : Byte) (hcap : 0 < cap) (hl : q.ring.length = cap)
    (he : q.head = q.tail) : (q.push cap b).front cap = b := by
  have hlt : q.tail % cap < q.ring.length := by
    rw [hl]
    exact Nat.mod_lt _ hcap
  simp only [Queue.push, Queue.front, he]
  rw [List.getD_eq_getElem?_getD, List.getElem?_set_self hlt]
  rfl

/-- Two counters less than CAP apart use different slots. -/
theorem slot_ne {cap a b : Nat} (h1 : a < b) (h2 : b < a + cap) : b % cap ≠ a % cap := by
  intro h
  have := (Nat.modEq_iff_dvd' (le_of_lt h1)).mp h.symm
  have := Nat.le_of_dvd (by omega) this
  omega

/-- A push into a queue that holds bytes but is not full keeps its front. -/
theorem Queue.front_push_nonempty {q : Queue} {cap : Nat} (b : Byte) (h1 : q.tail < q.head) (h2 : q.head < q.tail + cap) :
    (q.push cap b).front cap = q.front cap := by
  have hne := slot_ne h1 h2
  simp only [Queue.push, Queue.front, List.getD_eq_getElem?_getD]
  rw [List.getElem?_set_ne hne]

/-! ## Capture -/

/-- `PushW`, whole (42_mailbox.md R175). -/
theorem pushW_next {b : Byte} {s t : State} :
    pushW b s = .next t ↔
      (s.det.wfifo.length < s.cfg.detFifoDepth ∧ t = { s with det := { s.det with wfifo := s.det.wfifo ++ [b] } }) ∨
      (s.cfg.detFifoDepth ≤ s.det.wfifo.length ∧ s.det.wirqEn = true ∧ raise .detectorOverflow s = .next t) ∨
      (s.cfg.detFifoDepth ≤ s.det.wfifo.length ∧ s.det.wirqEn = false ∧ t = s) := by
  unfold pushW
  split
  · rename_i h
    have : ¬ s.cfg.detFifoDepth ≤ s.det.wfifo.length := by omega
    simp only [h, this, next_eq, true_and, false_and, or_false]
  · rename_i h
    have h' : s.cfg.detFifoDepth ≤ s.det.wfifo.length := by omega
    cases he : s.det.wirqEn with
    | true => simp only [h, h', if_true, true_and, false_and, false_or, Bool.true_eq_false, or_false]
    | false => simp only [h, h', Bool.false_eq_true, if_false, next_eq, true_and, false_and, false_or]

/-- `PushR`, whole (42_mailbox.md R175). -/
theorem pushR_next {s t : State} :
    pushR s = .next t ↔
      (s.det.rcount < s.cfg.detFifoDepth ∧ t = { s with det := { s.det with rcount := s.det.rcount + 1 } }) ∨
      (s.cfg.detFifoDepth ≤ s.det.rcount ∧ s.det.rirqEn = true ∧ raise .detectorOverflow s = .next t) ∨
      (s.cfg.detFifoDepth ≤ s.det.rcount ∧ s.det.rirqEn = false ∧ t = s) := by
  unfold pushR
  split
  · rename_i h
    have : ¬ s.cfg.detFifoDepth ≤ s.det.rcount := by omega
    simp only [h, this, next_eq, true_and, false_and, or_false]
  · rename_i h
    have h' : s.cfg.detFifoDepth ≤ s.det.rcount := by omega
    cases he : s.det.rirqEn with
    | true => simp only [h, h', if_true, true_and, false_and, false_or, Bool.true_eq_false, or_false]
    | false => simp only [h, h', Bool.false_eq_true, if_false, next_eq, true_and, false_and, false_or]

/-- An event recorded while not suspended is pushed. -/
theorem recordEvent_running {push : State → StepResult} {s : State} (h : s.suspended = false) :
    recordEvent push s = push s := by
  simp [recordEvent, h]

/-- `recordEvent`, whole (42_mailbox.md R173, R176). -/
theorem recordEvent_next {push : State → StepResult} {s t : State} :
    recordEvent push s = .next t ↔
      (s.suspended = false ∧ push s = .next t) ∨
      (s.suspended = true ∧ Config.drawBool s.draws = true ∧
        t = (s.emit (.timingViolation .mailboxWhileSuspended)).tookDraw) ∨
      (s.suspended = true ∧ Config.drawBool s.draws = false ∧
        push (s.emit (.timingViolation .mailboxWhileSuspended)).tookDraw = .next t) := by
  unfold recordEvent
  cases hs : s.suspended with
  | false => simp
  | true => cases hd : Config.drawBool s.draws <;> simp [eq_comm (b := t)]

/-- `detCapture` of a settled access is the capture of its class (42_mailbox.md R173). -/
theorem detCapture_settled {s : State} {a : Word} (h : s.det.armed = true) :
    detCapture (some a) s = captureClass (classify s.det.base (masked a s.addressMask)) s := by
  simp [detCapture, h]

/-- `detCapture` with no detector loaded does nothing (42_mailbox.md R173). -/
theorem detCapture_unarmed {s : State} {seen : Option Word} (h : s.det.armed = false) : detCapture seen s = .next s := by
  simp [detCapture, h]

/-- `detCapture` of a malformed access (42_mailbox.md R174). -/
theorem detCapture_malformed {s : State} (h : s.det.armed = true) :
    detCapture none s = captureClass (malformed s).1 (malformed s).2 := by
  simp [detCapture, h]

/-- The window rows are the capture of their classes (30_encoding.md R97). -/
theorem exec_row {s : State} (cls : DetClass) (hf : s.faulted = none) (ha : s.det.armed = true) :
    exec cls.row s = captureClass cls s := by
  cases cls with
  | plain => simp [exec, DetClass.row, execPlainRead, live_running hf, ha]
  | out b => simp [exec, DetClass.row, execMboxOut, live_running hf, ha]
  | consume => simp [exec, DetClass.row, execMboxConsume, live_running hf, ha]

/-! ## The session and the queues of the Mailbox -/

/-- `acceptOutbound`, whole (42_mailbox.md R180). -/
theorem acceptOutbound_next {b : Byte} {s t : State} :
    acceptOutbound b s = .next t ↔
      ∃ base, s.sess.base = some base ∧
        bumpField base fieldOutSeq { s with outq := s.outq.push s.cfg.outqCap b } = .next t := by
  unfold acceptOutbound
  exact withBase_next

/-- `offerInbound`, whole: both fields are written, in order (20_memory.md R75(b)). -/
theorem offerInbound_next {base : Word} {b : Byte} {s t : State} (hf : s.faulted = none) :
    offerInbound base b s = .next t ↔
      ∃ u, writeField base fieldInByte (b.zeroExtend 32) s = .next u ∧ bumpField base fieldInSeq u = .next t := by
  unfold offerInbound
  rw [andThen_next]
  constructor
  · rintro ⟨u, hu, ⟨_, h⟩ | ⟨h, _⟩⟩
    · exact ⟨u, hu, h⟩
    · obtain ⟨_, rfl⟩ := writeField_next.mp hu
      exact absurd hf h
  · rintro ⟨u, hu, h⟩
    refine ⟨u, hu, .inl ⟨?_, h⟩⟩
    obtain ⟨_, rfl⟩ := writeField_next.mp hu
    exact hf

/-- `closeSession`, whole (43_control_plane.md R201, R206). -/
theorem closeSession_next {s t : State} (hf : s.faulted = none) :
    closeSession s = .next t ↔
      ∃ base, s.sess.base = some base ∧ base.toNat + fieldActive + 4 ≤ s.cfg.romCap ∧
        t = clearQueues { s with
          det := { s.det with wirqEn := false, rirqEn := false }
          sess := { active := false, base := none }
          rom := Memory.writeBytes s.rom (base.toNat + fieldActive) (leBytes 4 0) } := by
  unfold closeSession
  rw [withBase_next]
  constructor
  · rintro ⟨base, hb, h⟩
    obtain ⟨u, hu, ⟨_, h⟩ | ⟨h, _⟩⟩ := andThen_next.mp h
    · obtain ⟨hle, rfl⟩ := writeField_next.mp hu
      injection h with h
      exact ⟨base, hb, hle, h.symm⟩
    · obtain ⟨_, rfl⟩ := writeField_next.mp hu
      exact absurd hf h
  · rintro ⟨base, hb, hle, rfl⟩
    exact ⟨base, hb, andThen_next.mpr ⟨_, writeField_next.mpr ⟨hle, rfl⟩, .inl ⟨hf, rfl⟩⟩⟩

/-- `FlushChunk` empties the chunk (43_control_plane.md R214). -/
@[simp] theorem flushChunk_chunk (u : UpdateCall) (s : State) : (flushChunk u s).1.chunk = [] := by
  unfold flushChunk
  split <;> simp_all

/-- `FlushChunk` changes nothing of the state but the history. -/
theorem flushChunk_state (u : UpdateCall) (s : State) :
    (flushChunk u s).2 = { s with history := (flushChunk u s).2.history } := by
  unfold flushChunk
  split <;> rfl

/-- `Drain1` changes nothing of the state but the Outbound Queue and the history. -/
theorem drain1_state (u : UpdateCall) (s : State) :
    (drain1 u s).2 = { s with outq := s.outq.pop, history := (drain1 u s).2.history } := by
  unfold drain1 flushChunk
  dsimp only
  split
  · split <;> rfl
  · rfl

/-! ## The step -/

/-- A schedule is refused exactly where its decoding ends in an invalid encoding. -/
theorem scheduleProblem_eq_none {s : State} :
    scheduleProblem s = none ↔ (decodeSchedule s.cfg.addrBits s.sched).invalid = none := by
  simp [scheduleProblem]

/-- An empty schedule has no invalid encoding. -/
theorem scheduleProblem_of_nil {s : State} (h : s.sched = []) : scheduleProblem s = none := by
  rw [scheduleProblem_eq_none, h]
  rfl

/-- `step` refuses a schedule that contains an invalid encoding, before any of it runs (60_exceptions.md R265(b)). -/
theorem step_of_scheduleProblem {s : State} {e : DecodeError} {offset : Nat} (hc : configProblem s.cfg = none)
    (hp : scheduleProblem s = some (e, offset)) : step s = .refused (.decode e offset) := by
  simp [step, hc, hp]

/-- `step`, whole: the configuration and the schedule have passed, the run has not ended, and the operation at the front of the
schedule ran. -/
theorem step_next {s t : State} :
    step s = .next t ↔
      configProblem s.cfg = none ∧ scheduleProblem s = none ∧ s.faulted = none ∧
        ∃ i n, fetch s = .op i n ∧ exec i (s.consume n) = .next t := by
  unfold step
  cases hc : configProblem s.cfg with
  | some p => simp
  | none =>
    cases hp : scheduleProblem s with
    | some p => simp
    | none =>
      simp only [true_and]
      rw [live_next]
      cases hd : fetch s <;> simp

end Sys2Proof.Machine
end

