-- ==== Sys2Proof/Laws/PerInstr.lean ====
section
/-! SUPPORT. Facts about every instruction as syntax, one lemma per constructor. -/

namespace Sys2Proof.Laws

/-- An encoded operation is as long as R101 reads off its first bytes (30_encoding.md R101); a window row has no bytes. -/
def EncodedLength.Statement (i : Instr) : Prop :=
  ∀ addrBits, i.wellFormed addrBits = true → ∀ bs, encode i = .bytes bs → opLength bs = some bs.length

/-- A length below 2^16 survives its two bytes. -/
theorem leValue_length_bytes {n : Nat} (h : n ≤ 65535) (b0 b1 : Byte) (hb : leBytes 2 n = [b0, b1]) :
    leValue [b0, b1] = n := by
  rw [← hb, leValue_leBytes]
  omega

/-- The two bytes of a length. -/
theorem leBytes_two (n : Nat) : leBytes 2 n = [BitVec.ofNat 8 n, BitVec.ofNat 8 (n / 256)] := rfl

/-- The four bytes of a `u32`. -/
theorem leBytes_four (n : Nat) :
    leBytes 4 n =
      [BitVec.ofNat 8 n, BitVec.ofNat 8 (n / 256), BitVec.ofNat 8 (n / 256 / 256), BitVec.ofNat 8 (n / 256 / 256 / 256)] :=
  rfl

theorem EncodedLength.busAddr (a : Word) : EncodedLength.Statement (.busAddr a) := by
  intro _ _ bs h
  cases h
  rfl

theorem EncodedLength.busSettle : EncodedLength.Statement .busSettle := by
  intro _ _ bs h
  cases h
  rfl

theorem EncodedLength.busEnable (ce oe : Bool) : EncodedLength.Statement (.busEnable ce oe) := by
  intro _ _ bs h
  cases h
  rfl

theorem EncodedLength.busLatch : EncodedLength.Statement .busLatch := by
  intro _ _ bs h
  cases h
  rfl

theorem EncodedLength.oeseqStep : EncodedLength.Statement .oeseqStep := by
  intro _ _ bs h
  cases h
  rfl

theorem EncodedLength.drvShift : EncodedLength.Statement .drvShift := by
  intro _ _ bs h
  cases h
  rfl

theorem EncodedLength.repStep : EncodedLength.Statement .repStep := by
  intro _ _ bs h
  cases h
  rfl

theorem EncodedLength.respSample : EncodedLength.Statement .respSample := by
  intro _ _ bs h
  cases h
  rfl

theorem EncodedLength.respServe : EncodedLength.Statement .respServe := by
  intro _ _ bs h
  cases h
  rfl

theorem EncodedLength.irqW : EncodedLength.Statement .irqW := by
  intro _ _ bs h
  cases h
  rfl

theorem EncodedLength.irqR : EncodedLength.Statement .irqR := by
  intro _ _ bs h
  cases h
  rfl

theorem EncodedLength.cpStep : EncodedLength.Statement .cpStep := by
  intro _ _ bs h
  cases h
  rfl

theorem EncodedLength.beginSession (a : Word) : EncodedLength.Statement (.beginSession a) := by
  intro _ _ bs h
  cases h
  rfl

theorem EncodedLength.endSession : EncodedLength.Statement .endSession := by
  intro _ _ bs h
  cases h
  rfl

theorem EncodedLength.update (t : Word) (data : List Byte) : EncodedLength.Statement (.update t data) := by
  intro _ hw bs h
  cases h
  have hl : data.length ≤ 65535 := by simpa [Instr.wellFormed, fitsLength] using hw
  have hv := leValue_length_bytes hl _ _ (leBytes_two data.length)
  have hk : opLength (0x32 :: leBytes 4 t.toNat ++ leBytes 2 data.length ++ data) =
      some (7 + leValue [BitVec.ofNat 8 data.length, BitVec.ofNat 8 (data.length / 256)]) := rfl
  rw [hk, hv]
  simp only [List.cons_append, List.length_cons, List.length_append, leBytes_length, Option.some.injEq]
  omega

theorem EncodedLength.suspend : EncodedLength.Statement .suspend := by
  intro _ _ bs h
  cases h
  rfl

theorem EncodedLength.resume : EncodedLength.Statement .resume := by
  intro _ _ bs h
  cases h
  rfl

theorem EncodedLength.persist (r : Region) : EncodedLength.Statement (.persist r) := by
  intro _ _ bs h
  cases h
  rfl

theorem EncodedLength.setMask (m : Word) : EncodedLength.Statement (.setMask m) := by
  intro _ _ bs h
  cases h
  rfl

theorem EncodedLength.romSetptr (p : Word) : EncodedLength.Statement (.romSetptr p) := by
  intro _ _ bs h
  cases h
  rfl

theorem EncodedLength.romGetptr : EncodedLength.Statement .romGetptr := by
  intro _ _ bs h
  cases h
  rfl

theorem EncodedLength.romWrite (data : List Byte) : EncodedLength.Statement (.romWrite data) := by
  intro _ hw bs h
  cases h
  have hl : data.length ≤ 65535 := by simpa [Instr.wellFormed, fitsLength] using hw
  have hv := leValue_length_bytes hl _ _ (leBytes_two data.length)
  have hk : opLength (0x39 :: leBytes 2 data.length ++ data) =
      some (3 + leValue [BitVec.ofNat 8 data.length, BitVec.ofNat 8 (data.length / 256)]) := rfl
  rw [hk, hv]
  simp only [List.cons_append, List.length_cons, List.length_append, leBytes_length, Option.some.injEq]
  omega

theorem EncodedLength.romRead (n : Half) : EncodedLength.Statement (.romRead n) := by
  intro _ _ bs h
  cases h
  rfl

theorem EncodedLength.accflagRead : EncodedLength.Statement .accflagRead := by
  intro _ _ bs h
  cases h
  rfl

theorem EncodedLength.accflagClear : EncodedLength.Statement .accflagClear := by
  intro _ _ bs h
  cases h
  rfl

theorem EncodedLength.tick : EncodedLength.Statement .tick := by
  intro _ _ bs h
  cases h
  rfl

theorem EncodedLength.mboxOut (b : Byte) : EncodedLength.Statement (.mboxOut b) := by
  intro _ _ bs h
  cases h

theorem EncodedLength.mboxConsume : EncodedLength.Statement .mboxConsume := by
  intro _ _ bs h
  cases h

theorem EncodedLength.plainRead : EncodedLength.Statement .plainRead := by
  intro _ _ bs h
  cases h

end Sys2Proof.Laws
end

