-- ==== Sys2Proof/Laws/Runs.lean ====
section
/-! SUPPORT. Replays, expansions and runs: what each definition over lists of operations says of one more operation. -/

namespace Sys2Proof.Machine

@[simp] theorem replay_nil (s : State) : replay [] s = .next s := rfl

/-- A replay goes through exactly where its first operation answers a state and the rest goes through from it. -/
theorem replay_cons_next {i : Instr} {rest : List Instr} {s t : State} :
    replay (i :: rest) s = .next t ↔ ∃ u, exec i s = .next u ∧ replay rest u = .next t := by
  simp only [replay]
  cases exec i s <;> simp

/-- A replay of two lists is the replay of the first, then of the second. -/
theorem replay_append_next {ops more : List Instr} {s t : State} :
    replay (ops ++ more) s = .next t ↔ ∃ u, replay ops s = .next u ∧ replay more u = .next t := by
  induction ops generalizing s with
  | nil => simp [replay]
  | cons i rest ih =>
    simp only [List.cons_append, replay_cons_next, ih]
    constructor
    · rintro ⟨u, hu, v, hv, ht⟩
      exact ⟨v, ⟨u, hu, hv⟩, ht⟩
    · rintro ⟨v, ⟨u, hu, hv⟩, ht⟩
      exact ⟨u, hu, v, hv, ht⟩

/-- `reached`, whole. -/
theorem reached_eq_some {ops : List Instr} {s t : State} : reached ops s = some t ↔ replay ops s = .next t := by
  unfold reached
  cases replay ops s <;> simp

/-- `after`, whole: the replay goes through, and the run goes on. -/
theorem after_eq_some {ops : List Instr} {s t : State} :
    after ops s = some t ↔ replay ops s = .next t ∧ t.faulted = none := by
  simp [after, Option.filter_eq_some_iff, reached_eq_some]

/-- A refused configuration expands no schedule (00_scope.md R6). -/
theorem expandLines_of_problem {lines : List Pseudo} {s : State} {p : Config.Problem} (h : configProblem s.cfg = some p) :
    expandLines lines s = none := by
  simp [expandLines, h]

/-- A step is enabled exactly where the configuration runs and the step answers a next state. -/
theorem enabled_iff {i : Instr} {s : State} :
    enabled i s = true ↔ configProblem s.cfg = none ∧ ∃ t, exec i s = .next t := by
  unfold enabled
  cases exec i s <;> simp

/-- A step that is taken is enabled. -/
theorem Takes.enabled {i : Instr} {s t : State} (h : Takes i s t) : enabled i s = true :=
  enabled_iff.mpr ⟨h.1, t, h.2.2⟩

/-- A finite interleaving starts in a configuration that runs (00_scope.md R6). -/
theorem Leads.config {ops : List Instr} {s t : State} (h : Leads ops s t) : configProblem s.cfg = none := by
  cases ops with
  | nil => exact h.1
  | cons i rest =>
    obtain ⟨_, hu, _⟩ := h
    exact hu.1

/-- A finite interleaving is a replay of agents' steps that goes through. -/
theorem Leads.replay_eq {ops : List Instr} {s t : State} (h : Leads ops s t) : replay ops s = .next t := by
  induction ops generalizing s with
  | nil =>
    obtain ⟨_, rfl⟩ := h
    rfl
  | cons i rest ih =>
    obtain ⟨u, hu, hr⟩ := h
    exact replay_cons_next.mpr ⟨u, hu.2.2, ih hr⟩

/-- No infinite run of a refused configuration exists (00_scope.md R6). -/
theorem not_isRun_of_problem {ops : Nat → Instr} {σ : Nat → State} {n : Nat} {p : Config.Problem}
    (h : configProblem (σ n).cfg = some p) : ¬ IsRun ops σ := by
  intro hr
  simp [(hr n).1] at h

/-- No finite run of a refused configuration exists (00_scope.md R6). -/
theorem not_finiteRun_of_problem {ops : List Instr} {s t : State} {p : Config.Problem}
    (h : configProblem s.cfg = some p) : ¬ FiniteRun ops s t := by
  intro hr
  simp [hr.1.config] at h

end Sys2Proof.Machine
end

