-- ==== Sys2Proof/Tests/Slice0.lean ====
section
/-! SUPPORT. Tests: ill-formed terms that the checks refuse; words written out from the encoding tables (vectors N1 to N47 of
95_test_vectors.md); single steps with the results of the vectors of its part 2; and, for every statement of the certificate that
has hypotheses, a state and operands that meet them, each clause at a boundary value. -/

namespace Sys2Proof.Tests

open Sys2Proof Sys2Proof.Machine

/-! ## States -/

/-- S0 of 95_test_vectors.md section 2.0. -/
abbrev s0 : State := State.reset

/-- The window E1 right after BEGIN_SESSION 0x2200 (95_test_vectors.md section 2.2). -/
abbrev e1 : List Host.Cell := [(0x2200, 0x50), (0x2201, 0x49), (0x2202, 0x43), (0x2203, 0x4F), (0x2204, 1)]

/-- Armed, running detectors with both interrupts enabled. -/
abbrev det0 : Detectors := { armed := true, base := 0x2200, wfifo := [], rcount := 0, wirqEn := true, rirqEn := true }

/-- A session at 0x2200. -/
abbrev ses : State := { s0 with rom := e1, det := det0, sess := { active := true, base := some 0x2200 } }

/-- A queue of configuration K from its slots. -/
abbrev q4 (a b c d : Byte) (head tail : Nat) : Queue := { ring := [a, b, c, d], head := head, tail := tail }

/-- Settled, enabled lines at `a`, with an access that has seen it. -/
abbrev onBus (a : Word) (s : State) : State :=
  { s with
    bus := { addr := a, prev := 0, stable := true, epoch := 8, ce := true, oe := true }
    acc := { isOpen := true, seen := some a } }

/-- Base state X of the BUS_LATCH vectors (95_test_vectors.md section 2.3). -/
abbrev stX : State := { onBus 0x200 s0 with oeseq := .driving, pinsVal := 0xA5, pinsTag := some 8 }

/-- A call in progress. -/
abbrev withCall (c : Call) (s : State) : State := { s with call := some c }

/-- An UPDATE call's record. -/
abbrev upd (data : List Byte) (i : Nat) (phase : UpdatePhase) : UpdateCall :=
  { data := data, timeout := 5, i := i, t0 := 0, chunk := [], left := 0, phase := phase }

/-- A component of the next state. -/
def got {α : Type} (r : StepResult) (f : State → α) : Option α :=
  match r with
  | .next t => some (f t)
  | .fault _ => none
  | .refused _ => none

/-! ## WellFormed refuses ill-formed terms -/

/-- 30_encoding.md R99(c): a = 2^18. -/
theorem test_wf_refuses_missing_line : Instr.wellFormed 18 (.busAddr 0x40000) = false := by decide
theorem test_wf_admits_last_address : Instr.wellFormed 18 (.busAddr 0x3FFFF) = true := by decide
/-- R93: a byte list longer than its u16 length. -/
theorem test_wf_refuses_long_update : Instr.wellFormed 18 (.update 0 (List.replicate 65536 0)) = false := by
  simp only [Instr.wellFormed, fitsLength, List.length_replicate]
  decide
theorem test_wf_refuses_long_write : Instr.wellFormed 18 (.romWrite (List.replicate 65536 0)) = false := by
  simp only [Instr.wellFormed, fitsLength, List.length_replicate]
  decide
theorem test_wf_admits_longest_write : Instr.wellFormed 18 (.romWrite (List.replicate 65535 0)) = true := by
  simp only [Instr.wellFormed, fitsLength, List.length_replicate]
  decide

/-! ## Words written out from the encoding tables: N1 to N20 -/

theorem test_decode_busAddr : decodeOp 18 [0x01, 0x01, 0x02, 0x01, 0x00] = .op (.busAddr 0x10201) 5 := by decide
theorem test_decode_busSettle : decodeOp 18 [0x02] = .op .busSettle 1 := by decide
theorem test_decode_busEnable :
    decodeOp 18 [0x03, 0x03] = .op (.busEnable true true) 2 ∧ decodeOp 18 [0x03, 0x01] = .op (.busEnable true false) 2 ∧
    decodeOp 18 [0x03, 0x02] = .op (.busEnable false true) 2 ∧ decodeOp 18 [0x03, 0x00] = .op (.busEnable false false) 2 := by
  decide
theorem test_decode_busLatch : decodeOp 18 [0x04] = .op .busLatch 1 := by decide
theorem test_decode_decoder : decodeOp 18 [0x10] = .op .oeseqStep 1 ∧ decodeOp 18 [0x11] = .op .drvShift 1 ∧
    decodeOp 18 [0x12] = .op .repStep 1 := by decide
theorem test_decode_responder : decodeOp 18 [0x18] = .op .respSample 1 ∧ decodeOp 18 [0x19] = .op .respServe 1 := by decide
theorem test_decode_controller : decodeOp 18 [0x20] = .op .irqW 1 ∧ decodeOp 18 [0x21] = .op .irqR 1 ∧
    decodeOp 18 [0x22] = .op .cpStep 1 := by decide
theorem test_decode_beginSession : decodeOp 18 [0x30, 0x45, 0x23, 0x01, 0x00] = .op (.beginSession 0x12345) 5 := by decide
theorem test_decode_endSession : decodeOp 18 [0x31] = .op .endSession 1 := by decide
theorem test_decode_update :
    decodeOp 18 [0x32, 0x0A, 0, 0, 0, 0x02, 0, 0x48, 0x69] = .op (.update 10 [0x48, 0x69]) 9 ∧
    decodeOp 18 [0x32, 0, 0, 0, 0, 0, 0] = .op (.update 0 []) 7 := by decide
theorem test_decode_suspend_resume : decodeOp 18 [0x33] = .op .suspend 1 ∧ decodeOp 18 [0x34] = .op .resume 1 := by decide
theorem test_decode_persist : decodeOp 18 [0x35, 0x00] = .op (.persist .romImage) 2 ∧
    decodeOp 18 [0x35, 0x01] = .op (.persist .config) 2 := by decide
theorem test_decode_setMask : decodeOp 18 [0x36, 0xFF, 0x7F, 0, 0] = .op (.setMask 0x7FFF) 5 := by decide
theorem test_decode_romSetptr : decodeOp 18 [0x37, 0x00, 0x01, 0, 0] = .op (.romSetptr 0x100) 5 := by decide
theorem test_decode_romGetptr : decodeOp 18 [0x38] = .op .romGetptr 1 := by decide
theorem test_decode_romWrite : decodeOp 18 [0x39, 0x02, 0, 0xDE, 0xAD] = .op (.romWrite [0xDE, 0xAD]) 5 := by decide
theorem test_decode_romRead : decodeOp 18 [0x3A, 0x02, 0] = .op (.romRead 2) 3 ∧
    decodeOp 18 [0x3A, 0x00, 0] = .op (.romRead 0) 3 := by decide
theorem test_decode_accflag : decodeOp 18 [0x3B] = .op .accflagRead 1 ∧ decodeOp 18 [0x3C] = .op .accflagClear 1 := by decide
theorem test_decode_tick : decodeOp 18 [0x40] = .op .tick 1 := by decide

/-- N27, N29 to N33, N35: refusals by name. -/
theorem test_decode_refusals :
    decodeOp 18 [0x00] = .invalid .unknownSelector ∧ decodeOp 18 [0x03, 0x04] = .invalid .badOperand ∧
    decodeOp 18 [0x35, 0x02] = .invalid .badOperand ∧ decodeOp 18 [0x01, 0, 0, 0x04, 0] = .invalid .badOperand ∧
    decodeOp 18 [0x39, 0x03, 0, 0xAA, 0xBB] = .invalid .badOperand ∧ decodeOp 18 [0x30, 0, 0x22] = .invalid .badOperand ∧
    decodeOp 18 [0x3D] = .invalid .unknownSelector ∧ decodeOp 18 [0x41] = .invalid .unknownSelector ∧
    decodeOp 18 [0xFF] = .invalid .unknownSelector := by decide

/-- N28, N34. -/
theorem test_decode_schedule :
    decodeSchedule 18 [0x02, 0x05] = ⟨[.busSettle], some (.unknownSelector, 1)⟩ ∧
    decodeSchedule 18 [0x36, 0x34, 0x12, 0, 0] = ⟨[.setMask 0x1234], none⟩ := by decide

/-- N36 to N46: the detectors' decode. -/
theorem test_classify_rows :
    classify 0x3E00 (masked 0x3F41 0xFFFF) = .out 0x41 ∧ classify 0x3E00 (masked 0x3E0C 0xFFFF) = .consume ∧
    classify 0x3E00 (masked 0x3E0D 0xFFFF) = .plain ∧ classify 0x3E00 (masked 0x13F41 0xFFFF) = .out 0x41 ∧
    classify 0x3E00 (masked 0x3EFF 0xFFFF) = .plain ∧ classify 0x3E00 (masked 0x3F00 0xFFFF) = .out 0x00 ∧
    classify 0x3E00 (masked 0x3FFF 0xFFFF) = .out 0xFF ∧ classify 0x3E00 (masked 0x4000 0xFFFF) = .plain ∧
    classify 0x3E00 (masked 0x3E10 0xFFFF) = .plain ∧ classify 0x3E00 (masked 0x13F41 0x3FFFF) = .plain := by decide

/-- R97: the window offsets of N36, N37, N38, N42, N45. -/
theorem test_decode_window :
    decodeWindow 0x141 = .mboxOut 0x41 ∧ decodeWindow 0x00C = .mboxConsume ∧ decodeWindow 0x00D = .plainRead ∧
    decodeWindow 0x1FF = .mboxOut 0xFF ∧ decodeWindow 0x000 = .plainRead := by decide

/-- R96, R97: words of the opcode table, numbered as it numbers them. -/
theorem test_decode_table_words :
    decodeTableWord 8 0x01 = some (.busAddr 0) ∧ decodeTableWord 8 0x32 = some (.update 0 []) ∧
    decodeTableWord 8 0x3A = some (.romRead 0) ∧ decodeTableWord 16 0x141 = some (.mboxOut 0x41) ∧
    decodeTableWord 16 0x00C = some .mboxConsume ∧ decodeTableWord 8 0x41 = none := by decide

/-- R106: the step after `withFetchWord` runs the word's instruction. -/
theorem test_step_runs_tick : got (step (s0.withFetchWord 8 0x40)) (·.nowMs) = some 1 := by decide
theorem test_step_runs_mboxOut : got (step (s0.withFetchWord 16 0x141)) (·.det.wfifo) = some [0x41] := by decide
theorem test_step_end : step s0 = .refused .scheduleEnd := rfl
/-- N28, R265(b): a schedule with an illegal selector is refused at its offset, before its first operation runs. -/
theorem test_step_refuses_schedule :
    step { s0 with sched := [0x02, 0x05] } = .refused (.decode .unknownSelector 1) := rfl
theorem test_step_refuses_operand :
    step { s0 with sched := [0x40, 0x03, 0x04] } = .refused (.decode .badOperand 1) := rfl

/-! ## Single steps -/

/-- B2. -/
theorem test_busAddr_moves : got (exec (.busAddr 0x300) { s0 with bus := { s0.bus with addr := 0x200, epoch := 8 } })
    (fun t => (t.bus.prev, t.bus.addr, t.bus.stable, t.bus.epoch)) = some (0x200, 0x300, false, 9) := by decide
/-- D1, through BUS_ADDR: the access at 0x2341 closes and is an outbound byte. -/
theorem test_busAddr_captures : got (exec (.busAddr 0x300) (onBus 0x2341 ses)) (fun t => (t.det.wfifo, t.acc.seen)) =
    some ([0x41], none) := by decide
/-- B8. -/
theorem test_busSettle_sees : got (exec .busSettle { s0 with
      bus := { s0.bus with addr := 0x300, ce := true, oe := true }, acc := { isOpen := true, seen := none } })
    (·.acc.seen) = some (some 0x300) := by decide
/-- B6. -/
theorem test_busEnable_opens : got (exec (.busEnable true true) { s0 with
      bus := { s0.bus with addr := 0x200, stable := true, ce := true } }) (·.acc) =
    some { isOpen := true, seen := some 0x200 } := by decide
/-- D2, through BUS_ENABLE. -/
theorem test_busEnable_consumes : got (exec (.busEnable false false) (onBus 0x220C ses)) (·.det.rcount) = some 1 := by decide
/-- B10. -/
theorem test_busLatch_fresh : got (exec .busLatch stX) (·.history) = some [.latch 0xA5 true] := by decide
/-- B17: the first test that fails wins; the latched value itself is free. -/
theorem test_busLatch_first_failure :
    got (exec .busLatch { stX with bus := { stX.bus with oe := false, stable := false } }) (·.history.tail) =
      some [.timingViolation .notEnabled] := by decide
/-- B19. -/
theorem test_oeseqStep_drives : got (exec .oeseqStep (onBus 0x200 s0)) (·.oeseq) = some .driving := by decide
/-- B22: holds. -/
theorem test_oeseqStep_holds : exec .oeseqStep s0 = .refused .infeasible := rfl
/-- B23. -/
theorem test_drvShift_moves : got (exec .drvShift { s0 with outLatch := 0x3C, outTag := some 9, pinsTag := some 8 })
    (fun t => (t.pinsVal, t.pinsTag)) = some (0x3C, some 9) := by decide
/-- B26, B28. -/
theorem test_repStep_reports : got (exec .repStep (onBus 0x200 s0)) (fun t => (t.accessFlag, t.repSeen)) =
    some (true, true) := by decide
theorem test_repStep_rearms : got (exec .repStep { s0 with repSeen := true, accessFlag := true })
    (fun t => (t.accessFlag, t.repSeen)) = some (true, false) := by decide
/-- V1. -/
theorem test_respSample_single : got (exec .respSample (onBus 0x200 s0)) (fun t => (t.resp.a, t.resp.aTag, t.resp.phase)) =
    some (0x200, some 8, .serve) := by decide
/-- V5. -/
theorem test_respSample_rejects : got (exec .respSample { onBus 0x200 s0 with
      cfg := { Config.paramsK with sampleMode := .double }
      resp := { s0.resp with phase := .s2, s1 := 0x300 } }) (fun t => (t.resp.s1, t.resp.s1Tag, t.resp.phase)) =
    some (0x200, some 8, .s2) := by decide
/-- V7. -/
theorem test_respServe_masks : got (exec .respServe { s0 with
      rom := [(0x200, 0xA5)], resp := { s0.resp with phase := .serve, a := 0x10200, aTag := some 8 } })
    (fun t => (t.outLatch, t.outTag, t.resp.phase)) = some (0xA5, some 8, .s1) := by decide
/-- H4: the outbound sequence wraps. -/
theorem test_irqW_wraps : got (exec .irqW { ses with
      rom := e1 ++ [(0x2214, 0xFF), (0x2215, 0xFF), (0x2216, 0xFF), (0x2217, 0xFF)], det := { det0 with wfifo := [0x41] } })
    (fun t => (t.rom, t.outq.head, t.det.wfifo)) = some (e1, 1, []) := by decide
/-- H3. -/
theorem test_irqW_defers : got (exec .irqW { ses with
      det := { det0 with wfifo := [0x44] }, deferred := [0x43], outq := q4 1 0 0 0 1 0 }) (·.deferred) =
    some [0x43, 0x44] := by decide
/-- H7. -/
theorem test_irqR_offers_next : got (exec .irqR { ses with
      rom := e1 ++ [(0x2208, 1), (0x220C, 0x48), (0x2210, 1)], det := { det0 with rcount := 1 }, inq := q4 0x48 0x69 0 0 2 0 })
    (fun t => (t.field 0x2200 8, t.field 0x2200 12, t.field 0x2200 16, t.inq.tail)) = some (1, 0x69, 2, 1) := by decide
/-- H8. -/
theorem test_irqR_last_byte : got (exec .irqR { ses with
      rom := e1 ++ [(0x2208, 1), (0x220C, 0x48), (0x2210, 1)], det := { det0 with rcount := 1 }, inq := q4 0x48 0 0 0 1 0 })
    (fun t => (t.field 0x2200 8, t.field 0x2200 12, t.field 0x2200 16)) = some (0, 0x48, 1) := by decide
/-- S2: BEGIN_SESSION's base under a full mask. -/
theorem test_begin_base : got (exec .cpStep { withCall (.begin 0xFFFFFFFF 0 .b1) s0 with addressMask := 0x3FFFF })
    (·.inflight) = some (some (0x3FE00, 0x40000)) := by decide
set_option maxRecDepth 10000 in
/-- S1: the window E1. -/
theorem test_begin_window : got (exec .cpStep (withCall (.begin 0x12345 0x2200 .b2) s0)) (·.rom) = some e1 := by decide
/-- S8. -/
theorem test_end_closes : got (exec .cpStep (withCall .endSession { ses with inq := q4 1 2 0 0 2 0 }))
    (fun t => (t.field 0x2200 4, t.sess.active, t.inq.count, t.det.armed, t.det.wirqEn)) =
      some (0, false, 0, true, false) := by decide
/-- U5: the inbound sequence wraps. -/
theorem test_update_publishes : got (exec .cpStep (withCall (.update (upd [0x55] 0 .u1)) { ses with
      rom := e1 ++ [(0x2210, 0xFF), (0x2211, 0xFF), (0x2212, 0xFF), (0x2213, 0xFF)] }))
    (fun t => (t.field 0x2200 8, t.field 0x2200 12, t.field 0x2200 16)) = some (1, 0x55, 0) := by decide
/-- U7. -/
theorem test_update_times_out : got (exec .cpStep (withCall (.update { upd [0x20] 0 .u1 with chunk := [0x41] }) { ses with
      cfg := { Config.paramsK with inqCap := 1 }, inq := { ring := [0x10], head := 1, tail := 0 }, nowMs := 5 })) (·.history) =
    some [.xfer [0x41], .result .update (.timeout 0)] := by decide
/-- M1, M2. -/
theorem test_suspend : got (exec .cpStep (withCall .suspend s0)) (fun t => (t.suspended, t.history)) =
    some (true, [.result .suspend .ok]) := by decide
theorem test_suspend_nested : got (exec .cpStep (withCall .suspend { s0 with suspended := true })) (·.faulted) =
    some (some .suspendNested) := by decide
/-- V11. -/
theorem test_resume : got (exec .cpStep (withCall .resume { s0 with suspended := true, resp := { s0.resp with phase := .s2 } }))
    (fun t => (t.suspended, t.resp.phase)) = some (false, .s1) := by decide
/-- M11. -/
theorem test_persist : got (exec .cpStep (withCall (.persist .config) { s0 with suspended := true })) (·.history) =
    some [.result .persist .ok] := by decide
/-- M7, M5. -/
theorem test_setMask : got (exec .cpStep (withCall (.setMask 0x3FFFF) { s0 with suspended := true })) (·.addressMask) =
    some 0x3FFFF := by decide
theorem test_setMask_too_large : got (exec .cpStep (withCall (.setMask 0x7FFFF) { s0 with suspended := true })) (·.faulted) =
    some (some .maskInvalid) := by decide
/-- P-1. -/
theorem test_setPtr : got (exec .cpStep (withCall (.setPtr 0x100) s0)) (·.romPtr) = some 0x100 := by decide
theorem test_getPtr : got (exec .cpStep (withCall .getPtr { s0 with romPtr := 0x100 })) (·.history) =
    some [.result .getPtr (.pointer 0x100)] := by decide
/-- P-2, step W2. -/
theorem test_romWrite : got (exec .cpStep (withCall (.romWrite [0xDE, 0xAD] .w2) { s0 with romPtr := 0x100 }))
    (fun t => (t.rom, t.romPtr)) = some ([(0x100, 0xDE), (0x101, 0xAD)], 0x102) := by decide
/-- P-10. -/
theorem test_romWrite_overlap : got (exec .cpStep (withCall (.romWrite [1, 2] .w1) { ses with romPtr := 0x21FF })) (·.faulted) =
    some (some .mailboxOverlapWrite) := by decide
/-- P-3, P-7. -/
theorem test_romRead : got (exec .cpStep (withCall (.romRead 2) { s0 with rom := [(0x100, 0xDE), (0x101, 0xAD)], romPtr := 0x100 }))
    (fun t => (t.history, t.romPtr)) = some ([.result .romRead (.bytes [0xDE, 0xAD])], 0x102) := by decide
theorem test_romRead_past_end : got (exec .cpStep (withCall (.romRead 1) { s0 with romPtr := 0x40000 })) (·.faulted) =
    some (some .romOutOfRange) := by decide
/-- B29, B30. -/
theorem test_accflagRead : got (exec .cpStep (withCall .accRead { s0 with accessFlag := true })) (·.history) =
    some [.result .accRead (.flag 1)] := by decide
theorem test_accflagClear : got (exec .cpStep (withCall .accClear { s0 with accessFlag := true, repSeen := true }))
    (fun t => (t.accessFlag, t.repSeen)) = some (false, true) := by decide
/-- M12, M13. -/
theorem test_issue_while_suspended : got (exec .romGetptr { s0 with suspended := true }) (·.faulted) =
    some (some .callWhileSuspended) := by decide
theorem test_issue_busy : exec .suspend (withCall .getPtr s0) = .refused .infeasible := rfl
/-- T1. -/
theorem test_tick : got (exec .tick { s0 with nowMs := 41, suspended := true }) (·.nowMs) = some 42 := by decide
/-- N21, N22: TREAD's expansions. -/
theorem test_tread_expands :
    ((expandTread 0x2210 s0).map encodeSchedule = some
      [0x01, 0x10, 0x22, 0, 0, 0x02, 0x03, 0x03, 0x10, 0x18, 0x19, 0x11, 0x04, 0x03, 0x00, 0x10]) ∧
    ((expandTread 0x2210 { s0 with cfg := { Config.paramsK with sampleMode := .double } }).map encodeSchedule = some
      [0x01, 0x10, 0x22, 0, 0, 0x02, 0x03, 0x03, 0x10, 0x18, 0x18, 0x19, 0x11, 0x04, 0x03, 0x00, 0x10]) := by decide
/-- M4, M12: a CALL ends at the step that faults; TICK is no Host operation. -/
theorem test_call_expands_to_fault :
    expandCall (.setMask 0x1234) { s0 with suspended := true } = some [.setMask 0x1234, .cpStep] ∧
    expandCall .romGetptr { s0 with suspended := true } = some [.romGetptr] ∧ expandCall .tick s0 = none := by decide
/-- R104: four latched bytes, little-endian. -/
theorem test_assemble32 : assemble32 [0x50, 0x49, 0x43, 0x4F] = some 0x4F434950 := by decide
set_option maxRecDepth 4000 in
/-- Y2: the target reads the magic word. -/
theorem test_tread32_value : (runTread32 0x2200 ses).map (·.1) = some 0x4F434950 := by decide
/-- R296: a suspension does not make waiting events caught up; a fault ends a run badly, a call leaves it incomplete. -/
theorem test_end_of_run :
    caughtUp { ses with suspended := true, det := { det0 with wfifo := [0x41] } } = false ∧
    endsWell { s0 with suspended := true } = true ∧ endsWell s0 = false ∧ caughtUp s0 = true ∧
    endsBadly { s0 with faulted := some .maskInvalid } = true ∧ incomplete (withCall .getPtr s0) = true := by decide
/-- R11(a), R4: window rows and address lines that do not exist are no agent's steps. -/
theorem test_agent_steps :
    isAgentStep 18 (.mboxOut 0) = false ∧ isAgentStep 18 .mboxConsume = false ∧ isAgentStep 18 .plainRead = false ∧
    isAgentStep 18 (.busAddr 0x40000) = false ∧ isAgentStep 18 (.busAddr 0x3FFFF) = true := by decide
/-- R6: with CLOCK_COUNTING no step of any agent is taken, and no schedule expands. -/
theorem test_refused_configuration :
    let s : State := { s0 with cfg := { Config.paramsK with clockCounting := true } }
    enabled .tick s = false ∧ enabled .tick s0 = true ∧ expandLines [.op .tick] s = none ∧
    expandLines [.op .tick] s0 = some [.tick] ∧ (runTread32 0 s).isNone = true := by decide
/-- R103: lines of the text form. -/
theorem test_text_lines :
    parseLine "BUS_ADDR 0x200 ; epoch 1".toList = some [.op (.busAddr 0x200)] ∧
    parseLine "CALL BEGIN_SESSION 0x2200".toList = some [.call (.beginSession 0x2200)] := by decide

/-! ## Witnesses: for each statement with hypotheses, a state and operands that meet them, clause by clause -/

theorem test_witness_DecodeOfEncodeIsIdentity :
    Instr.wellFormed 18 (.busAddr 0x3FFFF) = true ∧ Instr.wellFormed 18 (.update 0xFFFFFFFF [0x48]) = true ∧
    Instr.wellFormed 18 (.mboxOut 0xFF) = true := by decide

theorem test_witness_ScheduleDecodesToItsOperations :
    ∀ i ∈ [Instr.busAddr 0x3FFFF, .romWrite [], .tick], i.wellFormed 18 = true ∧ encodeBytes i ≠ [] := by decide

theorem test_witness_DecodedOperationFitsItsBytes :
    decodeOp 18 [0x39, 0x01, 0x00, 0xAA, 0x40] = .op (.romWrite [0xAA]) 4 ∧ decodeOp 18 [0x40] = .op .tick 1 := by decide

/-- The ends of every range of R98, and their neighbours that are assigned. -/
theorem test_unassigned_boundaries :
    (∀ sel ∈ [(0x00 : Byte), 0x05, 0x0F, 0x13, 0x17, 0x1A, 0x1F, 0x23, 0x2F, 0x3D, 0x3F, 0x41, 0xFF],
      decodeOp 18 [sel] = .invalid .unknownSelector) ∧
    (∀ sel ∈ [(0x01 : Byte), 0x04, 0x10, 0x12, 0x18, 0x19, 0x20, 0x22, 0x30, 0x3C, 0x40],
      decodeOp 18 [sel] ≠ .invalid .unknownSelector) := by decide

theorem test_witness_IllegalEncodingsAreRefused :
    let s : State := { s0 with sched := [0x40, 0x41] }
    configProblem s.cfg = none ∧ s.faulted = none ∧ s.sched = encodeSchedule [.tick] ++ [0x41] ∧
    (∀ i ∈ [Instr.tick], i.wellFormed s.cfg.addrBits = true ∧ encodeBytes i ≠ []) ∧
    decodeOp s.cfg.addrBits [0x41] = .invalid .unknownSelector := by decide

/-- The edges of R99: e = 3 and 4, r = 1 and 2, a = 2^18 - 1 and 2^18, one byte short and complete. -/
theorem test_bad_operand_boundaries :
    decodeOp 18 [0x03, 0x04] = .invalid .badOperand ∧ decodeOp 18 [0x03, 0x07] = .invalid .badOperand ∧
    decodeOp 18 [0x03, 0x03] ≠ .invalid .badOperand ∧ decodeOp 18 [0x35, 0x02] = .invalid .badOperand ∧
    decodeOp 18 [0x35, 0x01] ≠ .invalid .badOperand ∧ decodeOp 18 [0x01, 0xFF, 0xFF, 3, 0] ≠ .invalid .badOperand ∧
    decodeOp 18 [0x01, 0, 0, 4, 0] = .invalid .badOperand ∧ decodeOp 18 [0x39, 1, 0] = .invalid .badOperand ∧
    decodeOp 18 [0x39, 1, 0, 5] ≠ .invalid .badOperand := by decide

theorem test_witness_StepRunsDecodedOperation :
    (configProblem s0.cfg = none ∧ (decodeSchedule s0.cfg.addrBits [0x40]).invalid = none ∧ s0.faulted = none ∧
      decodeOp s0.cfg.addrBits [0x40] = .op .tick 1) ∧ s0.sched = [] ∧
    configProblem { Config.paramsK with clockCounting := true } = some .clockCountingVariant := by decide

/-- The edges of R5 and R6: each parameter just inside and just outside. -/
theorem test_configuration_boundaries :
    configProblem { Config.paramsK with addrBits := 8 } = some .addrBits ∧
    configProblem { Config.paramsK with addrBits := 32 } = none ∧
    configProblem { Config.paramsK with addrBits := 33 } = some .addrBits ∧
    configProblem { Config.paramsK with romCap := 512, initialMask := 0x1FF } = none ∧
    configProblem { Config.paramsK with romCap := 256, initialMask := 0xFF } = some .romCap ∧
    configProblem { Config.paramsK with romCap := 2 ^ 33 } = some .romCap ∧
    configProblem { Config.paramsK with initialMask := 0x3FFFF } = none ∧
    configProblem { Config.paramsK with initialMask := 0x7FFFF } = some .initialMask ∧
    configProblem { Config.paramsK with inqCap := 0 } = some .capacity ∧
    configProblem { Config.paramsK with smUnits := 3 } = none ∧
    configProblem { Config.paramsK with smUnits := 2 } = some .smUnits := by decide

/-- A state that a fault has ended. -/
abbrev endedRun : State := { s0 with faulted := some .detectorOverflow, history := [.fault .detectorOverflow] }

theorem test_witness_FaultedRunTakesNoStep :
    endedRun.faulted = some .detectorOverflow ∧ configProblem endedRun.cfg = none ∧
    (decodeSchedule endedRun.cfg.addrBits endedRun.sched).invalid = none := by decide

/-- Both FIFOs full. -/
abbrev full : State := { ses with det := { det0 with wfifo := [1, 2, 3, 4], rcount := 4 } }

theorem test_witness_FaultIsRecorded :
    got (exec (.mboxOut 5) full) (·.faulted) = some (some .detectorOverflow) := by decide

theorem test_witness_HistoryOnlyGrows : exec .tick s0 = .next { s0 with nowMs := 1 } := rfl

theorem test_witness_ResetIsGood :
    let d : ResetDraws :=
      { busAddr := 0x3FFFF, outLatch := 0xFF, pinsVal := 1, respS1 := 0x3FFFF, respA := 0, inqRing := [1, 2, 3, 4],
        outqRing := [5, 6, 7, 8] }
    configProblem Config.paramsK = none ∧ isAddr Config.paramsK.addrBits d.busAddr = true ∧
    isAddr Config.paramsK.addrBits d.respS1 = true ∧ isAddr Config.paramsK.addrBits d.respA = true ∧
    d.inqRing.length = Config.paramsK.inqCap ∧ d.outqRing.length = Config.paramsK.outqCap := by decide

/-- A good state from its checks; the window's are given at the base of the session. -/
theorem good_of {s : State} (base : Word) (hb : s.sess.base = some base)
    (hw : WindowPlaced s base ∧ PendingMirrors s base ∧ InboundByteIsFront s base ∧ InboundSeqCounts s base ∧
      OutboundSeqCounts s base)
    (h : ConfigOk s ∧ QueueOk s.inq s.cfg.inqCap ∧ QueueOk s.outq s.cfg.outqCap ∧ SessionOk s ∧ IdleEmpty s ∧ FifosOk s ∧
      IdleNotInFlight s ∧ BufferOk s ∧ MaskOk s ∧ AccessOk s ∧ DetBaseAligned s ∧ UnitsOk s ∧ PhaseOk s ∧ callOk s = true)
    (ha : AddressesOk s) (ht : TagsOk s) : Good s where
  config := h.1
  r44 :=
    { inqOk := h.2.1
      outqOk := h.2.2.1
      session := h.2.2.2.1
      idle := h.2.2.2.2.1
      window := by
        intro b _ hb'
        rw [hb] at hb'
        cases hb'
        exact hw
      fifos := h.2.2.2.2.2.1
      inflight := h.2.2.2.2.2.2.1 }
  buffer := h.2.2.2.2.2.2.2.1
  mask := h.2.2.2.2.2.2.2.2.1
  addresses := ha
  access := h.2.2.2.2.2.2.2.2.2.1
  detBase := h.2.2.2.2.2.2.2.2.2.2.1
  units := h.2.2.2.2.2.2.2.2.2.2.2.1
  tags := ht
  phase := h.2.2.2.2.2.2.2.2.2.2.2.2.1
  callRecord := h.2.2.2.2.2.2.2.2.2.2.2.2.2

/-- A session with bytes on their way in both directions: two inbound, one queued outbound, one deferred, one detected. -/
abbrev busy : State :=
  { ses with
    rom := e1 ++ [(0x2208, 1), (0x220C, 0x48), (0x2210, 1), (0x2214, 1)]
    inq := q4 0x48 0x69 0 0 2 0
    outq := q4 0x41 0 0 0 1 0
    deferred := [0x42]
    det := { det0 with wfifo := [0x43], rcount := 1 } }

theorem test_good_busy : Good busy := by
  refine good_of 0x2200 rfl (by decide) (by decide) ⟨by decide, by decide, by decide, by decide, ?_⟩ ?_
  · intro a h
    cases h
  · refine ⟨?_, ?_, ?_, ?_, ?_, ?_⟩ <;> intro x <;> first | (cases x; done) | skip
    all_goals intro h; cases h

/-- `busy` inside the finish of UPDATE. -/
abbrev finishing : State := withCall (.update { upd [] 0 .u2 with left := 2, chunk := [0x40] }) busy

theorem test_good_finishing : Good finishing := by
  refine good_of 0x2200 rfl (by decide) (by decide) ⟨by decide, by decide, by decide, by decide, ?_⟩ ?_
  · intro a h
    cases h
  · refine ⟨?_, ?_, ?_, ?_, ?_, ?_⟩ <;> intro x <;> first | (cases x; done) | skip
    all_goals intro h; cases h

theorem test_witness_StepKeepsGood :
    Good busy ∧ Good { busy with sched := [0x40] } ∧
    step { busy with sched := [0x40] } = .next { busy with nowMs := 1, pos := 1 } ∧
    ({ busy with nowMs := 1, pos := 1 } : State).faulted = none := by
  refine ⟨test_good_busy, ?_, rfl, rfl⟩
  have h := test_good_busy
  exact
    { config := h.config, r44 := ⟨h.r44.inqOk, h.r44.outqOk, h.r44.session, h.r44.idle, h.r44.window, h.r44.fifos, h.r44.inflight⟩
      buffer := h.buffer, mask := h.mask, addresses := h.addresses, access := h.access, detBase := h.detBase, units := h.units
      tags := h.tags, phase := h.phase, callRecord := h.callRecord }

theorem test_witness_StepKeepsBuffer :
    BufferOk { busy with sched := [0x20] } ∧
    got (step { busy with sched := [0x20] }) (·.deferred) = some [0x42, 0x43] := by decide

theorem test_witness_GoodStatesNeverStopOnAFault : Good busy ∧ busy.faulted = none := ⟨test_good_busy, rfl⟩

/-- Clause by clause: the address already driven; no access open; open and not armed; open on a settled address; open and never settled. -/
theorem test_witness_BusAddrMovesTheLines :
    (s0.faulted = none ∧ (0 : Word) = s0.bus.addr) ∧
    ((1 : Word) ≠ s0.bus.addr ∧ s0.acc.isOpen = false) ∧
    ((1 : Word) ≠ (onBus 0 s0).bus.addr ∧ (onBus 0 s0).acc.isOpen = true ∧ (onBus 0 s0).det.armed = false) ∧
    (let s := onBus 0x2341 ses
     (1 : Word) ≠ s.bus.addr ∧ s.acc.isOpen = true ∧ s.det.armed = true ∧ s.acc.seen = some 0x2341) ∧
    (let s : State := { ses with acc := { isOpen := true, seen := none } }
     (1 : Word) ≠ s.bus.addr ∧ s.acc.isOpen = true ∧ s.det.armed = true ∧ s.acc.seen = none) := by decide

/-- A row that faults ends BUS_ADDR's step, and one that does not lets it go on. -/
theorem test_busAddr_rows :
    got (exec (.busAddr 1) (onBus 0x2341 full)) (fun t => (t.faulted, t.bus.addr)) =
      some (some .detectorOverflow, 0x2341) ∧
    got (exec (.busAddr 1) (onBus 0x2341 ses)) (fun t => (t.faulted, t.bus.addr)) = some (none, 1) := by decide

theorem test_witness_BusSettleSettles :
    (onBus 0 s0).bus.stable = true ∧
    (let s : State := { s0 with acc := { isOpen := true, seen := none } }
     s.faulted = none ∧ s.bus.stable = false ∧ s.acc.isOpen = true ∧ s.acc.seen = none) ∧
    (s0.bus.stable = false ∧ s0.acc.isOpen = false) ∧
    (let s : State := { s0 with acc := { isOpen := true, seen := some 0 } }
     s.bus.stable = false ∧ s.acc.seen ≠ none) := by decide

theorem test_witness_BusEnableOpensAndCloses :
    (s0.bus.ce && s0.bus.oe) = (true && false) ∧
    ((s0.bus.ce && s0.bus.oe) = false ∧ (true && true) = true) ∧
    (let s := onBus 0x200 s0
     (s.bus.ce && s.bus.oe) = true ∧ (true && false) = false ∧ s.det.armed = false) ∧
    (let s := onBus 0x220C ses
     (s.bus.ce && s.bus.oe) = true ∧ (false && true) = false ∧ s.det.armed = true ∧ s.acc.seen = some 0x220C) ∧
    (let s : State := { onBus 0 ses with acc := { isOpen := true, seen := none } }
     (s.bus.ce && s.bus.oe) = true ∧ (false && false) = false ∧ s.det.armed = true ∧ s.acc.seen = none) := by decide

/-- A row that faults ends BUS_ENABLE's step with the new enables. -/
theorem test_busEnable_faulting_row :
    got (exec (.busEnable false false) (onBus 0x220C full)) (fun t => (t.faulted, t.bus.ce, t.acc.isOpen)) =
      some (some .detectorOverflow, false, true) := by decide

/-- Base state X and the changes of vectors B11 to B16. -/
theorem test_witness_BusLatchOutcome :
    let en (s : State) : Bool := s.bus.ce && s.bus.oe
    (stX.faulted = none ∧ en stX = true ∧ stX.bus.stable = true ∧ stX.oeseq = .driving ∧ stX.pinsTag = some stX.bus.epoch) ∧
    en { stX with bus := { stX.bus with oe := false } } = false ∧
    (let s : State := { stX with bus := { stX.bus with stable := false } }
     en s = true ∧ s.bus.stable = false) ∧
    (let s : State := { stX with oeseq := .released }
     en s = true ∧ s.bus.stable = true ∧ s.oeseq = .released) ∧
    (let s : State := { stX with pinsTag := some 7, suspended := true }
     en s = true ∧ s.bus.stable = true ∧ s.oeseq = .driving ∧ s.pinsTag ≠ some s.bus.epoch ∧ s.suspended = true) ∧
    (let s : State := { stX with pinsTag := none }
     en s = true ∧ s.bus.stable = true ∧ s.oeseq = .driving ∧ s.pinsTag ≠ some s.bus.epoch ∧ s.suspended = false) := by decide

/-- One place left in each FIFO, and detectors that are not armed. -/
theorem test_witness_WindowRowsRecordEvents :
    let s : State := { ses with det := { det0 with wfifo := [1, 2, 3], rcount := 3 } }
    s.faulted = none ∧ s.det.armed = true ∧ s.suspended = false ∧ s.det.wfifo.length < s.cfg.detFifoDepth ∧
    s.det.rcount < s.cfg.detFifoDepth ∧ s0.det.armed = false := by decide

theorem test_witness_FullDetectorFifo :
    full.faulted = none ∧ full.det.armed = true ∧ full.suspended = false ∧
    full.cfg.detFifoDepth ≤ full.det.wfifo.length ∧ full.cfg.detFifoDepth ≤ full.det.rcount := by decide

theorem test_witness_CaptureWhileSuspended :
    let s : State := { full with suspended := true }
    s.faulted = none ∧ s.det.armed = true ∧ s.suspended = true := by decide

theorem test_witness_MalformedAccessIsDrawn :
    let s : State := { ses with
      bus := { s0.bus with ce := true, oe := true }, acc := { isOpen := true, seen := none }
      det := { det0 with wfifo := [1, 2, 3], rcount := 3 } }
    s.faulted = none ∧ (s.bus.ce && s.bus.oe) = true ∧ ((true && false) = false ∧ (false && true) = false) ∧
    s.det.armed = true ∧ s.acc.seen = none ∧ s.suspended = false ∧ s.det.wfifo.length < s.cfg.detFifoDepth ∧
    s.det.rcount < s.cfg.detFifoDepth ∧ (1 : Word) ≠ s.bus.addr ∧ s.acc.isOpen = true := by decide

theorem test_witness_OeseqFollowsEnable :
    let en (s : State) : Bool := s.bus.ce && s.bus.oe
    (s0.faulted = none ∧ en (onBus 0 s0) = true ∧ (onBus 0 s0).oeseq = .released) ∧
    (let s : State := { s0 with oeseq := .driving }
     en s = false ∧ s.oeseq = .driving) ∧
    (en stX = true ∧ stX.oeseq = .driving) ∧ (en s0 = false ∧ s0.oeseq = .released) := by decide

/-- The tag alone differs (the same byte, a new epoch); nothing differs. -/
theorem test_witness_DrvShiftMovesTheQueuedByte :
    let s : State := { s0 with outTag := some 9, pinsTag := some 8 }
    s.faulted = none ∧ (s.pinsVal, s.pinsTag) ≠ (s.outLatch, s.outTag) ∧
    (s0.pinsVal, s0.pinsTag) = (s0.outLatch, s0.outTag) := by decide

theorem test_witness_RepStepReportsOnce :
    let en (s : State) : Bool := s.bus.ce && s.bus.oe
    (s0.faulted = none ∧ en (onBus 0 s0) = true ∧ (onBus 0 s0).repSeen = false) ∧
    (en { s0 with repSeen := true } = false ∧ { s0 with repSeen := true }.repSeen = true) ∧ en s0 = s0.repSeen := by decide

/-- A step that changes the owner, and one that changes the byte of driven lines. -/
theorem test_witness_DataLinesChangeOnlyAtDecoderSteps :
    got (exec .oeseqStep (onBus 0 s0)) dataLines = some (.driven 0) ∧ dataLines (onBus 0 s0) = .highZ ∧
    got (exec .drvShift { stX with outLatch := 1 }) dataLines = some (.driven 1) ∧
    dataLines { stX with outLatch := 1 } = .driven 0xA5 := by decide

/-- B25: BUF_EN with and without a buffer. -/
theorem test_bufEn :
    let p : Params := { Config.paramsK with bufPresent := true }
    bufEn { stX with cfg := p } = some true ∧ bufEn { s0 with cfg := p } = some false ∧ bufEn s0 = none ∧
    got (exec .oeseqStep { onBus 0 s0 with cfg := p }) bufEn = some (some true) := by decide

theorem test_witness_DecoderIgnoresTheRestOfTheState :
    let s := onBus 0x200 s0
    let u := onBus 0x200 { busy with suspended := true }
    s.faulted = none ∧ u.faulted = none ∧ u.bus = s.bus ∧ u.oeseq = s.oeseq ∧ u.outLatch = s.outLatch ∧ u.outTag = s.outTag ∧
    u.pinsVal = s.pinsVal ∧ u.pinsTag = s.pinsTag ∧ u.repSeen = s.repSeen ∧ u.accessFlag = s.accessFlag ∧
    got (exec .oeseqStep s) (·.oeseq) = some .driving ∧ got (exec .repStep s) (·.repSeen) = some true ∧
    got (exec .drvShift { s with outTag := some 8 }) (·.pinsTag) = some (some 8) := by decide

/-- A responder in `Double` mode at S2, with a first sample. -/
abbrev atS2 (x : Word) (s : State) : State :=
  { s with cfg := { Config.paramsK with sampleMode := .double }, resp := { s0.resp with phase := .s2, s1 := x } }

theorem test_witness_SampleOfSettledLines :
    let s := onBus 0x200 s0
    let d : State := { s with cfg := { Config.paramsK with sampleMode := .double } }
    (s.faulted = none ∧ s.suspended = false ∧ s.bus.stable = true ∧ s.cfg.sampleMode = .single ∧ s.resp.phase = .s1) ∧
    (d.cfg.sampleMode = .double ∧ d.resp.phase = .s1) ∧
    ((atS2 0x200 s).resp.phase = .s2 ∧ (atS2 0x200 s).resp.s1 = (atS2 0x200 s).bus.addr) ∧
    (atS2 0x300 s).resp.s1 ≠ (atS2 0x300 s).bus.addr := by decide

theorem test_witness_SampleOfMovingLines :
    let s : State := { s0 with bus := { s0.bus with addr := 0x3FFFF } }
    let d : State := { s with cfg := { Config.paramsK with sampleMode := .double } }
    (s.faulted = none ∧ s.suspended = false ∧ s.bus.stable = false ∧ isAddr s.cfg.addrBits s.bus.addr = true ∧
      isAddr s.cfg.addrBits s.bus.prev = true ∧ s.cfg.sampleMode = .single ∧ s.resp.phase = .s1) ∧
    (d.cfg.sampleMode = .double ∧ d.resp.phase = .s1) ∧ (atS2 0 s).resp.phase = .s2 := by decide

/-- The masked address 0x2204 just outside the range in flight, on either side, and its first and last offset. -/
theorem test_witness_RespServeForwardsTheByte :
    let s : State := { s0 with resp := { s0.resp with phase := .serve, a := 0x12204 } }
    let o := (s.resp.a &&& s.addressMask).toNat
    s.faulted = none ∧ s.suspended = false ∧ s.resp.phase = .serve ∧ o < s.cfg.romCap ∧ s.inflight = none ∧
    ¬ (0x2205 ≤ o ∧ o < 0x2400) ∧ ¬ (0x2000 ≤ o ∧ o < 0x2204) ∧ (0x2204 ≤ o ∧ o < 0x2400) ∧
    (0x2000 ≤ o ∧ o < 0x2205) := by decide

theorem test_witness_ResponderIsIsolated :
    let s := onBus 0x200 s0
    let u : State := { onBus 0x200 s0 with det := det0, romPtr := 7, accessFlag := true, call := some .getPtr }
    got (exec .respSample s) (·.resp.a) = some 0x200 ∧ u.cfg = s.cfg ∧ u.faulted = none ∧ u.suspended = s.suspended ∧
    u.bus = s.bus ∧ u.addressMask = s.addressMask ∧ u.rom = s.rom ∧ u.inflight = s.inflight ∧ u.resp = s.resp ∧
    u.outLatch = s.outLatch ∧ u.outTag = s.outTag ∧ u.draws = s.draws := by decide

theorem test_witness_ServedReadIsFresh :
    let s : State := { onBus 0x103FF s0 with oeseq := .driving, inflight := some (0x400, 0x600) }
    let o := (s.bus.addr &&& s.addressMask).toNat
    s.faulted = none ∧ s.suspended = false ∧ s.resp.phase = .s1 ∧ s.bus.stable = true ∧ s.bus.ce = true ∧ s.bus.oe = true ∧
    s.oeseq = .driving ∧ o < s.cfg.romCap ∧ ¬ (0x400 ≤ o ∧ o < 0x600) := by decide

/-- One place left in the Outbound Queue, in the last window of the buffer. -/
theorem test_witness_IrqWAcceptsTheByte :
    let s : State := { ses with
      sess := { active := true, base := some 0x3FE00 }, det := { det0 with wfifo := [0x41] }, outq := q4 1 2 3 0 3 0 }
    s.faulted = none ∧ Memory.wf s.rom = true ∧ s.det.wirqEn = true ∧ s.det.wfifo = 0x41 :: [] ∧ s.suspended = false ∧
    s.deferred = [] ∧ s.outq.head - s.outq.tail < s.cfg.outqCap ∧ s.sess.base = some 0x3FE00 ∧
    (0x3FE00 : Word).toNat + 24 ≤ s.cfg.romCap := by decide

theorem test_witness_IrqWDefersTheByte :
    let s : State := { ses with det := { det0 with wfifo := [0x41] }, outq := q4 1 2 3 4 4 0 }
    s.faulted = none ∧ s.det.wirqEn = true ∧ s.det.wfifo = 0x41 :: [] ∧ s.suspended = false ∧
    s.cfg.outqCap ≤ s.outq.head - s.outq.tail ∧ busy.det.wfifo = 0x43 :: [] ∧ busy.deferred ≠ [] := by decide

/-- An empty queue, one byte, two bytes. -/
theorem test_witness_IrqRRetiresTheByte :
    let s : State := { ses with det := { det0 with rcount := 1 } }
    s.faulted = none ∧ Memory.wf s.rom = true ∧ s.det.rirqEn = true ∧ 0 < s.det.rcount ∧ s.suspended = false ∧
    s.sess.base = some 0x2200 ∧ (0x2200 : Word).toNat + 24 ≤ s.cfg.romCap ∧ s.inq.head = s.inq.tail ∧
    (q4 1 0 0 0 1 0).head = (q4 1 0 0 0 1 0).tail + 1 ∧ (q4 1 2 0 0 2 0).tail + 1 < (q4 1 2 0 0 2 0).head := by decide

theorem test_witness_StepsHoldUnlessEnabled :
    s0.faulted = none ∧ s0.call = none ∧ busy.faulted = none ∧ intW busy = true ∧ intR busy = true ∧
    busy.suspended = false := by decide

theorem test_witness_HostOperationsIssueTheirCalls :
    hostCall .romGetptr = some .getPtr ∧ hostCall .resume = some .resume ∧ s0.faulted = none ∧
    (withCall .getPtr s0).call ≠ none ∧ (s0.call = none ∧ s0.suspended = false) ∧
    { s0 with suspended := true }.suspended = true := by decide

/-- The smallest legal mask, and an active session in the last window of the buffer. -/
theorem test_witness_BeginStepB1 :
    (let s : State := { withCall (.begin 0xABCDE 0 .b1) s0 with addressMask := 0x1FF }
     s.faulted = none ∧ s.call = some (.begin 0xABCDE 0 .b1) ∧ 5 ≤ s.cfg.smUnits ∧ 0x1FF ≤ s.addressMask.toNat ∧
     s.sess.active = false) ∧
    (let s : State := { withCall (.begin 0 0 .b1) ses with sess := { active := true, base := some 0x3FE00 } }
     s.sess.active = true ∧ s.sess.base = some 0x3FE00 ∧ (0x3FE00 : Word).toNat + 8 ≤ s.cfg.romCap ∧
     Memory.wf s.rom = true) := by decide

theorem test_witness_WindowBaseIsPlaced :
    maskLegal Config.paramsK 0x1FF = true ∧ 0x1FF ≤ (0x1FF : Word).toNat ∧ maskLegal Config.paramsK 0x3FFFF = true ∧
    (0x3FFFF : Word).toNat ≤ (0x3FFFF : Word).toNat := by decide

theorem test_witness_BeginStepB2 :
    let s := withCall (.begin 0xFFFFFFFF 0x3FE00 .b2) s0
    s.faulted = none ∧ s.call = some (.begin 0xFFFFFFFF 0x3FE00 .b2) ∧ Memory.wf s.rom = true ∧
    (0x3FE00 : Word).toNat + 512 ≤ s.cfg.romCap := by decide

theorem test_witness_EndSessionCloses :
    (let s := withCall .endSession s0
     s.faulted = none ∧ s.call = some .endSession ∧ s.sess.active = false) ∧
    (let s := withCall .endSession ses
     s.call = some .endSession ∧ s.sess.active = true ∧ s.sess.base = some 0x2200 ∧
     (0x2200 : Word).toNat + 8 ≤ s.cfg.romCap ∧ Memory.wf s.rom = true) := by decide

/-- SET_MASK at both ends: 2^0 − 1 and 2^18 − 1. -/
theorem test_witness_SuspensionCallsComplete :
    let p : State := { s0 with suspended := true }
    s0.suspended = false ∧ p.faulted = none ∧ p.suspended = true ∧ p.sess.active = false ∧
    ((0 : Word).toNat + 1 = 2 ^ 0 ∧ (0x3FFFF : Word).toNat + 1 = 2 ^ 18) ∧
    ((0x3FFFF : Word).toNat + 1 ≤ p.cfg.romCap ∧ (0x3FFFF : Word).toNat < 2 ^ p.cfg.addrBits) ∧
    (withCall .suspend s0).call = some .suspend ∧ (withCall .resume p).call = some .resume ∧
    (withCall (.persist .config) p).call = some (.persist .config) ∧
    (withCall (.setMask 0) p).call = some (.setMask 0) := by decide

/-- ROM_READ up to the last byte. -/
theorem test_witness_PointerAndFlagCallsComplete :
    let s : State := { withCall (.romRead 2) s0 with romPtr := 0x3FFFE }
    s.faulted = none ∧ s.call = some (.romRead 2) ∧ s.romPtr.toNat + (2 : Half).toNat ≤ s.cfg.romCap ∧
    (withCall (.setPtr 0xFFFFFFFF) s0).call = some (.setPtr 0xFFFFFFFF) ∧ (withCall .getPtr s0).call = some .getPtr ∧
    (withCall .accRead s0).call = some .accRead ∧ (withCall .accClear s0).call = some .accClear := by decide

/-- P-13, P-11, P-12 and W2 of the last byte. -/
theorem test_witness_RomWriteWritesItsRange :
    (let s : State := { withCall (.romWrite [] .w1) ses with romPtr := 0x2210 }
     s.faulted = none ∧ s.call = some (.romWrite [] .w1) ∧ s.romPtr.toNat + ([] : List Byte).length ≤ s.cfg.romCap) ∧
    (let s : State := { withCall (.romWrite [1, 2] .w1) ses with romPtr := 0x21FE }
     s.sess.base = some 0x2200 ∧ s.romPtr.toNat + 2 ≤ (0x2200 : Word).toNat) ∧
    (let s : State := { withCall (.romWrite [1] .w1) ses with romPtr := 0x2400 }
     s.sess.base = some 0x2200 ∧ (0x2200 : Word).toNat + 512 ≤ s.romPtr.toNat) ∧
    (let s : State := { withCall (.romWrite [1] .w2) ses with romPtr := 0x3FFFF }
     s.call = some (.romWrite [1] .w2) ∧ s.romPtr.toNat + 1 ≤ s.cfg.romCap ∧ Memory.wf s.rom = true) := by decide

/-- Each fault's condition at its edge (vectors S4, S5, M2 to M5, M8 to M10, P-4, P-7, P-10). -/
theorem test_witness_CallFaults :
    ({ Config.paramsK with smUnits := 4 } : Params).smUnits < 5 ∧
    (5 ≤ s0.cfg.smUnits ∧ { s0 with addressMask := 0xFF }.addressMask.toNat < 0x1FF) ∧
    { s0 with suspended := true }.suspended = true ∧ s0.suspended = false ∧
    ({ ses with suspended := true }.sess.active = true) ∧ s0.sess.active = false ∧
    (s0.cfg.romCap < (0x7FFFF : Word).toNat + 1 ∧ 2 ^ s0.cfg.addrBits ≤ (0x40000 : Word).toNat) ∧
    s0.cfg.romCap < (0x3FFFF : Word).toNat + 2 ∧ s0.cfg.romCap < (0x40000 : Word).toNat + (1 : Half).toNat ∧
    (ses.sess.base = some 0x2200 ∧ (0x21FF : Word).toNat < (0x2200 : Word).toNat + 512 ∧
      (0x2200 : Word).toNat < (0x21FF : Word).toNat + [(1 : Byte), 2].length) := by decide

/-- A mask that is no 2^k − 1 (vector M4). -/
theorem test_witness_mask_invalid : ∀ k, (0x1234 : Word).toNat + 1 ≠ 2 ^ k := by
  intro k h
  have h1 : (0x1234 : Word).toNat + 1 = 4661 := by decide
  rw [h1] at h
  rcases Nat.lt_or_ge k 13 with hk | hk
  · interval_cases k <;> omega
  · have := Nat.pow_le_pow_right (n := 2) (by omega) hk
    omega

theorem test_witness_UpdateStartsAndLeavesItsLoop :
    let u := upd [0x41] 0 .u0
    let v := upd [0x41] 1 .u1
    s0.faulted = none ∧ (withCall (.update u) s0).call = some (.update u) ∧ u.phase = .u0 ∧ s0.sess.active = false ∧
    ses.sess.active = true ∧ v.phase = .u1 ∧ v.i = v.data.length := by decide

/-- Into an empty queue, and into the last free place. -/
theorem test_witness_UpdatePublishesAByte :
    let u := upd [0x41] 0 .u1
    let s := withCall (.update u) ses
    s.faulted = none ∧ s.call = some (.update u) ∧ u.phase = .u1 ∧ u.data[u.i]? = some 0x41 ∧ s.sess.base = some 0x2200 ∧
    (0x2200 : Word).toNat + 24 ≤ s.cfg.romCap ∧ Memory.wf s.rom = true ∧
    (s.inq.tail ≤ s.inq.head ∧ s.inq.head < s.inq.tail + s.cfg.inqCap ∧ s.inq.head = s.inq.tail) ∧
    (let q := q4 1 2 3 0 3 0
     q.tail ≤ q.head ∧ q.head < q.tail + s.cfg.inqCap ∧ q.tail < q.head) := by decide

/-- The deadline just reached and just not, a byte to drain, a byte to replay, neither. -/
theorem test_witness_UpdateWaitsWhileFull :
    let u := upd [0x41] 0 .u1
    let s : State := { withCall (.update u) ses with inq := q4 1 2 3 4 4 0 }
    s.faulted = none ∧ s.call = some (.update u) ∧ u.phase = .u1 ∧ u.data[u.i]? = some 0x41 ∧
    s.cfg.inqCap ≤ s.inq.head - s.inq.tail ∧
    u.timeout.toNat ≤ { s with nowMs := 5 }.nowMs - u.t0 ∧ { s with nowMs := 4 }.nowMs - u.t0 < u.timeout.toNat ∧
    { s with outq := q4 0x41 0 0 0 1 0 }.outq.tail < { s with outq := q4 0x41 0 0 0 1 0 }.outq.head ∧
    (s.outq.head = s.outq.tail ∧ { s with deferred := [0x42] }.deferred = 0x42 :: [] ∧ s.sess.base = some 0x2200 ∧
      (0x2200 : Word).toNat + 24 ≤ s.cfg.romCap ∧ Memory.wf s.rom = true) ∧
    (s.outq.head ≤ s.outq.tail ∧ s.deferred = []) := by decide

theorem test_witness_UpdateFinishSteps :
    let u : UpdateCall := { upd [] 0 .u2 with left := 1 }
    let s := withCall (.update u) busy
    let r : State := { s with outq := q4 0x41 0 0 0 1 1 }
    s.faulted = none ∧ s.call = some (.update u) ∧ u.phase = .u2 ∧ (0 < u.left ∧ s.outq.tail < s.outq.head) ∧
    (r.outq.head = r.outq.tail ∧ r.deferred = 0x42 :: [] ∧ r.sess.base = some 0x2200 ∧
      (0x2200 : Word).toNat + 24 ≤ r.cfg.romCap ∧ Memory.wf r.rom = true) ∧
    ((upd [] 0 .u2).left = 0 ∧ (ses.outq.head = ses.outq.tail ∧ ses.deferred = [])) := by decide

theorem test_witness_UpdateFinishIsBounded :
    Good finishing ∧ finishing.faulted = none ∧
    finishing.call = some (.update { upd [] 0 .u2 with left := 2, chunk := [0x40] }) ∧ Instr.irqW ≠ .cpStep ∧
    got (exec .irqW finishing) (·.call) = some finishing.call :=
  ⟨test_good_finishing, rfl, rfl, by decide, by decide⟩

/-- Each step of the clauses, from a good state. -/
theorem test_witness_OutboundStreamIsKept :
    Good busy ∧ Good finishing ∧ got (exec .irqW busy) (·.faulted) = some none ∧
    got (exec .irqR busy) (·.faulted) = some none ∧ got (exec .cpStep finishing) (·.faulted) = some none ∧
    (busy.det.armed = true ∧ busy.suspended = false ∧ busy.det.wfifo.length < busy.cfg.detFifoDepth) ∧
    got (exec (.mboxOut 0x44) busy) (·.faulted) = some none ∧
    got (exec .tick busy) (fun t => (t.faulted, t.sess.active)) = some (none, true) :=
  ⟨test_good_busy, test_good_finishing, by decide, by decide, by decide, by decide, by decide, by decide⟩

/-- `busy` inside the byte loop of UPDATE, with room in the Inbound Queue. -/
abbrev publishing : State := withCall (.update { upd [0x55] 0 .u1 with chunk := [0x40] }) busy

theorem test_good_publishing : Good publishing := by
  refine good_of 0x2200 rfl (by decide) (by decide) ⟨by decide, by decide, by decide, by decide, ?_⟩ ?_
  · intro a h
    cases h
  · refine ⟨?_, ?_, ?_, ?_, ?_, ?_⟩ <;> intro x <;> first | (cases x; done) | skip
    all_goals intro h; cases h

theorem test_witness_InboundOrderIsKept :
    Good publishing ∧
    got (exec .cpStep publishing) (fun t => (t.faulted, t.call)) =
      some (none, some (.update { upd [0x55] 1 .u1 with chunk := [0x40] })) ∧
    got (exec .irqR publishing) (·.faulted) = some none :=
  ⟨test_good_publishing, by decide, by decide⟩

/-- A step that raises the inbound sequence, and one that leaves both. -/
theorem test_witness_SequenceCountersOnlyCountUp :
    Good busy ∧ busy.sess.active = true ∧ busy.sess.base = some 0x2200 ∧
    got (exec .irqR busy) (fun t => (t.faulted, t.sess.active, t.field 0x2200 16)) = some (none, true, 2) ∧
    got (exec .tick busy) (fun t => (t.faulted, t.sess.active)) = some (none, true) :=
  ⟨test_good_busy, rfl, rfl, by decide, by decide⟩

theorem test_witness_RomIsWrittenOnlyByControlPlane :
    got (exec .irqR busy) (fun t => decide (t.rom = busy.rom)) = some false ∧ Memory.wf busy.rom = true ∧
    busy.sess.base = some 0x2200 ∧ got (exec .irqW busy) (·.faulted) = some none := by decide

/-- Each clause's change happens somewhere. -/
theorem test_witness_WritersOfControlState :
    got (exec .cpStep (withCall .suspend s0)) (·.suspended) = some true ∧
    got (exec .cpStep (withCall .endSession ses)) (fun t => (t.sess.active, t.det.wirqEn)) = some (false, false) ∧
    got (exec .cpStep (withCall (.setMask 1) { s0 with suspended := true })) (·.addressMask) = some 1 ∧
    got (exec .repStep (onBus 0 s0)) (·.accessFlag) = some true ∧
    got (exec .cpStep (withCall .accClear { s0 with accessFlag := true })) (·.accessFlag) = some false ∧
    got (exec .cpStep (withCall (.setPtr 1) s0)) (·.romPtr) = some 1 ∧ got (exec .tick s0) (·.nowMs) = some 1 := by decide

set_option maxRecDepth 10000 in
theorem test_witness_writers_of_the_base :
    got (exec .cpStep (withCall (.begin 0 0x200 .b2) s0)) (fun t => (t.det.armed, t.det.base)) = some (true, 0x200) := by
  decide

theorem test_witness_SuspensionStopsTheResponder :
    let s : State := { s0 with suspended := true, resp := { s0.resp with phase := .serve } }
    s.suspended = true ∧ got (exec .tick s) (·.resp) = some s.resp ∧
    got (exec .cpStep (withCall .resume s)) (·.resp.phase) = some .s1 := by decide

theorem test_witness_TickAdvancesTime : s0.faulted = none := rfl

/-- The last four bytes of the buffer, and one past its end. -/
theorem test_witness_MemWriteIsLittleEndian :
    Memory.wf ses.rom = true ∧ 0xFFFFFFFF < 256 ^ 4 ∧ 0x3FFFC + 4 ≤ ses.cfg.romCap ∧ ses.cfg.romCap < 0x3FFFD + 4 := by decide

end Sys2Proof.Tests
end

section
/-! SUPPORT. The history only grows (00_scope.md R12, 10_state.md R39). `Extends` says it of two states and `AnswersExtend` of
what a meaning answers: one rule per way a meaning is put together, one lemma per named operation, then every instruction. -/

namespace Sys2Proof.Machine

/-! ## The relation -/

/-- The fields that no operation writes: the parameters, the schedule and its offset (log 1, 5). -/
def State.unwritten (s : State) : Params × List Byte × Nat := (s.cfg, s.sched, s.pos)

/-- `t` follows `s`: its history goes on from the history of `s`, and what no operation writes is the same. -/
structure Extends (s t : State) : Prop where
  history : ∃ evs, t.history = s.history ++ evs
  unwritten : t.unwritten = s.unwritten

/-- A state with the same history: for an update of other fields both premises are `rfl`. -/
theorem Extends.of_same {s t : State} (history : t.history = s.history) (unwritten : t.unwritten = s.unwritten) :
    Extends s t :=
  ⟨⟨[], by rw [history, List.append_nil]⟩, unwritten⟩

/-- A state with one more event: for `emit` under updates of other fields both premises are `rfl`. -/
theorem Extends.of_event {s t : State} {e : Event} (history : t.history = s.history ++ [e])
    (unwritten : t.unwritten = s.unwritten) : Extends s t :=
  ⟨⟨[e], history⟩, unwritten⟩

theorem Extends.trans {s t u : State} (hst : Extends s t) (htu : Extends t u) : Extends s u := by
  obtain ⟨evs, hevs⟩ := hst.history
  obtain ⟨more, hmore⟩ := htu.history
  exact ⟨⟨evs ++ more, by rw [hmore, hevs, List.append_assoc]⟩, htu.unwritten.trans hst.unwritten⟩

/-- If the answer is a next state, that state follows `s`. -/
def AnswersExtend (s : State) (r : StepResult) : Prop := ∀ t, r = .next t → Extends s t

/-! ## One rule per way a meaning is put together -/

theorem AnswersExtend.next {s t : State} (h : Extends s t) : AnswersExtend s (.next t) := by
  intro u hu
  rw [next_eq.mp hu]
  exact h

theorem AnswersExtend.next_same {s t : State} (history : t.history = s.history) (unwritten : t.unwritten = s.unwritten) :
    AnswersExtend s (.next t) := .next (.of_same history unwritten)

theorem AnswersExtend.fault {s : State} {f : Fault} : AnswersExtend s (.fault f) := by
  intro t ht
  cases ht

theorem AnswersExtend.hold {s : State} : AnswersExtend s hold := fun t ht => absurd ht (hold_ne_next t)

theorem AnswersExtend.live {s : State} {r : StepResult} (h : AnswersExtend s r) : AnswersExtend s (live s r) :=
  fun t ht => h t (live_next.mp ht).2

/-- A meaning that goes on from a state that follows `s`. -/
theorem AnswersExtend.after {s s' : State} {r : StepResult} (h : AnswersExtend s' r) (hs : Extends s s') :
    AnswersExtend s r :=
  fun t ht => hs.trans (h t ht)

theorem AnswersExtend.andThen {s : State} {r : StepResult} {k : State → StepResult} (hr : AnswersExtend s r)
    (hk : ∀ u, AnswersExtend u (k u)) : AnswersExtend s (andThen r k) := by
  intro t ht
  obtain ⟨u, hu, ⟨_, hrest⟩ | ⟨_, rfl⟩⟩ := andThen_next.mp ht
  · exact (hr u hu).trans (hk u t hrest)
  · exact hr t hu

theorem AnswersExtend.ite {s : State} {c : Prop} [Decidable c] {r₁ r₂ : StepResult} (h₁ : AnswersExtend s r₁)
    (h₂ : AnswersExtend s r₂) : AnswersExtend s (if c then r₁ else r₂) := by
  split
  · exact h₁
  · exact h₂

theorem AnswersExtend.withBase {s s' : State} {k : Word → StepResult} (hk : ∀ base, AnswersExtend s (k base)) :
    AnswersExtend s (withBase s' k) := by
  intro t ht
  obtain ⟨base, _, hbase⟩ := withBase_next.mp ht
  exact hk base t hbase

/-! ## The shared operations -/

theorem raise_extends (code : FaultCode) (s : State) : AnswersExtend s (raise code s) := .next (.of_event rfl rfl)

theorem ret_extends (name : CallName) (v : ResultValue) (s : State) : AnswersExtend s (ret name v s) :=
  .next (.of_event rfl rfl)

theorem issue_extends (c : Call) (s : State) : AnswersExtend s (issue c s) := by
  intro t ht
  obtain ⟨_, ⟨_, _, hraise⟩ | ⟨_, rfl⟩⟩ := issue_next.mp ht
  · exact raise_extends _ s t hraise
  · exact .of_same rfl rfl

theorem writeRom_extends (o : Nat) (bs : List Byte) (s : State) : AnswersExtend s (writeRom o bs s) := by
  intro t ht
  obtain ⟨_, rfl⟩ := writeRom_next.mp ht
  exact .of_same rfl rfl

theorem writeField_extends (base : Word) (off : Nat) (v : Word) (s : State) :
    AnswersExtend s (writeField base off v s) := writeRom_extends _ _ s

theorem bumpField_extends (base : Word) (off : Nat) (s : State) : AnswersExtend s (bumpField base off s) :=
  writeField_extends base off _ s

/-! ## The capture and the Target's steps -/

theorem pushW_extends (b : Byte) (s : State) : AnswersExtend s (pushW b s) := by
  intro t ht
  obtain ⟨_, rfl⟩ | ⟨_, _, hraise⟩ | ⟨_, _, rfl⟩ := pushW_next.mp ht
  · exact .of_same rfl rfl
  · exact raise_extends _ s t hraise
  · exact .of_same rfl rfl

theorem pushR_extends (s : State) : AnswersExtend s (pushR s) := by
  intro t ht
  obtain ⟨_, rfl⟩ | ⟨_, _, hraise⟩ | ⟨_, _, rfl⟩ := pushR_next.mp ht
  · exact .of_same rfl rfl
  · exact raise_extends _ s t hraise
  · exact .of_same rfl rfl

theorem recordEvent_extends {push : State → StepResult} (hpush : ∀ u, AnswersExtend u (push u)) (s : State) :
    AnswersExtend s (recordEvent push s) := by
  have hviolation : Extends s (s.emit (.timingViolation .mailboxWhileSuspended)).tookDraw := .of_event rfl rfl
  intro t ht
  obtain ⟨_, hrun⟩ | ⟨_, _, rfl⟩ | ⟨_, _, hrun⟩ := recordEvent_next.mp ht
  · exact hpush s t hrun
  · exact hviolation
  · exact hviolation.trans (hpush _ t hrun)

theorem captureClass_extends (cls : DetClass) (s : State) : AnswersExtend s (captureClass cls s) := by
  cases cls with
  | plain => exact .next_same rfl rfl
  | out b => exact recordEvent_extends (pushW_extends b) s
  | consume => exact recordEvent_extends pushR_extends s

theorem malformed_extends (s : State) : Extends s (malformed s).2 := by
  unfold malformed
  cases Config.drawClass s.draws <;> exact .of_event rfl rfl

theorem detCapture_extends (seen : Option Word) (s : State) : AnswersExtend s (detCapture seen s) := by
  refine .ite ?_ (.next_same rfl rfl)
  cases seen with
  | some a => exact captureClass_extends _ s
  | none => exact (captureClass_extends _ _).after (malformed_extends s)

theorem execBusAddr_extends (a : Word) (s : State) : AnswersExtend s (execBusAddr a s) :=
  .live <| .ite (.next_same rfl rfl) <|
    .ite (.andThen (detCapture_extends _ s) fun _ => .next_same rfl rfl) (.next_same rfl rfl)

theorem execBusSettle_extends (s : State) : AnswersExtend s (execBusSettle s) :=
  .live <| .ite (.next_same rfl rfl) <| .ite (.next_same rfl rfl) (.next_same rfl rfl)

theorem execBusEnable_extends (ce oe : Bool) (s : State) : AnswersExtend s (execBusEnable ce oe s) :=
  .live <| .ite (.next_same rfl rfl) <|
    .ite (.andThen ((detCapture_extends _ _).after (.of_same rfl rfl)) fun _ => .next_same rfl rfl)
      (.next_same rfl rfl)

theorem execBusLatch_extends (s : State) : AnswersExtend s (execBusLatch s) := by
  refine .live ?_
  cases latchKind s with
  | none => exact .next (.of_event rfl rfl)
  | some kind =>
    have hlatch : Extends s (s.emit (.latch (Config.drawByte s.draws) false)) := .of_event rfl rfl
    exact .next (hlatch.trans (.of_event rfl rfl))

/-- The window rows are the capture of a class, by armed detectors only. -/
theorem row_extends (cls : DetClass) (s : State) :
    AnswersExtend s (live s (if s.det.armed then captureClass cls s else .next s)) :=
  .live (.ite (captureClass_extends cls s) (.next_same rfl rfl))

/-! ## The Decoder and the Responder -/

theorem execOeseqStep_extends (s : State) : AnswersExtend s (execOeseqStep s) :=
  .live (.ite .hold (.next_same rfl rfl))

theorem execDrvShift_extends (s : State) : AnswersExtend s (execDrvShift s) :=
  .live (.ite .hold (.next_same rfl rfl))

theorem execRepStep_extends (s : State) : AnswersExtend s (execRepStep s) :=
  .live <| .ite (.next_same rfl rfl) <| .ite (.next_same rfl rfl) .hold

theorem sample_extends (s : State) : Extends s (sample s).2.2 := by
  unfold sample
  split <;> exact .of_same rfl rfl

theorem execRespSample_extends (s : State) : AnswersExtend s (execRespSample s) := by
  have haccept (v t) : AnswersExtend s (.next (acceptSample v t (sample s).2.2)) :=
    .next ((sample_extends s).trans (.of_same rfl rfl))
  have hfirst (v t) : AnswersExtend s (.next (firstSample v t (sample s).2.2)) :=
    .next ((sample_extends s).trans (.of_same rfl rfl))
  refine .live (.ite .hold ?_)
  cases s.cfg.sampleMode with
  | single =>
    cases s.resp.phase with
    | s1 => exact haccept _ _
    | s2 => exact .hold
    | serve => exact .hold
  | double =>
    cases s.resp.phase with
    | s1 => exact hfirst _ _
    | s2 => exact .ite (haccept _ _) (hfirst _ _)
    | serve => exact .hold

theorem execRespServe_extends (s : State) : AnswersExtend s (execRespServe s) :=
  .live <| .ite .hold <| .ite .fault <| .ite (.next_same rfl rfl) (.next_same rfl rfl)

/-! ## The interrupt handlers -/

theorem acceptOutbound_extends (b : Byte) (s : State) : AnswersExtend s (acceptOutbound b s) :=
  .withBase fun base => (bumpField_extends base _ _).after (.of_same rfl rfl)

theorem offerInbound_extends (base : Word) (b : Byte) (s : State) : AnswersExtend s (offerInbound base b s) :=
  .andThen (writeField_extends base _ _ s) (bumpField_extends base _)

theorem execIrqW_extends (s : State) : AnswersExtend s (execIrqW s) := by
  refine .live ?_
  cases s.det.wfifo with
  | nil => exact .hold
  | cons b rest =>
    exact .ite .hold <| .ite ((acceptOutbound_extends b _).after (.of_same rfl rfl)) (.next_same rfl rfl)

theorem execIrqR_extends (s : State) : AnswersExtend s (execIrqR s) :=
  .live <| .ite .hold <| .ite (.next_same rfl rfl) <| .withBase fun base =>
    .ite ((writeField_extends base _ _ _).after (.of_same rfl rfl))
      ((offerInbound_extends base _ _).after (.of_same rfl rfl))

/-! ## The steps of the calls -/

theorem closeSession_extends (s : State) : AnswersExtend s (closeSession s) :=
  .withBase fun base =>
    .andThen ((writeField_extends base _ _ _).after (.of_same rfl rfl)) fun _ => .next_same rfl rfl

theorem cpBeginB1_extends (a : Word) (s : State) : AnswersExtend s (cpBeginB1 a s) :=
  have hopen (u) : AnswersExtend u (openWindow a u) := .next_same rfl rfl
  .ite (raise_extends _ s) <| .ite (raise_extends _ s) <|
    .ite (.andThen (closeSession_extends s) hopen) (hopen s)

theorem cpBeginB2_extends (base : Word) (s : State) : AnswersExtend s (cpBeginB2 base s) :=
  .andThen (writeRom_extends _ _ s) fun u =>
    .andThen (writeRom_extends _ _ u) fun _ =>
      .andThen ((writeField_extends base _ _ _).after (.of_same rfl rfl)) fun _ =>
        (ret_extends _ _ _).after (.of_same rfl rfl)

theorem cpEnd_extends (s : State) : AnswersExtend s (cpEnd s) :=
  .ite (.andThen (closeSession_extends s) (ret_extends _ _)) (ret_extends _ _ s)

theorem cpSuspend_extends (s : State) : AnswersExtend s (cpSuspend s) :=
  .ite (raise_extends _ s) ((ret_extends _ _ _).after (.of_same rfl rfl))

theorem cpResume_extends (s : State) : AnswersExtend s (cpResume s) :=
  .ite ((ret_extends _ _ _).after (.of_same rfl rfl)) (raise_extends _ s)

theorem cpPersist_extends (s : State) : AnswersExtend s (cpPersist s) :=
  .ite (ret_extends _ _ s) (raise_extends _ s)

theorem cpSetMask_extends (m : Word) (s : State) : AnswersExtend s (cpSetMask m s) :=
  .ite (raise_extends _ s) <| .ite (raise_extends _ s) <| .ite (raise_extends _ s) <|
    (ret_extends _ _ _).after (.of_same rfl rfl)

theorem startWrite_extends (data : List Byte) (s : State) : AnswersExtend s (startWrite data s) :=
  .ite (ret_extends _ _ s) (.next_same rfl rfl)

theorem cpRomWriteW1_extends (data : List Byte) (s : State) : AnswersExtend s (cpRomWriteW1 data s) :=
  .ite (raise_extends _ s) <|
    .ite (.withBase fun _ => .ite (raise_extends _ s) (startWrite_extends data s)) (startWrite_extends data s)

theorem cpRomWriteW2_extends (data : List Byte) (s : State) : AnswersExtend s (cpRomWriteW2 data s) :=
  .andThen (writeRom_extends _ _ s) fun _ => (ret_extends _ _ _).after (.of_same rfl rfl)

theorem cpRomRead_extends (n : Half) (s : State) : AnswersExtend s (cpRomRead n s) :=
  .ite (raise_extends _ s) ((ret_extends _ _ _).after (.of_same rfl rfl))

/-! ## UPDATE -/

theorem setUpdate_extends (u : UpdateCall) (s : State) : AnswersExtend s (setUpdate u s) := .next_same rfl rfl

theorem publish_extends (b : Byte) (s : State) : AnswersExtend s (publish b s) :=
  .withBase fun base => .andThen ((writeField_extends base _ _ _).after (.of_same rfl rfl)) fun u =>
    .ite (offerInbound_extends base b u) (.next_same rfl rfl)

theorem flushChunk_extends (u : UpdateCall) (s : State) : Extends s (flushChunk u s).2 := by
  unfold flushChunk
  split
  · exact .of_same rfl rfl
  · exact .of_event rfl rfl

theorem drain1_extends (u : UpdateCall) (s : State) : Extends s (drain1 u s).2 := by
  unfold drain1
  dsimp only
  split
  · refine .trans ?_ (flushChunk_extends _ _)
    exact .of_same rfl rfl
  · exact .of_same rfl rfl

theorem replay1_extends (s : State) : AnswersExtend s (replay1 s) := by
  unfold replay1
  cases s.deferred with
  | nil => exact .hold
  | cons b rest => exact (acceptOutbound_extends b _).after (.of_same rfl rfl)

theorem finishUpdate_extends (u : UpdateCall) (v : ResultValue) (s : State) : AnswersExtend s (finishUpdate u v s) :=
  (ret_extends _ _ _).after (flushChunk_extends u s)

theorem cpUpdateU0_extends (u : UpdateCall) (s : State) : AnswersExtend s (cpUpdateU0 u s) :=
  .ite (setUpdate_extends _ s) (ret_extends _ _ s)

theorem cpUpdateU1_extends (u : UpdateCall) (s : State) : AnswersExtend s (cpUpdateU1 u s) := by
  unfold cpUpdateU1
  cases u.data[u.i]? with
  | none => exact setUpdate_extends _ s
  | some b =>
    exact .ite (.andThen (publish_extends b s) (setUpdate_extends _)) <| .ite (finishUpdate_extends u _ s) <|
      .ite ((setUpdate_extends _ _).after (drain1_extends u s)) (replay1_extends s)

theorem cpUpdateU2_extends (u : UpdateCall) (s : State) : AnswersExtend s (cpUpdateU2 u s) :=
  .ite ((setUpdate_extends _ _).after (drain1_extends u s)) <|
    .ite (replay1_extends s) (finishUpdate_extends u _ s)

theorem cpUpdate_extends (u : UpdateCall) (s : State) : AnswersExtend s (cpUpdate u s) := by
  unfold cpUpdate
  cases u.phase with
  | u0 => exact cpUpdateU0_extends u s
  | u1 => exact cpUpdateU1_extends u s
  | u2 => exact cpUpdateU2_extends u s

/-! ## CP_STEP and every instruction -/

theorem callStep_extends (c : Call) (s : State) : AnswersExtend s (callStep c s) := by
  cases c with
  | begin a base phase =>
    cases phase with
    | b1 => exact cpBeginB1_extends a s
    | b2 => exact cpBeginB2_extends base s
  | endSession => exact cpEnd_extends s
  | update u => exact cpUpdate_extends u s
  | suspend => exact cpSuspend_extends s
  | resume => exact cpResume_extends s
  | persist r => exact cpPersist_extends s
  | setMask m => exact cpSetMask_extends m s
  | setPtr p => exact (ret_extends _ _ _).after (.of_same rfl rfl)
  | getPtr => exact ret_extends _ _ s
  | romWrite data phase =>
    cases phase with
    | w1 => exact cpRomWriteW1_extends data s
    | w2 => exact cpRomWriteW2_extends data s
  | romRead n => exact cpRomRead_extends n s
  | accRead => exact ret_extends _ _ s
  | accClear => exact (ret_extends _ _ _).after (.of_same rfl rfl)

theorem execCpStep_extends (s : State) : AnswersExtend s (execCpStep s) := by
  refine .live ?_
  cases s.call with
  | none => exact .hold
  | some c => exact callStep_extends c s

/-- Every instruction that answers a next state answers one that follows the old. -/
theorem exec_extends (i : Instr) (s : State) : AnswersExtend s (exec i s) := by
  cases i with
  | busAddr a => exact execBusAddr_extends a s
  | busSettle => exact execBusSettle_extends s
  | busEnable ce oe => exact execBusEnable_extends ce oe s
  | busLatch => exact execBusLatch_extends s
  | oeseqStep => exact execOeseqStep_extends s
  | drvShift => exact execDrvShift_extends s
  | repStep => exact execRepStep_extends s
  | respSample => exact execRespSample_extends s
  | respServe => exact execRespServe_extends s
  | irqW => exact execIrqW_extends s
  | irqR => exact execIrqR_extends s
  | cpStep => exact execCpStep_extends s
  | beginSession a => exact (issue_extends _ s).live
  | endSession => exact (issue_extends _ s).live
  | update timeout data => exact (issue_extends _ s).live
  | suspend => exact (issue_extends _ s).live
  | resume => exact (issue_extends _ s).live
  | persist r => exact (issue_extends _ s).live
  | setMask m => exact (issue_extends _ s).live
  | romSetptr p => exact (issue_extends _ s).live
  | romGetptr => exact (issue_extends _ s).live
  | romWrite data => exact (issue_extends _ s).live
  | romRead n => exact (issue_extends _ s).live
  | accflagRead => exact (issue_extends _ s).live
  | accflagClear => exact (issue_extends _ s).live
  | tick => exact .live (.next_same rfl rfl)
  | mboxOut b => exact row_extends (.out b) s
  | mboxConsume => exact row_extends .consume s
  | plainRead => exact row_extends .plain s

/-- Settles O10: every instruction's answer extends the state it starts from (`exec_extends`). -/
theorem historyOnlyGrows : Obligations.HistoryOnlyGrows := by
  intro i s t ht
  obtain ⟨hhistory, hunwritten⟩ := exec_extends i s t ht
  simp only [State.unwritten, Prod.mk.injEq] at hunwritten
  exact ⟨hhistory, hunwritten⟩

end Sys2Proof.Machine
end

section
/-! SUPPORT. States after a model fault, the reset state and the logical registers. -/
namespace Sys2Proof.Machine

/-! ## After a model fault -/

/-- Every meaning is guarded by `live`, so after a model fault it stops with the code (60_exceptions.md R254, R267). -/
theorem exec_of_faulted (i : Instr) {s : State} {code : FaultCode} (h : s.faulted = some code) :
    exec i s = .fault (.runEnded code) := by
  cases i <;> exact live_faulted h _

/-- Settles O8: every meaning is guarded by `live`, and so is the step once the configuration and the schedule have passed. -/
theorem faultedRunTakesNoStep : Obligations.FaultedRunTakesNoStep := by
  intro s code h
  refine ⟨fun i => exec_of_faulted i h, fun hc hd => ?_⟩
  have hp : scheduleProblem s = none := scheduleProblem_eq_none.mpr hd
  simp only [step, hc, hp]
  exact live_faulted h _

/-! ## Reset -/

/-- Settles O11: each component of `State.resetWith` is the table's value by definition. -/
theorem resetValues : Obligations.ResetValues := by
  intro p d
  refine ⟨fun _ => rfl, ?_⟩
  repeat' apply And.intro
  all_goals rfl

/-- What the check of R6 has established of the parameters that passed it, as far as the invariants ask. -/
theorem configProblem_none {p : Params} (h : configProblem p = none) :
    maskLegal p p.initialMask = true ∧ 0 < p.inqCap ∧ 0 < p.outqCap ∧ 0 < p.chunkSize ∧ 3 ≤ p.smUnits := by
  simp only [configProblem] at h
  repeat' split at h
  all_goals try cases h
  rename_i hmask _ hcap hunits
  simp only [Bool.not_eq_false] at hmask
  exact ⟨hmask, by omega, by omega, by omega, by omega⟩

/-- Settles O12: no session, no call and empty queues at reset leave only the configuration's own checks. -/
theorem resetIsGood : Obligations.ResetIsGood := by
  intro p d hconfig haddr hs1 ha hinq houtq
  obtain ⟨hmask, -, -, -, hunits⟩ := configProblem_none hconfig
  have hempty (ring : List Byte) (cap : Nat) (hring : ring.length = cap) : QueueOk ⟨ring, 0, 0⟩ cap :=
    ⟨hring, le_refl 0, Nat.zero_le _⟩
  exact {
    config := hconfig
    r44 := {
      inqOk := hempty _ _ hinq
      outqOk := hempty _ _ houtq
      session := by simp [SessionOk, State.resetWith]
      idle := fun _ => ⟨rfl, rfl, rfl⟩
      window := fun _ hactive => absurd hactive Bool.false_ne_true
      fifos := ⟨Nat.zero_le _, Nat.zero_le _⟩
      inflight := fun _ => rfl }
    buffer := reset_buffer_wf d hconfig
    mask := hmask
    addresses := ⟨haddr, haddr, hs1, ha, fun _ hseen => by cases hseen⟩
    access := ⟨rfl, rfl⟩
    detBase := rfl
    units := hunits
    tags := by simp [TagOk, TaggedAddress, State.resetWith]
    phase := fun _ => by simp [State.resetWith]
    callRecord := rfl }

/-! ## The logical registers -/

/-- Clearing the low nine bits of a `u32` rounds it down to a multiple of WIN_ALIGN (30_encoding.md R95(b)). -/
theorem toNat_and_windowMask (x : Word) : (x &&& 0xFFFFFE00#32).toNat = x.toNat / 512 * 512 := by
  have hshift : x &&& 0xFFFFFE00#32 = x >>> 9 <<< 9 := by
    apply BitVec.eq_of_getLsbD_eq
    intro i hi
    have hmask : (0xFFFFFE00#32).getLsbD i = decide (9 ≤ i) := by
      revert i
      decide
    rw [BitVec.getLsbD_and, hmask, BitVec.getLsbD_shiftLeft, BitVec.getLsbD_ushiftRight]
    by_cases h9 : 9 ≤ i
    · simp [h9, hi, show 9 + (i - 9) = i by omega]
    · simp [h9, show i < 9 by omega]
  have hlt := x.isLt
  rw [hshift, BitVec.toNat_shiftLeft, BitVec.toNat_ushiftRight, Nat.shiftRight_eq_div_pow, Nat.shiftLeft_eq]
  omega

/-- A single flag in bit 0 reads as its number. -/
theorem toNat_flagBit_zero (b : Bool) : (flagBit b 0).toNat = b.toNat := by cases b <;> rfl

/-- Three flags in bits 0 to 2 read as the sum of their weights. -/
theorem toNat_three_flags (a b c : Bool) :
    (flagBit a 0 ||| flagBit b 1 ||| flagBit c 2).toNat = a.toNat + 2 * b.toNat + 4 * c.toNat := by
  cases a <;> cases b <;> cases c <;> rfl

/-- A flag below an aligned base reads as their sum: the flag's bit is clear in the base. -/
theorem toNat_flag_or_base (b : Bool) (x : Word) :
    (flagBit b 0 ||| (x &&& 0xFFFFFE00#32)).toNat = b.toNat + x.toNat / 512 * 512 := by
  have hflag : b.toNat < 2 ^ 9 := lt_of_le_of_lt (Bool.toNat_le b) (by decide)
  have hor := Nat.two_pow_add_eq_or_of_lt hflag (x.toNat / 512)
  rw [BitVec.toNat_or, toNat_flagBit_zero, toNat_and_windowMask, Nat.lor_comm, Nat.mul_comm, ← hor]
  omega

/-- Settles O59, register by register. -/
theorem controlRegistersReadTheirFields : Obligations.ControlRegistersReadTheirFields := by
  intro s
  exact ⟨rfl, toNat_and_windowMask _, toNat_three_flags _ _ _, toNat_flagBit_zero _, toNat_three_flags _ _ _,
    toNat_flagBit_zero _, toNat_flag_or_base _ _⟩

end Sys2Proof.Machine
end

section
/-! SUPPORT. What each operation can do, once. `Answers` says a property of what a meaning answers, with one rule per way a meaning is
put together; `LeavesControl` is the frame of the steps that only watch the control plane, `WritesIn` that of the memory operations, and
`CallEffect` lists every outcome of a CP_STEP. The invariants and the frames of every instruction are derived from these. -/

namespace Sys2Proof.Machine

/-! ## What a meaning answers -/

/-- If the answer is a next state, `P` holds of it. -/
def Answers (P : State → Prop) (r : StepResult) : Prop := ∀ t, r = .next t → P t

section
variable {P Q : State → Prop} {r r₁ r₂ : StepResult} {s : State} {k : State → StepResult}

theorem Answers.next {t : State} (h : P t) : Answers P (.next t) := by
  intro u hu
  rw [next_eq.mp hu]
  exact h

theorem Answers.fault {f : Fault} : Answers P (.fault f) := by
  intro t ht
  cases ht

theorem Answers.hold : Answers P hold := fun t ht => absurd ht (hold_ne_next t)

theorem Answers.mono (h : Answers Q r) (hQP : ∀ t, Q t → P t) : Answers P r := fun t ht => hQP t (h t ht)

/-- A meaning runs only in a run that has not ended. -/
theorem Answers.live (h : s.faulted = none → Answers P r) : Answers P (live s r) := by
  intro t ht
  obtain ⟨hf, hr⟩ := live_next.mp ht
  exact h hf t hr

theorem Answers.ite {c : Prop} [Decidable c] (h₁ : c → Answers P r₁) (h₂ : ¬ c → Answers P r₂) :
    Answers P (if c then r₁ else r₂) := by
  split
  next h => exact h₁ h
  next h => exact h₂ h

/-- The rest of a step runs where the first part has not raised; where it has, the step ends there. -/
theorem Answers.andThen (hr : Answers Q r) (hk : ∀ u, Q u → u.faulted = none → Answers P (k u))
    (hraised : ∀ u, Q u → u.faulted ≠ none → P u) : Answers P (andThen r k) := by
  intro t ht
  obtain ⟨u, hu, ⟨hrun, hrest⟩ | ⟨hne, rfl⟩⟩ := andThen_next.mp ht
  · exact hk u (hr u hu) hrun t hrest
  · exact hraised t (hr t hu) hne

/-- The rest of a step after a part that never raises. -/
theorem Answers.andThen_running (hr : Answers Q r) (hrun : ∀ u, Q u → u.faulted = none)
    (hk : ∀ u, Q u → Answers P (k u)) : Answers P (Machine.andThen r k) :=
  .andThen hr (fun u hu _ => hk u hu) fun u hu hne => absurd (hrun u hu) hne

theorem Answers.withBase {k : Word → StepResult} (hk : ∀ base, s.sess.base = some base → Answers P (k base)) :
    Answers P (withBase s k) := by
  intro t ht
  obtain ⟨base, hbase, hrest⟩ := withBase_next.mp ht
  exact hk base hbase t hrest

end

/-! ## Raising and returning -/

/-- The state a model fault leaves (60_exceptions.md R254): `raise` answers it by definition. -/
def State.raised (s : State) (code : FaultCode) : State := { s.emit (.fault code) with faulted := some code }

theorem raise_eq (code : FaultCode) (s : State) : raise code s = .next (s.raised code) := rfl

/-- The state a call's return leaves (43_control_plane.md R200): `ret` answers it by definition. -/
def State.returned (s : State) (name : CallName) (v : ResultValue) : State := { s.emit (.result name v) with call := none }

theorem ret_eq (name : CallName) (v : ResultValue) (s : State) : ret name v s = .next (s.returned name v) := rfl

/-- If `t` has faulted, its code is the last event of a history that goes on from that of `s`. -/
def FaultLast (s t : State) : Prop := ∀ code, t.faulted = some code → ∃ evs, t.history = s.history ++ evs ++ [.fault code]

theorem FaultLast.of_running {s t : State} (h : t.faulted = none) : FaultLast s t := by
  intro code hcode
  rw [h] at hcode
  cases hcode

theorem FaultLast.raised (s : State) (code : FaultCode) : FaultLast s (s.raised code) := by
  intro code' hcode
  obtain rfl : code = code' := Option.some.inj hcode
  exact ⟨[], by simp [State.raised]⟩

theorem FaultLast.after {s u t : State} (h : FaultLast u t) (hs : Extends s u) : FaultLast s t := by
  intro code hcode
  obtain ⟨evs, hevs⟩ := h code hcode
  obtain ⟨first, hfirst⟩ := hs.history
  exact ⟨first ++ evs, by rw [hevs, hfirst]; simp⟩

/-! ## Views of the state -/

/-- What the record of a call in progress speaks of, but for time and the Outbound Queue. -/
def State.callView (s : State) : Params × Word × Session × Bool × Word × Option Call × Option (Nat × Nat) × Word :=
  (s.cfg, s.addressMask, s.sess, s.suspended, s.romPtr, s.call, s.inflight, s.det.base)

/-- What the Mailbox channel is made of, but for the detectors' FIFOs. -/
def State.channelView (s : State) :
    Params × List Host.Cell × Word × Session × Queue × Queue × List Byte × Bool × Word × Bool × Bool :=
  (s.cfg, s.rom, s.addressMask, s.sess, s.inq, s.outq, s.deferred, s.det.armed, s.det.base, s.det.wirqEn, s.det.rirqEn)

/-- Everything the control plane keeps. -/
def State.controlView (s : State) := (s.callView, s.channelView, s.nowMs, s.accessFlag)

/-- What the read path speaks of: the lines, the access, the responder and the tags. -/
def State.busView (s : State) : Params × Bus × Access × Responder × Option Nat × Option Nat :=
  (s.cfg, s.bus, s.acc, s.resp, s.outTag, s.pinsTag)

/-! ## Steps that leave the control plane alone -/

/-- `t` follows `s`, with the control plane as it was; the detectors' FIFOs stay in their depth, and a fault is recorded. -/
structure LeavesControl (s t : State) : Prop where
  follows : Extends s t
  control : t.controlView = s.controlView
  fifos : FifosOk s → FifosOk t
  fault : FaultLast s t

/-- For an update of fields outside the control plane all premises but the last are `rfl`. -/
theorem LeavesControl.of_same {s t : State} (follows : Extends s t) (control : t.controlView = s.controlView)
    (det : t.det = s.det) (running : t.faulted = none) : LeavesControl s t where
  follows := follows
  control := control
  fifos := by
    obtain ⟨hcfg, -⟩ := Prod.mk.inj (Prod.mk.inj control).1
    simp only [FifosOk, hcfg, det, imp_self]
  fault := .of_running running

theorem LeavesControl.trans {s u t : State} (hsu : LeavesControl s u) (hut : LeavesControl u t) : LeavesControl s t where
  follows := hsu.follows.trans hut.follows
  control := hut.control.trans hsu.control
  fifos := fun h => hut.fifos (hsu.fifos h)
  fault := hut.fault.after hsu.follows

/-- A step of the detectors: it leaves the control plane and the read path alone. -/
structure Captured (s t : State) : Prop where
  leaves : LeavesControl s t
  bus : t.busView = s.busView

theorem Captured.refl {s : State} (hf : s.faulted = none) : Captured s s :=
  ⟨.of_same (.of_same rfl rfl) rfl rfl hf, rfl⟩

theorem Captured.trans {s u t : State} (hsu : Captured s u) (hut : Captured u t) : Captured s t :=
  ⟨hsu.leaves.trans hut.leaves, hut.bus.trans hsu.bus⟩

theorem Captured.raised (s : State) (code : FaultCode) : Captured s (s.raised code) where
  leaves := ⟨.of_event rfl rfl, rfl, fun h => h, .raised s code⟩
  bus := rfl

theorem pushW_captured (b : Byte) {s : State} (hf : s.faulted = none) : Answers (Captured s) (pushW b s) :=
  .ite (fun hroom => .next {
      leaves := ⟨.of_same rfl rfl, rfl, fun h => ⟨by simpa using hroom, h.2⟩, .of_running hf⟩
      bus := rfl }) fun _ =>
    .ite (fun _ => .next (.raised s _)) fun _ => .next (.refl hf)

theorem pushR_captured {s : State} (hf : s.faulted = none) : Answers (Captured s) (pushR s) :=
  .ite (fun hroom => .next {
      leaves := ⟨.of_same rfl rfl, rfl, fun h => ⟨h.1, hroom⟩, .of_running hf⟩
      bus := rfl }) fun _ =>
    .ite (fun _ => .next (.raised s _)) fun _ => .next (.refl hf)

theorem recordEvent_captured {push : State → StepResult}
    (hpush : ∀ {u : State}, u.faulted = none → Answers (Captured u) (push u)) {s : State} (hf : s.faulted = none) :
    Answers (Captured s) (recordEvent push s) := by
  let recorded := (s.emit (.timingViolation .mailboxWhileSuspended)).tookDraw
  have hviolation : Captured s recorded := ⟨.of_same (.of_event rfl rfl) rfl rfl hf, rfl⟩
  refine .ite (fun _ => .ite (fun _ => .next hviolation) fun _ => ?_) fun _ => hpush hf
  exact (hpush (u := recorded) hf).mono fun _ => hviolation.trans

theorem captureClass_captured (cls : DetClass) {s : State} (hf : s.faulted = none) :
    Answers (Captured s) (captureClass cls s) := by
  cases cls with
  | plain => exact .next (.refl hf)
  | out b => exact recordEvent_captured (pushW_captured b) hf
  | consume => exact recordEvent_captured pushR_captured hf

theorem malformed_faulted (s : State) : (malformed s).2.faulted = s.faulted := by
  unfold malformed
  cases Config.drawClass s.draws <;> rfl

theorem malformed_captured {s : State} (hf : s.faulted = none) : Captured s (malformed s).2 := by
  refine ⟨.of_same (malformed_extends s) ?_ ?_ ((malformed_faulted s).trans hf), ?_⟩ <;>
    (unfold malformed; cases Config.drawClass s.draws <;> rfl)

theorem detCapture_captured (seen : Option Word) {s : State} (hf : s.faulted = none) :
    Answers (Captured s) (detCapture seen s) := by
  refine .ite (fun _ => ?_) fun _ => .next (.refl hf)
  cases seen with
  | some a => exact captureClass_captured _ hf
  | none =>
    have hm := malformed_captured hf
    exact (captureClass_captured _ ((malformed_faulted s).trans hf)).mono fun _ => hm.trans

/-- The window rows are the capture of a class, by armed detectors only. -/
theorem row_captured (cls : DetClass) (s : State) :
    Answers (Captured s) (live s (if s.det.armed then captureClass cls s else .next s)) :=
  .live fun hf => .ite (fun _ => captureClass_captured cls hf) fun _ => .next (.refl hf)

/-! ## The Target, the Decoder and the Responder leave the control plane alone -/

theorem execBusAddr_leaves (a : Word) (s : State) : Answers (LeavesControl s) (execBusAddr a s) :=
  .live fun hf => .ite (fun _ => .next (Captured.refl hf).leaves) fun _ =>
    .ite (fun _ => .andThen (detCapture_captured s.acc.seen hf)
        (fun _ hu hrun => .next (hu.leaves.trans (.of_same (.of_same rfl rfl) rfl rfl hrun)))
        fun _ hu _ => hu.leaves)
      fun _ => .next (.of_same (.of_same rfl rfl) rfl rfl hf)

theorem execBusSettle_leaves (s : State) : Answers (LeavesControl s) (execBusSettle s) :=
  .live fun hf => .ite (fun _ => .next (Captured.refl hf).leaves) fun _ =>
    .ite (fun _ => .next (.of_same (.of_same rfl rfl) rfl rfl hf))
      fun _ => .next (.of_same (.of_same rfl rfl) rfl rfl hf)

/-- The enable lines move (40_bus_decoder.md R123). -/
def State.withEnables (s : State) (ce oe : Bool) : State := { s with bus := { s.bus with ce := ce, oe := oe } }

theorem withEnables_leaves (ce oe : Bool) {s : State} (hf : s.faulted = none) : LeavesControl s (s.withEnables ce oe) :=
  .of_same (.of_same rfl rfl) rfl rfl hf

theorem execBusEnable_leaves (ce oe : Bool) (s : State) : Answers (LeavesControl s) (execBusEnable ce oe s) :=
  .live fun hf => .ite (fun _ => .next (.of_same (.of_same rfl rfl) rfl rfl hf)) fun _ =>
    .ite (fun _ => .andThen (detCapture_captured (s := s.withEnables ce oe) _ hf)
        (fun _ hu hrun => .next
          (((withEnables_leaves ce oe hf).trans hu.leaves).trans (.of_same (.of_same rfl rfl) rfl rfl hrun)))
        fun _ hu _ => (withEnables_leaves ce oe hf).trans hu.leaves)
      fun _ => .next (withEnables_leaves ce oe hf)

theorem execBusLatch_leaves (s : State) : Answers (LeavesControl s) (execBusLatch s) := by
  intro t ht
  have hext := execBusLatch_extends s t ht
  obtain ⟨hf, hlatch⟩ := live_next.mp ht
  cases hkind : latchKind s with
  | none =>
    rw [hkind] at hlatch
    obtain rfl := next_eq.mp hlatch
    exact .of_same hext rfl rfl hf
  | some kind =>
    rw [hkind] at hlatch
    obtain rfl := next_eq.mp hlatch
    exact .of_same hext rfl rfl hf

theorem execOeseqStep_leaves (s : State) : Answers (LeavesControl s) (execOeseqStep s) :=
  .live fun hf => .ite (fun _ => .hold) fun _ => .next (.of_same (.of_same rfl rfl) rfl rfl hf)

theorem execDrvShift_leaves (s : State) : Answers (LeavesControl s) (execDrvShift s) :=
  .live fun hf => .ite (fun _ => .hold) fun _ => .next (.of_same (.of_same rfl rfl) rfl rfl hf)

/-- REP_STEP, whole (40_bus_decoder.md R135). -/
theorem execRepStep_answers (s : State) :
    Answers (fun t => s.faulted = none ∧
      (t = { s with accessFlag := true, repSeen := true } ∨ t = { s with repSeen := false })) (execRepStep s) :=
  .live fun hf => .ite (fun _ => .next ⟨hf, .inl rfl⟩) fun _ => .ite (fun _ => .next ⟨hf, .inr rfl⟩) fun _ => .hold

/-- A sample takes at most a draw. -/
theorem sample_state (s : State) : (sample s).2.2 = s ∨ (sample s).2.2 = s.tookDraw := by
  unfold sample
  split
  · exact .inl rfl
  · exact .inr rfl

/-- RESP_SAMPLE, whole: it accepts the sample or keeps it as the first of a pair (41_read_path.md R151 to R153). -/
theorem execRespSample_answers (s : State) :
    Answers (fun t => s.faulted = none ∧
      (t = acceptSample (sample s).1 (sample s).2.1 (sample s).2.2 ∨
        s.cfg.sampleMode = .double ∧ t = firstSample (sample s).1 (sample s).2.1 (sample s).2.2))
      (execRespSample s) := by
  refine .live fun hf => .ite (fun _ => .hold) fun _ => ?_
  cases s.cfg.sampleMode with
  | single =>
    cases s.resp.phase with
    | s1 => exact .next ⟨hf, .inl rfl⟩
    | s2 => exact .hold
    | serve => exact .hold
  | double =>
    cases s.resp.phase with
    | s1 => exact .next ⟨hf, .inr ⟨rfl, rfl⟩⟩
    | s2 => exact .ite (fun _ => .next ⟨hf, .inl rfl⟩) fun _ => .next ⟨hf, .inr ⟨rfl, rfl⟩⟩
    | serve => exact .hold

theorem execRespSample_leaves (s : State) : Answers (LeavesControl s) (execRespSample s) := by
  intro t ht
  have hext := execRespSample_extends s t ht
  obtain ⟨hf, hsample⟩ := execRespSample_answers s t ht
  rcases sample_state s with hs | hs <;> rw [hs] at hsample <;> obtain rfl | ⟨-, rfl⟩ := hsample <;>
    exact .of_same hext rfl rfl hf

/-- RESP_SERVE, whole: some byte is forwarded, with a draw or without (41_read_path.md R154). -/
theorem execRespServe_answers (s : State) :
    Answers (fun t => s.faulted = none ∧ ∃ d, t = (forwardByte d s).tookDraw ∨ t = forwardByte d s) (execRespServe s) :=
  .live fun hf => .ite (fun _ => .hold) fun _ => .ite (fun _ => .fault) fun _ =>
    .ite (fun _ => .next ⟨hf, _, .inl rfl⟩) fun _ => .next ⟨hf, _, .inr rfl⟩

theorem execRespServe_leaves (s : State) : Answers (LeavesControl s) (execRespServe s) := by
  intro t ht
  have hext := execRespServe_extends s t ht
  obtain ⟨hf, d, rfl | rfl⟩ := execRespServe_answers s t ht
  · exact .of_same hext rfl rfl hf
  · exact .of_same hext rfl rfl hf

end Sys2Proof.Machine
end

section
/-! SUPPORT. What the memory operations, the handlers and the steps of the calls can do, once. -/

namespace Sys2Proof.Machine

/-! ## Memory operations -/

/-- `t` is `s` with bytes of the ROM Buffer written, none outside the offsets `lo` to `hi`; the buffer stays canonical and inside its
capacity. -/
structure WritesIn (lo hi : Nat) (s t : State) : Prop where
  frame : ∃ m, t = { s with rom := m }
  wf : Memory.wf s.rom = true → Memory.wf t.rom = true
  inside : (∀ c ∈ s.rom, c.1 < s.cfg.romCap) → ∀ c ∈ t.rom, c.1 < t.cfg.romCap
  bytes : Memory.wf s.rom = true → ∀ o, o < lo ∨ hi ≤ o → t.romByte o = s.romByte o

theorem WritesIn.trans {lo hi : Nat} {s u t : State} (hsu : WritesIn lo hi s u) (hut : WritesIn lo hi u t) :
    WritesIn lo hi s t where
  frame := by
    obtain ⟨m, rfl⟩ := hsu.frame
    obtain ⟨m', rfl⟩ := hut.frame
    exact ⟨m', rfl⟩
  wf := fun h => hut.wf (hsu.wf h)
  inside := fun h => hut.inside (hsu.inside h)
  bytes := fun h o ho => (hut.bytes (hsu.wf h) o ho).trans (hsu.bytes h o ho)

theorem WritesIn.mono {lo hi lo' hi' : Nat} {s t : State} (h : WritesIn lo hi s t) (hlo : lo' ≤ lo) (hhi : hi ≤ hi') :
    WritesIn lo' hi' s t where
  frame := h.frame
  wf := h.wf
  inside := h.inside
  bytes := fun hw o ho => h.bytes hw o (by omega)

/-- 10_state.md R21 survives a write. -/
theorem WritesIn.buffer {lo hi : Nat} {s t : State} (h : WritesIn lo hi s t) (hb : BufferOk s) : BufferOk t :=
  ⟨h.wf hb.1, h.inside hb.2⟩

theorem WritesIn.running {lo hi : Nat} {s t : State} (h : WritesIn lo hi s t) (hf : s.faulted = none) :
    t.faulted = none := by
  obtain ⟨m, rfl⟩ := h.frame
  exact hf

/-- A field outside the range written keeps its value. -/
theorem WritesIn.field_eq {lo hi : Nat} {s t : State} (h : WritesIn lo hi s t) (hw : Memory.wf s.rom = true)
    {base : Word} {off : Nat} (hout : base.toNat + off + 4 ≤ lo ∨ hi ≤ base.toNat + off) :
    t.field base off = s.field base off :=
  field_congr fun a h1 h2 => h.bytes hw a (by omega)

theorem writeRom_writes (o : Nat) (bs : List Byte) (s : State) :
    Answers (WritesIn o (o + bs.length) s) (writeRom o bs s) := by
  intro t ht
  obtain ⟨hle, rfl⟩ := writeRom_next.mp ht
  exact {
    frame := ⟨_, rfl⟩
    wf := fun hw => Memory.writeBytes_wf hw o bs
    inside := fun hin c hc => by
      rcases Memory.mem_writeBytes hc with hold | hnew
      · exact hin c hold
      · exact lt_of_lt_of_le hnew.2 hle
    bytes := fun hw a ha => by rw [romByte_writeRom hw ht, if_neg (by omega)] }

theorem writeField_writes (base : Word) (off : Nat) (v : Word) (s : State) :
    Answers (WritesIn (base.toNat + off) (base.toNat + off + 4) s) (writeField base off v s) := by
  have h := writeRom_writes (base.toNat + off) (leBytes 4 v.toNat) s
  rw [leBytes_length] at h
  exact h

/-- `BumpField`: the field goes up by one, modulo 2^32 (20_memory.md R82). -/
structure Bumped (base : Word) (off : Nat) (s t : State) : Prop where
  writes : WritesIn (base.toNat + off) (base.toNat + off + 4) s t
  value : Memory.wf s.rom = true → t.field base off = s.field base off + 1

theorem bumpField_bumps (base : Word) (off : Nat) (s : State) : Answers (Bumped base off s) (bumpField base off s) :=
  fun t ht => ⟨writeField_writes base off _ s t ht, fun hw => field_writeField_same hw ht⟩

/-- The byte and the sequence of an offered byte (20_memory.md R75(b)). -/
structure Offered (base : Word) (b : Byte) (s t : State) : Prop where
  writes : WritesIn (base.toNat + 12) (base.toNat + 20) s t
  byte : Memory.wf s.rom = true → t.field base fieldInByte = b.zeroExtend 32
  seq : Memory.wf s.rom = true → t.field base fieldInSeq = s.field base fieldInSeq + 1

theorem offerInbound_offers (base : Word) (b : Byte) {s : State} (hf : s.faulted = none) :
    Answers (Offered base b s) (offerInbound base b s) := by
  intro t ht
  obtain ⟨u, hu, hbump⟩ := (offerInbound_next hf).mp ht
  have hbyte := writeField_writes _ _ _ _ u hu
  have hseq := bumpField_bumps _ _ _ t hbump
  exact {
    writes := (hbyte.mono (by simp [fieldInByte]) (by simp [fieldInByte])).trans
      (hseq.writes.mono (by simp [fieldInSeq]) (by simp [fieldInSeq]))
    byte := fun hw => by
      rw [hseq.writes.field_eq (hbyte.wf hw) (.inl (by simp [fieldInByte, fieldInSeq, Nat.add_assoc])), field_writeField_same hw hu]
    seq := fun hw => by
      rw [hseq.value (hbyte.wf hw), hbyte.field_eq hw (.inr (by simp [fieldInByte, fieldInSeq, Nat.add_assoc]))] }

/-- A byte enters the Outbound Queue and its sequence goes up (42_mailbox.md R180). -/
def Accepted (b : Byte) (s t : State) : Prop :=
  ∃ base, s.sess.base = some base ∧ Bumped base fieldOutSeq { s with outq := s.outq.push s.cfg.outqCap b } t

theorem acceptOutbound_accepts (b : Byte) (s : State) : Answers (Accepted b s) (acceptOutbound b s) :=
  .withBase fun base hbase => (bumpField_bumps base fieldOutSeq _).mono fun _ ht => ⟨base, hbase, ht⟩

/-! ## The interrupt handlers -/

/-- What IRQ_W can do (42_mailbox.md R180): the oldest recorded byte is accepted where there is room, or deferred. -/
inductive WriteHandled (s t : State) : Prop where
  | accepts {b : Byte} {rest : List Byte} (hfifo : s.det.wfifo = b :: rest) (hdeferred : s.deferred = [])
      (hroom : s.outq.count < s.cfg.outqCap) (h : Accepted b { s with det := { s.det with wfifo := rest } } t)
  | defers {b : Byte} {rest : List Byte} (hfifo : s.det.wfifo = b :: rest)
      (h : t = { s with det := { s.det with wfifo := rest }, deferred := s.deferred ++ [b] })

theorem execIrqW_handles (s : State) :
    Answers (fun t => s.faulted = none ∧ s.det.wirqEn = true ∧ WriteHandled s t) (execIrqW s) := by
  refine .live fun hf => ?_
  cases hfifo : s.det.wfifo with
  | nil => exact .hold
  | cons b rest =>
    refine .ite (fun _ => .hold) fun hgo => ?_
    have hen : s.det.wirqEn = true := by simpa using (not_or.mp hgo).1
    refine .ite (fun hroom => ?_) fun _ => .next ⟨hf, hen, .defers hfifo rfl⟩
    exact (acceptOutbound_accepts b _).mono fun _ ht => ⟨hf, hen, .accepts hfifo hroom.1 hroom.2 ht⟩

/-- One consume event taken from its FIFO. -/
def State.consumed (s : State) : State := { s with det := { s.det with rcount := s.det.rcount - 1 } }

/-- One consume event taken, and the front byte of the Inbound Queue with it. -/
def State.popped (s : State) : State := { s.consumed with inq := s.inq.pop }

/-- What IRQ_R can do (42_mailbox.md R181): nothing more than take the event, or the front byte leaves the Inbound Queue, and
`pending` falls or the next byte is offered. -/
inductive ReadHandled (s t : State) : Prop where
  | nothing (h : t = s.consumed)
  | empties {base : Word} (hbase : s.sess.base = some base) (hsome : s.inq.count ≠ 0) (hlast : s.inq.pop.count = 0)
      (h : writeField base fieldPending 0 s.popped = .next t)
  | offers {base : Word} (hbase : s.sess.base = some base) (hmore : s.inq.pop.count ≠ 0)
      (h : Offered base (s.inq.pop.front s.cfg.inqCap) s.popped t)

theorem execIrqR_handles (s : State) : Answers (fun t => s.faulted = none ∧ ReadHandled s t) (execIrqR s) :=
  .live fun hf => .ite (fun _ => .hold) fun _ => .ite (fun _ => .next ⟨hf, .nothing rfl⟩) fun hsome =>
    .withBase fun _ hbase => .ite (fun hlast _ ht => ⟨hf, .empties hbase hsome hlast ht⟩) fun hmore =>
      (offerInbound_offers (s := s.popped) _ _ hf).mono fun _ ht =>
        ⟨hf, .offers hbase hmore ht⟩

/-! ## The parts of the calls' steps -/

/-- The state an active session's end leaves, but for the `active` field (43_control_plane.md R201, R206). -/
def State.sessionClosed (s : State) : State :=
  clearQueues { s with
    det := { s.det with wirqEn := false, rirqEn := false }
    sess := { active := false, base := none } }

/-- `u` is `s` with its session, if one was active, closed (43_control_plane.md R201, R206). -/
inductive SessionClosed (s u : State) : Prop where
  | idle (hidle : s.sess.active = false) (h : u = s)
  | closes {w : State} {base : Word} (hactive : s.sess.active = true) (hbase : s.sess.base = some base)
      (hw : WritesIn (base.toNat + 4) (base.toNat + 8) s w) (h : u = w.sessionClosed)

theorem closeSession_closes {s : State} (hf : s.faulted = none) (hactive : s.sess.active = true) :
    Answers (SessionClosed s) (closeSession s) := by
  intro u hu
  obtain ⟨base, hbase, hle, rfl⟩ := (closeSession_next hf).mp hu
  exact .closes hactive hbase (writeField_writes base fieldActive 0 s _ (writeField_next.mpr ⟨hle, rfl⟩)) rfl

theorem SessionClosed.running {s u : State} (h : SessionClosed s u) (hf : s.faulted = none) : u.faulted = none := by
  cases h with
  | idle _ h => exact h ▸ hf
  | closes _ _ hw h => exact h ▸ hw.running hf

/-- The window of a session that opens at `base`: all zero but for the magic tag and `active` (43_control_plane.md R202). -/
structure WindowOpened (base : Word) (s u : State) : Prop where
  writes : WritesIn base.toNat (base.toNat + 512) (armSession base s) u
  active : Memory.wf s.rom = true → u.field base fieldActive = 1
  zero : Memory.wf s.rom = true → ∀ off, 8 ≤ off → off + 4 ≤ 512 → u.field base off = 0

/-- A field of a range of zeros is 0. -/
theorem field_of_zeros {s : State} {base : Word} {off : Nat}
    (h : ∀ o, base.toNat + off ≤ o → o < base.toNat + off + 4 → s.romByte o = 0) : s.field base off = 0 := by
  have hbytes : Memory.readBytes s.rom (base.toNat + off) 4 = [0, 0, 0, 0] := by
    simp only [Memory.readBytes]
    congr 1
    · exact h _ (by omega) (by omega)
    congr 1
    · exact h _ (by omega) (by omega)
    congr 1
    · exact h _ (by omega) (by omega)
    congr 1
    exact h _ (by omega) (by omega)
  rw [State.field, memRead, hbytes]
  rfl

/-- The writes of step B2 open the window (43_control_plane.md R202). -/
theorem windowOpened_of_writes {base : Word} {s s₁ s₂ s₃ : State}
    (hzeros : writeRom base.toNat (List.replicate Config.winSize 0) s = .next s₁)
    (hmagic : writeRom base.toNat magicBytes s₁ = .next s₂)
    (hactive : writeField base fieldActive 1 (armSession base s₂) = .next s₃) : WindowOpened base s s₃ := by
  have h₁ := writeRom_writes _ _ _ s₁ hzeros
  have h₂ := writeRom_writes _ _ _ s₂ hmagic
  have h₃ := writeField_writes _ _ _ _ s₃ hactive
  rw [List.length_replicate] at h₁
  have hwf₂ (hw : Memory.wf s.rom = true) : Memory.wf (armSession base s₂).rom = true := h₂.wf (h₁.wf hw)
  have h₁₂ : WritesIn base.toNat (base.toNat + 512) s s₂ :=
    h₁.trans (h₂.mono (le_refl _) (by simp [magicBytes, Config.winSize]))
  have harm : WritesIn base.toNat (base.toNat + 512) (armSession base s) (armSession base s₂) := by
    obtain ⟨m, rfl⟩ := h₁₂.frame
    exact ⟨⟨m, rfl⟩, h₁₂.wf, h₁₂.inside, h₁₂.bytes⟩
  refine ⟨harm.trans (h₃.mono (by omega) (by simp [fieldActive, Nat.add_assoc])),
    fun hw => field_writeField_same (hwf₂ hw) hactive, fun hw off hlo hhi => ?_⟩
  rw [h₃.field_eq (hwf₂ hw) (.inr (by simp only [fieldActive]; omega))]
  refine field_of_zeros fun o h1 h2 => ?_
  have htag : s₂.romByte o = s₁.romByte o :=
    h₂.bytes (h₁.wf hw) o (.inr (by simp only [magicBytes, List.length_cons, List.length_nil]; omega))
  have hin : base.toNat ≤ o ∧ o < base.toNat + (List.replicate Config.winSize (0 : Byte)).length := by
    simp only [List.length_replicate, Config.winSize]
    omega
  calc s₂.romByte o = s₁.romByte o := htag
    _ = 0 := by
      rw [romByte_writeRom hw hzeros, if_pos hin, List.getD_eq_getElem?_getD, List.getElem?_replicate]
      split <;> rfl

/-- A byte in the Inbound Queue, before the window says so. -/
def State.joined (s : State) (b : Byte) : State := { s with inq := s.inq.push s.cfg.inqCap b }

/-- `Publish(b)` (43_control_plane.md R209): a byte joins the Inbound Queue, `pending` is set, and into an empty queue the byte is
offered too. -/
inductive Published (b : Byte) (s t : State) : Prop where
  | joins {base : Word} (hbase : s.sess.base = some base) (hsome : s.inq.count ≠ 0)
      (h : writeField base fieldPending 1 (s.joined b) = .next t)
  | first {base : Word} {u : State} (hbase : s.sess.base = some base) (hempty : s.inq.count = 0)
      (hu : writeField base fieldPending 1 (s.joined b) = .next u) (h : Offered base b u t)

/-- Window bytes 8 to 19, with the byte in the queue, are all that `Publish` writes. -/
theorem Published.writes {b : Byte} {s t : State} (h : Published b s t) :
    ∃ base, s.sess.base = some base ∧
      WritesIn (base.toNat + 8) (base.toNat + 20) (s.joined b) t := by
  cases h with
  | joins hbase _ h => exact ⟨_, hbase, (writeField_writes _ _ _ _ t h).mono (le_refl _) (by simp [fieldPending, Nat.add_assoc])⟩
  | first hbase _ hu h =>
    exact ⟨_, hbase, ((writeField_writes _ _ _ _ _ hu).mono (le_refl _) (by simp [fieldPending, Nat.add_assoc])).trans
      (h.writes.mono (by simp [fieldPending]) (le_refl _))⟩

theorem publish_publishes (b : Byte) {s : State} (hf : s.faulted = none) : Answers (Published b s) (publish b s) := by
  refine .withBase fun base hbase => ?_
  refine .andThen_running (Q := fun u => writeField base fieldPending 1 (s.joined b) = .next u)
    (fun _ hu => hu) (fun u hu => (writeField_writes _ _ _ _ u hu).running hf) fun u hu => ?_
  refine .ite (fun hempty => ?_) fun hsome => .next (.joins hbase hsome hu)
  exact (offerInbound_offers _ _ ((writeField_writes _ _ _ _ u hu).running hf)).mono fun _ ht => .first hbase hempty hu ht

/-- `Drain1`, whole: the front leaves the Outbound Queue, and the chunk stays short of CHUNK_SIZE (43_control_plane.md R209, R214). -/
theorem drain1_eq (u : UpdateCall) (s : State) :
    ∃ chunk history, drain1 u s = ({ u with chunk := chunk }, { s with outq := s.outq.pop, history := history }) ∧
      (u.chunk.length < s.cfg.chunkSize → chunk.length < s.cfg.chunkSize) := by
  have hpos (h : u.chunk.length < s.cfg.chunkSize) : 0 < s.cfg.chunkSize := by omega
  unfold drain1 flushChunk
  dsimp only
  split
  · split
    · exact ⟨_, s.history, rfl, by simp_all⟩
    · exact ⟨[], _, rfl, hpos⟩
  · next hne =>
    refine ⟨_, s.history, rfl, fun h => ?_⟩
    simp only [List.length_append, List.length_cons, List.length_nil] at hne ⊢
    omega

/-! ## The steps of the calls -/

/-- Step B1's last writes (43_control_plane.md R201): `openWindow` answers it by definition. -/
def State.opened (s : State) (a : Word) : State :=
  { s with
    call := some (.begin a (windowBase a s.addressMask) .b2)
    inflight := some ((windowBase a s.addressMask).toNat, (windowBase a s.addressMask).toNat + Config.winSize) }

/-- The end of step W1 (43_control_plane.md R222): the range in flight and phase W2. -/
def State.claimed (s : State) (data : List Byte) : State :=
  { s with
    inflight := some (s.romPtr.toNat, s.romPtr.toNat + data.length)
    call := some (.romWrite data .w2) }

/-- Every outcome of the CP_STEP of a call, in a run that has not ended (43_control_plane.md R200 to R223, 40_bus_decoder.md R136,
R137): what the step has checked, and the state it leaves. -/
inductive CallEffect (s : State) : Call → State → Prop where
  | raises {c : Call} (code : FaultCode) : CallEffect s c (s.raised code)
  | opens {a b : Word} {u : State} (hunits : 5 ≤ s.cfg.smUnits) (hmask : 0x1FF ≤ s.addressMask.toNat)
      (hclosed : SessionClosed s u) : CallEffect s (.begin a b .b1) (u.opened a)
  | begins {a base : Word} {u : State} (hopened : WindowOpened base s u) :
      CallEffect s (.begin a base .b2) (State.returned { u with inflight := none } .begin .ok)
  | ends {u : State} (hclosed : SessionClosed s u) : CallEffect s .endSession (u.returned .endSession .ok)
  | starts {u : UpdateCall} (hactive : s.sess.active = true) (hphase : u.phase = .u0) :
      CallEffect s (.update u) { s with call := some (.update { u with t0 := s.nowMs, phase := .u1 }) }
  | finishes {u : UpdateCall} (v : ResultValue) (history : List Event) :
      CallEffect s (.update u) (State.returned { s with history := history } .update v)
  | publishes {u : UpdateCall} {b : Byte} {t : State} (hphase : u.phase = .u1) (hdata : u.data[u.i]? = some b)
      (hroom : s.inq.count < s.cfg.inqCap) (hpublished : Published b s t) :
      CallEffect s (.update u) { t with call := some (.update { u with i := u.i + 1 }) }
  | allPublished {u : UpdateCall} (hphase : u.phase = .u1) :
      CallEffect s (.update u)
        { s with call := some (.update { u with left := s.outq.count + s.deferred.length, phase := .u2 }) }
  | drains {u : UpdateCall} {chunk : List Byte} {left : Nat} (history : List Event) (hphase : u.phase ≠ .u0)
      (hcount : 0 < s.outq.count) (hchunk : u.chunk.length < s.cfg.chunkSize → chunk.length < s.cfg.chunkSize)
      (hleft : u.phase = .u2 → left + 1 = u.left) :
      CallEffect s (.update u)
        { s with
          outq := s.outq.pop
          history := history
          call := some (.update { u with chunk := chunk, left := left }) }
  | replays {u : UpdateCall} {b : Byte} {rest : List Byte} {t : State} (hempty : s.outq.count = 0)
      (hdeferred : s.deferred = b :: rest) (haccepted : Accepted b { s with deferred := rest } t) : CallEffect s (.update u) t
  | suspends : CallEffect s .suspend (State.returned { s with suspended := true } .suspend .ok)
  | resumes : CallEffect s .resume
      (State.returned { s with suspended := false, resp := { s.resp with phase := .s1 } } .resume .ok)
  | persists {r : Region} : CallEffect s (.persist r) (s.returned .persist .ok)
  | setsMask {m : Word} (hsuspended : s.suspended = true) (hidle : s.sess.active = false)
      (hlegal : maskLegal s.cfg m = true) :
      CallEffect s (.setMask m) (State.returned { s with addressMask := m } .setMask .ok)
  | setsPtr {p : Word} : CallEffect s (.setPtr p) (State.returned { s with romPtr := p } .setPtr .ok)
  | getsPtr : CallEffect s .getPtr (s.returned .getPtr (.pointer s.romPtr))
  | writesNothing {data : List Byte} : CallEffect s (.romWrite data .w1) (s.returned .romWrite .ok)
  | claims {data : List Byte} (hin : s.romPtr.toNat + data.length ≤ s.cfg.romCap)
      (hapart : s.sess.active = true → ∃ base, s.sess.base = some base ∧
        (base.toNat + 512 ≤ s.romPtr.toNat ∨ s.romPtr.toNat + data.length ≤ base.toNat)) :
      CallEffect s (.romWrite data .w1) (s.claimed data)
  | writes {data : List Byte} {u : State}
      (hwrites : WritesIn s.romPtr.toNat (s.romPtr.toNat + data.length) s u) :
      CallEffect s (.romWrite data .w2)
        (State.returned { advancePtr data.length u with inflight := none } .romWrite .ok)
  | reads {n : Half} (bs : List Byte) : CallEffect s (.romRead n) ((advancePtr n.toNat s).returned .romRead (.bytes bs))
  | readsFlag (n : Nat) : CallEffect s .accRead (s.returned .accRead (.flag n))
  | clearsFlag : CallEffect s .accClear (State.returned { s with accessFlag := false } .accClear .ok)

section
variable {s : State}

theorem CallEffect.raise {c : Call} (code : FaultCode) : Answers (CallEffect s c) (raise code s) := .next (.raises code)

theorem cpBeginB1_effect (a b : Word) (hf : s.faulted = none) : Answers (CallEffect s (.begin a b .b1)) (cpBeginB1 a s) :=
  .ite (fun _ => .raise _) fun hunits => .ite (fun _ => .raise _) fun hmask =>
    have hunits := Nat.le_of_not_lt hunits
    have hmask := Nat.le_of_not_lt hmask
    .ite (fun hactive => .andThen_running (closeSession_closes hf hactive) (fun _ hu => hu.running hf)
        fun _ hu => .next (.opens hunits hmask hu))
      fun hidle => .next (.opens hunits hmask (.idle (Bool.not_eq_true _ ▸ hidle) rfl))

theorem cpBeginB2_effect (a base : Word) (hf : s.faulted = none) :
    Answers (CallEffect s (.begin a base .b2)) (cpBeginB2 base s) := by
  refine .andThen_running (fun _ h => h) (fun u hu => (writeRom_writes _ _ _ u hu).running hf) fun s₁ hzeros => ?_
  have hf₁ := (writeRom_writes _ _ _ s₁ hzeros).running hf
  refine .andThen_running (fun _ h => h) (fun u hu => (writeRom_writes _ _ _ u hu).running hf₁) fun s₂ hmagic => ?_
  have hf₂ := (writeRom_writes _ _ _ s₂ hmagic).running hf₁
  refine .andThen_running (fun _ h => h) (fun u hu => (writeField_writes _ _ _ _ u hu).running hf₂) fun s₃ hactive => ?_
  exact .next (.begins (windowOpened_of_writes hzeros hmagic hactive))

theorem cpEnd_effect (hf : s.faulted = none) : Answers (CallEffect s .endSession) (cpEnd s) :=
  .ite (fun hactive => .andThen_running (closeSession_closes hf hactive) (fun _ hu => hu.running hf)
      fun _ hu => .next (.ends hu))
    fun hidle => .next (.ends (.idle (Bool.not_eq_true _ ▸ hidle) rfl))

theorem startWrite_effect {data : List Byte} (hin : s.romPtr.toNat + data.length ≤ s.cfg.romCap)
    (hapart : 0 < data.length → s.sess.active = true → ∃ base, s.sess.base = some base ∧
      (base.toNat + 512 ≤ s.romPtr.toNat ∨ s.romPtr.toNat + data.length ≤ base.toNat)) :
    Answers (CallEffect s (.romWrite data .w1)) (startWrite data s) :=
  .ite (fun _ => .next .writesNothing) fun hne => .next (.claims hin (hapart (List.length_pos_iff.mpr hne)))

theorem cpRomWriteW1_effect (data : List Byte) : Answers (CallEffect s (.romWrite data .w1)) (cpRomWriteW1 data s) :=
  .ite (fun _ => .raise _) fun hin =>
    have hin := Nat.le_of_not_lt hin
    .ite (fun _ => .withBase fun base hbase => .ite (fun _ => .raise _) fun hapart =>
        startWrite_effect hin fun _ _ => ⟨base, hbase, by simp only [Config.winSize] at hapart; omega⟩)
      fun hnot => startWrite_effect hin fun hpos hactive => absurd ⟨hactive, hpos⟩ hnot

theorem cpRomWriteW2_effect (data : List Byte) (hf : s.faulted = none) :
    Answers (CallEffect s (.romWrite data .w2)) (cpRomWriteW2 data s) :=
  .andThen_running (writeRom_writes _ _ _) (fun _ hu => hu.running hf) fun _ hu => .next (.writes hu)

theorem replay1_effect {u : UpdateCall} (hempty : s.outq.count = 0) : Answers (CallEffect s (.update u)) (replay1 s) := by
  unfold replay1
  cases hdeferred : s.deferred with
  | nil => exact .hold
  | cons b rest => exact (acceptOutbound_accepts b _).mono fun _ ht => .replays hempty hdeferred ht

theorem finishUpdate_effect (u : UpdateCall) (v : ResultValue) :
    Answers (CallEffect s (.update u)) (finishUpdate u v s) := by
  unfold finishUpdate
  rw [flushChunk_state]
  exact .next (.finishes v _)

theorem cpUpdateU0_effect {u : UpdateCall} (hphase : u.phase = .u0) :
    Answers (CallEffect s (.update u)) (cpUpdateU0 u s) :=
  .ite (fun hactive => .next (.starts hactive hphase)) fun _ => .next (.finishes .ok s.history)

theorem cpUpdateU1_effect {u : UpdateCall} (hphase : u.phase = .u1) (hf : s.faulted = none) :
    Answers (CallEffect s (.update u)) (cpUpdateU1 u s) := by
  obtain ⟨chunk, history, hdrain, hchunk⟩ := drain1_eq u s
  unfold cpUpdateU1
  cases hdata : u.data[u.i]? with
  | none => exact .next (.allPublished hphase)
  | some b =>
    refine .ite (fun hroom => ?_) fun _ => .ite (fun _ => finishUpdate_effect u _) fun _ => .ite (fun hcount => ?_) fun hempty => ?_
    · refine .andThen_running (publish_publishes b hf) (fun v hv => ?_) fun v hv => .next (.publishes hphase hdata hroom hv)
      obtain ⟨_, _, hw⟩ := hv.writes
      exact hw.running hf
    · rw [hdrain]
      exact .next (.drains history (by simp [hphase]) hcount hchunk (by simp [hphase]))
    · exact replay1_effect (Nat.eq_zero_of_not_pos hempty)

theorem cpUpdateU2_effect {u : UpdateCall} (hphase : u.phase = .u2) : Answers (CallEffect s (.update u)) (cpUpdateU2 u s) := by
  obtain ⟨chunk, history, hdrain, hchunk⟩ := drain1_eq u s
  refine .ite (fun hgo => ?_) fun hstop => .ite (fun hmore => ?_) fun _ => finishUpdate_effect u _
  · rw [hdrain]
    exact .next (.drains history (by simp [hphase]) hgo.2 hchunk fun _ => by omega)
  · exact replay1_effect (by omega)

theorem cpUpdate_effect (u : UpdateCall) (hf : s.faulted = none) : Answers (CallEffect s (.update u)) (cpUpdate u s) := by
  unfold cpUpdate
  cases hphase : u.phase with
  | u0 => exact cpUpdateU0_effect hphase
  | u1 => exact cpUpdateU1_effect hphase hf
  | u2 => exact cpUpdateU2_effect hphase

theorem cpSetMask_effect (m : Word) : Answers (CallEffect s (.setMask m)) (cpSetMask m s) :=
  .ite (fun _ => .raise _) fun hsuspended => .ite (fun _ => .raise _) fun hidle => .ite (fun _ => .raise _) fun hlegal =>
    .next (.setsMask (by simpa using hsuspended) (by simpa using hidle) (by simpa using hlegal))

/-- Every CP_STEP of a call has one of the outcomes of `CallEffect`. -/
theorem callStep_effect (c : Call) (hf : s.faulted = none) : Answers (CallEffect s c) (callStep c s) := by
  cases c with
  | begin a base phase =>
    cases phase with
    | b1 => exact cpBeginB1_effect a base hf
    | b2 => exact cpBeginB2_effect a base hf
  | endSession => exact cpEnd_effect hf
  | update u => exact cpUpdate_effect u hf
  | suspend => exact .ite (fun _ => .raise _) fun _ => .next .suspends
  | resume => exact .ite (fun _ => .next .resumes) fun _ => .raise _
  | persist r => exact .ite (fun _ => .next .persists) fun _ => .raise _
  | setMask m => exact cpSetMask_effect m
  | setPtr p => exact .next .setsPtr
  | getPtr => exact .next .getsPtr
  | romWrite data phase =>
    cases phase with
    | w1 => exact cpRomWriteW1_effect data
    | w2 => exact cpRomWriteW2_effect data hf
  | romRead n => exact .ite (fun _ => .raise _) fun _ => .next (.reads _)
  | accRead => exact .next (.readsFlag _)
  | accClear => exact .next .clearsFlag

end

/-- CP_STEP runs the step of the call in progress. -/
theorem execCpStep_effect (s : State) :
    Answers (fun t => s.faulted = none ∧ ∃ c, s.call = some c ∧ CallEffect s c t) (execCpStep s) := by
  refine .live fun hf => ?_
  cases hc : s.call with
  | none => exact .hold
  | some c => exact (callStep_effect c hf).mono fun _ ht => ⟨hf, c, rfl, ht⟩

/-- A Host operation issues its call, or raises the fault of a call while suspended (43_control_plane.md R200, R224). -/
theorem issue_answers (c : Call) (s : State) :
    Answers (fun t => s.faulted = none ∧
      (t = s.raised .callWhileSuspended ∨
        s.call = none ∧ ¬ (s.suspended = true ∧ c.admittedSuspended = false) ∧ t = { s with call := some c }))
      (live s (issue c s)) := by
  refine .live fun hf t ht => ?_
  obtain ⟨hnone, ⟨_, _, hraise⟩ | ⟨hadmit, rfl⟩⟩ := issue_next.mp ht
  · exact ⟨hf, .inl (raise_next.mp hraise)⟩
  · exact ⟨hf, .inr ⟨hnone, hadmit, rfl⟩⟩

end Sys2Proof.Machine
end

section
/-! SUPPORT. What every instruction records, writes and leaves alone, from what each operation can do. -/

namespace Sys2Proof.Machine

/-! ## A fault is the last event -/

theorem Accepted.running {b : Byte} {s t : State} (h : Accepted b s t) (hf : s.faulted = none) : t.faulted = none := by
  obtain ⟨_, _, hbump⟩ := h
  exact hbump.writes.running hf

theorem WriteHandled.running {s t : State} (h : WriteHandled s t) (hf : s.faulted = none) : t.faulted = none := by
  cases h with
  | accepts _ _ _ h => exact h.running hf
  | defers _ h => exact h ▸ hf

theorem ReadHandled.running {s t : State} (h : ReadHandled s t) (hf : s.faulted = none) : t.faulted = none := by
  cases h with
  | nothing h => exact h ▸ hf
  | empties _ _ _ h => exact (writeField_writes _ _ _ _ t h).running hf
  | offers _ _ h => exact h.writes.running hf

/-- The only outcome of a call's step that faults is the one that raises. -/
theorem CallEffect.faultLast {s t : State} {c : Call} (h : CallEffect s c t) (hf : s.faulted = none) : FaultLast s t := by
  cases h with
  | raises code => exact .raised s code
  | opens _ _ hclosed => exact .of_running (hclosed.running hf)
  | begins hopened => exact .of_running (hopened.writes.running hf)
  | ends hclosed => exact .of_running (hclosed.running hf)
  | publishes _ _ _ hpublished =>
    obtain ⟨_, _, hw⟩ := hpublished.writes
    exact .of_running (hw.running hf)
  | replays _ _ haccepted => exact .of_running (haccepted.running hf)
  | writes hwrites => exact .of_running (hwrites.running hf)
  | _ => exact .of_running hf

theorem issue_faultLast (c : Call) (s : State) : Answers (FaultLast s) (live s (issue c s)) := by
  intro t ht
  obtain ⟨hf, rfl | ⟨_, _, rfl⟩⟩ := issue_answers c s t ht
  · exact .raised s _
  · exact .of_running hf

theorem exec_faultLast (i : Instr) (s : State) : Answers (FaultLast s) (exec i s) := by
  intro t ht
  cases i with
  | busAddr a => exact (execBusAddr_leaves a s t ht).fault
  | busSettle => exact (execBusSettle_leaves s t ht).fault
  | busEnable ce oe => exact (execBusEnable_leaves ce oe s t ht).fault
  | busLatch => exact (execBusLatch_leaves s t ht).fault
  | oeseqStep => exact (execOeseqStep_leaves s t ht).fault
  | drvShift => exact (execDrvShift_leaves s t ht).fault
  | repStep =>
    obtain ⟨hf, rfl | rfl⟩ := execRepStep_answers s t ht
    · exact .of_running hf
    · exact .of_running hf
  | respSample => exact (execRespSample_leaves s t ht).fault
  | respServe => exact (execRespServe_leaves s t ht).fault
  | irqW =>
    obtain ⟨hf, _, h⟩ := execIrqW_handles s t ht
    exact .of_running (h.running hf)
  | irqR =>
    obtain ⟨hf, h⟩ := execIrqR_handles s t ht
    exact .of_running (h.running hf)
  | cpStep =>
    obtain ⟨hf, _, _, h⟩ := execCpStep_effect s t ht
    exact h.faultLast hf
  | tick =>
    obtain ⟨hf, h⟩ := live_next.mp ht
    exact .of_running (next_eq.mp h ▸ hf)
  | mboxOut b => exact (row_captured (.out b) s t ht).leaves.fault
  | mboxConsume => exact (row_captured .consume s t ht).leaves.fault
  | plainRead => exact (row_captured .plain s t ht).leaves.fault
  | _ => exact issue_faultLast _ s t ht

/-- Settles O9: a faulted state takes no step (`exec_of_faulted`), and a step that faults records its code last (`exec_faultLast`). -/
theorem faultIsRecorded : Obligations.FaultIsRecorded := by
  intro i s t ht code hcode
  refine ⟨?_, exec_faultLast i s t ht code hcode⟩
  cases hf : s.faulted with
  | none => rfl
  | some old =>
    rw [exec_of_faulted i hf] at ht
    cases ht

/-! ## Who writes the ROM Buffer -/

theorem LeavesControl.rom {s t : State} (h : LeavesControl s t) : t.rom = s.rom := by
  have hcontrol := h.control
  simp only [State.controlView, State.channelView, Prod.mk.injEq] at hcontrol
  obtain ⟨-, ⟨-, hrom, -⟩, -⟩ := hcontrol
  exact hrom

theorem issue_rom (c : Call) (s : State) : Answers (fun t => t.rom = s.rom) (live s (issue c s)) := by
  intro t ht
  obtain ⟨_, rfl | ⟨_, _, rfl⟩⟩ := issue_answers c s t ht
  · rfl
  · rfl

/-- Every instruction but CP_STEP and the handlers leaves the ROM Buffer as it was (10_state.md R21). -/
theorem exec_rom_eq {i : Instr} {s t : State} (ht : exec i s = .next t)
    (hi : ¬ (i = .cpStep ∨ i = .irqW ∨ i = .irqR)) : t.rom = s.rom := by
  cases i with
  | busAddr a => exact (execBusAddr_leaves a s t ht).rom
  | busSettle => exact (execBusSettle_leaves s t ht).rom
  | busEnable ce oe => exact (execBusEnable_leaves ce oe s t ht).rom
  | busLatch => exact (execBusLatch_leaves s t ht).rom
  | oeseqStep => exact (execOeseqStep_leaves s t ht).rom
  | drvShift => exact (execDrvShift_leaves s t ht).rom
  | repStep =>
    obtain ⟨_, rfl | rfl⟩ := execRepStep_answers s t ht
    · rfl
    · rfl
  | respSample => exact (execRespSample_leaves s t ht).rom
  | respServe => exact (execRespServe_leaves s t ht).rom
  | irqW | irqR | cpStep => simp at hi
  | tick => exact next_eq.mp (live_next.mp ht).2 ▸ rfl
  | mboxOut b => exact (row_captured (.out b) s t ht).leaves.rom
  | mboxConsume => exact (row_captured .consume s t ht).leaves.rom
  | plainRead => exact (row_captured .plain s t ht).leaves.rom
  | _ => exact issue_rom _ s t ht

/-- IRQ_W's acceptance writes the outbound sequence only (20_memory.md R81). -/
theorem WriteHandled.bytes {s t : State} (h : WriteHandled s t) {base : Word} (hw : Memory.wf s.rom = true)
    (hbase : s.sess.base = some base) (o : Nat) (ho : o < base.toNat + 20 ∨ base.toNat + 24 ≤ o) :
    t.romByte o = s.romByte o := by
  cases h with
  | accepts _ _ _ h =>
    obtain ⟨base', hbase', hbump⟩ := h
    obtain rfl : base = base' := Option.some.inj (hbase.symm.trans hbase')
    exact hbump.writes.bytes hw o (by simp only [fieldOutSeq]; omega)
  | defers _ h => exact h ▸ rfl

/-- IRQ_R writes `pending`, or the inbound byte and its sequence (20_memory.md R81). -/
theorem ReadHandled.bytes {s t : State} (h : ReadHandled s t) {base : Word} (hw : Memory.wf s.rom = true)
    (hbase : s.sess.base = some base) (o : Nat) (ho : o < base.toNat + 8 ∨ base.toNat + 20 ≤ o) :
    t.romByte o = s.romByte o := by
  cases h with
  | nothing h => exact h ▸ rfl
  | empties hbase' _ _ h =>
    obtain rfl := Option.some.inj (hbase.symm.trans hbase')
    exact (writeField_writes _ _ _ _ t h).bytes hw o (by simp only [fieldPending]; omega)
  | offers hbase' _ h =>
    obtain rfl := Option.some.inj (hbase.symm.trans hbase')
    exact h.writes.bytes hw o (by omega)

/-- Settles O55, from what each instruction can do to the buffer. -/
theorem romIsWrittenOnlyByControlPlane : Obligations.RomIsWrittenOnlyByControlPlane := by
  intro i s t ht
  refine ⟨fun hne => Classical.byContradiction fun hi => hne (exec_rom_eq ht hi), fun base hw hbase => ⟨?_, ?_⟩⟩
  · rintro rfl
    obtain ⟨_, _, h⟩ := execIrqW_handles s t ht
    exact h.bytes hw hbase
  · rintro rfl
    obtain ⟨_, h⟩ := execIrqR_handles s t ht
    exact h.bytes hw hbase

/-! ## The ROM Buffer stays canonical and inside its capacity -/

theorem SessionClosed.buffer {s u : State} (h : SessionClosed s u) (hb : BufferOk s) : BufferOk u := by
  cases h with
  | idle _ h => exact h ▸ hb
  | closes _ _ hw h =>
    subst h
    exact hw.buffer hb

theorem Accepted.buffer {b : Byte} {s t : State} (h : Accepted b s t) (hb : BufferOk s) : BufferOk t := by
  obtain ⟨_, _, hbump⟩ := h
  exact hbump.writes.buffer hb

theorem WriteHandled.buffer {s t : State} (h : WriteHandled s t) (hb : BufferOk s) : BufferOk t := by
  cases h with
  | accepts _ _ _ h => exact h.buffer hb
  | defers _ h =>
    subst h
    exact hb

theorem ReadHandled.buffer {s t : State} (h : ReadHandled s t) (hb : BufferOk s) : BufferOk t := by
  cases h with
  | nothing h =>
    subst h
    exact hb
  | empties _ _ _ h => exact (writeField_writes _ _ _ _ t h).buffer hb
  | offers _ _ h => exact h.writes.buffer hb

theorem CallEffect.buffer {s t : State} {c : Call} (h : CallEffect s c t) (hb : BufferOk s) : BufferOk t := by
  cases h with
  | opens _ _ hclosed => exact hclosed.buffer hb
  | begins hopened => exact hopened.writes.buffer hb
  | ends hclosed => exact hclosed.buffer hb
  | publishes _ _ _ hpublished =>
    obtain ⟨_, _, hw⟩ := hpublished.writes
    exact hw.buffer hb
  | replays _ _ haccepted => exact haccepted.buffer hb
  | writes hwrites => exact hwrites.buffer hb
  | _ => exact hb

theorem exec_buffer (i : Instr) {s : State} (hb : BufferOk s) : Answers BufferOk (exec i s) := by
  intro t ht
  by_cases hi : i = .cpStep ∨ i = .irqW ∨ i = .irqR
  · obtain rfl | rfl | rfl := hi
    · obtain ⟨_, _, _, h⟩ := execCpStep_effect s t ht
      exact h.buffer hb
    · obtain ⟨_, _, h⟩ := execIrqW_handles s t ht
      exact h.buffer hb
    · obtain ⟨_, h⟩ := execIrqR_handles s t ht
      exact h.buffer hb
  · have hrom := exec_rom_eq ht hi
    have hcfg : t.cfg = s.cfg := (Prod.mk.inj (exec_extends i s t ht).unwritten).1
    simp only [BufferOk, hrom, hcfg]
    exact hb

/-- Settles O14: the step's instruction keeps the buffer (`exec_buffer`). -/
theorem stepKeepsBuffer : Obligations.StepKeepsBuffer := by
  intro s t hb ht
  obtain ⟨_, _, _, i, n, _, hexec⟩ := step_next.mp ht
  exact exec_buffer i (s := s.consume n) hb t hexec

/-! ## Who writes the control state -/

/-- What a call's step may change of the control state, and which call's step (10_state.md R43). What is not given is unchanged. -/
structure CallWrites (s : State) (c : Call) (t : State) : Prop where
  suspended : t.suspended = s.suspended ∨ c = .suspend ∨ c = .resume := by exact .inl rfl
  sess : t.sess = s.sess ∨ c = .endSession ∨ ∃ a b ph, c = .begin a b ph := by exact .inl rfl
  detectors : (t.det.armed = s.det.armed ∧ t.det.base = s.det.base) ∨ ∃ a b, c = .begin a b .b2 := by exact .inl ⟨rfl, rfl⟩
  interrupts : (t.det.wirqEn = s.det.wirqEn ∧ t.det.rirqEn = s.det.rirqEn) ∨
    c = .endSession ∨ ∃ a b ph, c = .begin a b ph := by exact .inl ⟨rfl, rfl⟩
  mask : t.addressMask = s.addressMask ∨ (c = .setMask t.addressMask ∧ s.suspended = true ∧ s.sess.active = false ∧
    maskLegal s.cfg t.addressMask = true) := by exact .inl rfl
  flag : t.accessFlag = s.accessFlag ∨ (t.accessFlag = false ∧ c = .accClear) := by exact .inl rfl
  pointer : t.romPtr = s.romPtr ∨ (∃ p, c = .setPtr p) ∨ (∃ d, c = .romWrite d .w2) ∨ ∃ n, c = .romRead n := by
    exact .inl rfl
  time : t.nowMs = s.nowMs := by exact rfl

/-- Closing a session writes the session and the interrupt enables. -/
theorem SessionClosed.writes {s u : State} {c : Call} (h : SessionClosed s u)
    (hc : c = .endSession ∨ ∃ a b ph, c = .begin a b ph) : CallWrites s c u := by
  cases h with
  | idle _ h =>
    subst h
    exact {}
  | closes _ _ hw h =>
    obtain ⟨m, rfl⟩ := hw.frame
    subst h
    exact { sess := .inr hc, interrupts := .inr hc }

theorem CallEffect.writes_control {s t : State} {c : Call} (h : CallEffect s c t) : CallWrites s c t := by
  cases h with
  | opens _ _ hclosed =>
    obtain ⟨h₁, h₂, h₃, h₄, h₅, h₆, h₇, h₈⟩ := hclosed.writes (.inr ⟨_, _, _, rfl⟩)
    exact ⟨h₁, h₂, h₃, h₄, h₅, h₆, h₇, h₈⟩
  | begins hopened =>
    obtain ⟨m, rfl⟩ := hopened.writes.frame
    exact {
      sess := .inr (.inr ⟨_, _, _, rfl⟩)
      detectors := .inr ⟨_, _, rfl⟩
      interrupts := .inr (.inr ⟨_, _, _, rfl⟩) }
  | ends hclosed =>
    obtain ⟨h₁, h₂, h₃, h₄, h₅, h₆, h₇, h₈⟩ := hclosed.writes (.inl rfl)
    exact ⟨h₁, h₂, h₃, h₄, h₅, h₆, h₇, h₈⟩
  | publishes _ _ _ hpublished =>
    obtain ⟨_, _, hw⟩ := hpublished.writes
    obtain ⟨m, rfl⟩ := hw.frame
    exact {}
  | replays _ _ haccepted =>
    obtain ⟨_, _, hbump⟩ := haccepted
    obtain ⟨m, rfl⟩ := hbump.writes.frame
    exact {}
  | suspends => exact { suspended := .inr (.inl rfl) }
  | resumes => exact { suspended := .inr (.inr rfl) }
  | setsMask hsuspended hidle hlegal => exact { mask := .inr ⟨rfl, hsuspended, hidle, hlegal⟩ }
  | setsPtr => exact { pointer := .inr (.inl ⟨_, rfl⟩) }
  | writes hwrites =>
    obtain ⟨m, rfl⟩ := hwrites.frame
    exact { pointer := .inr (.inr (.inl ⟨_, rfl⟩)) }
  | reads => exact { pointer := .inr (.inr (.inr ⟨_, rfl⟩)) }
  | clearsFlag => exact { flag := .inr ⟨rfl, rfl⟩ }
  | _ => exact {}

/-- The control state whose writers the rules name (10_state.md R22, R27, R29 to R31, R34 to R36), but for the access flag and time. -/
def State.guardedView (s : State) : Bool × Session × Bool × Word × Bool × Bool × Word × Word :=
  (s.suspended, s.sess, s.det.armed, s.det.base, s.det.wirqEn, s.det.rirqEn, s.addressMask, s.romPtr)

theorem LeavesControl.guardedView {s t : State} (h : LeavesControl s t) : t.guardedView = s.guardedView := by
  have hcontrol := h.control
  simp only [State.controlView, State.callView, State.channelView, Prod.mk.injEq] at hcontrol
  simp only [State.guardedView, hcontrol]

theorem LeavesControl.flag {s t : State} (h : LeavesControl s t) : t.accessFlag = s.accessFlag :=
  congrArg (fun v => v.2.2.2) h.control

theorem LeavesControl.time {s t : State} (h : LeavesControl s t) : t.nowMs = s.nowMs :=
  congrArg (fun v => v.2.2.1) h.control

/-- What an instruction other than CP_STEP may change of the control state (10_state.md R27, R36). What is not given is unchanged. -/
structure OtherWrites (i : Instr) (s t : State) : Prop where
  guarded : t.guardedView = s.guardedView := by exact rfl
  flag : t.accessFlag = s.accessFlag ∨ (t.accessFlag = true ∧ i = .repStep) := by exact .inl rfl
  time : t.nowMs = s.nowMs ∨ (i = .tick ∧ t.nowMs = s.nowMs + 1) := by exact .inl rfl

theorem LeavesControl.writes {i : Instr} {s t : State} (h : LeavesControl s t) : OtherWrites i s t :=
  ⟨h.guardedView, .inl h.flag, .inl h.time⟩

theorem WriteHandled.writes {i : Instr} {s t : State} (h : WriteHandled s t) : OtherWrites i s t := by
  cases h with
  | accepts _ _ _ h =>
    obtain ⟨_, _, hbump⟩ := h
    obtain ⟨m, rfl⟩ := hbump.writes.frame
    exact {}
  | defers _ h =>
    subst h
    exact {}

theorem ReadHandled.writes {i : Instr} {s t : State} (h : ReadHandled s t) : OtherWrites i s t := by
  cases h with
  | nothing h =>
    subst h
    exact {}
  | empties _ _ _ h =>
    obtain ⟨m, rfl⟩ := (writeField_writes _ _ _ _ t h).frame
    exact {}
  | offers _ _ h =>
    obtain ⟨m, rfl⟩ := h.writes.frame
    exact {}

theorem issue_writes (i : Instr) (c : Call) (s : State) : Answers (OtherWrites i s) (live s (issue c s)) := by
  intro t ht
  obtain ⟨_, rfl | ⟨_, _, rfl⟩⟩ := issue_answers c s t ht
  · exact {}
  · exact {}

theorem exec_otherWrites {i : Instr} {s t : State} (ht : exec i s = .next t) (hi : i ≠ .cpStep) : OtherWrites i s t := by
  cases i with
  | busAddr a => exact (execBusAddr_leaves a s t ht).writes
  | busSettle => exact (execBusSettle_leaves s t ht).writes
  | busEnable ce oe => exact (execBusEnable_leaves ce oe s t ht).writes
  | busLatch => exact (execBusLatch_leaves s t ht).writes
  | oeseqStep => exact (execOeseqStep_leaves s t ht).writes
  | drvShift => exact (execDrvShift_leaves s t ht).writes
  | repStep =>
    obtain ⟨_, rfl | rfl⟩ := execRepStep_answers s t ht
    · exact { flag := .inr ⟨rfl, rfl⟩ }
    · exact {}
  | respSample => exact (execRespSample_leaves s t ht).writes
  | respServe => exact (execRespServe_leaves s t ht).writes
  | irqW =>
    obtain ⟨_, _, h⟩ := execIrqW_handles s t ht
    exact h.writes
  | irqR =>
    obtain ⟨_, h⟩ := execIrqR_handles s t ht
    exact h.writes
  | cpStep => exact absurd rfl hi
  | tick =>
    obtain rfl := next_eq.mp (live_next.mp ht).2
    exact { time := .inr ⟨rfl, rfl⟩ }
  | mboxOut b => exact (row_captured (.out b) s t ht).leaves.writes
  | mboxConsume => exact (row_captured .consume s t ht).leaves.writes
  | plainRead => exact (row_captured .plain s t ht).leaves.writes
  | _ => exact issue_writes _ _ s t ht

/-- Settles O56: CP_STEP by what its call may write (`CallEffect.writes_control`), every other instruction by `exec_otherWrites`. -/
theorem writersOfControlState : Obligations.WritersOfControlState := by
  intro i s t ht
  by_cases hi : i = .cpStep
  · subst hi
    obtain ⟨_, c, hc, heffect⟩ := execCpStep_effect s t ht
    have h := heffect.writes_control
    rw [hc]
    refine ⟨fun hne => ⟨rfl, ?_⟩, fun hne => ⟨rfl, ?_⟩, fun hne => ⟨rfl, ?_⟩, fun hne => ⟨rfl, ?_⟩, fun hne => ⟨rfl, ?_⟩,
      fun hset hclear => ?_, fun hclear hset => ⟨rfl, ?_⟩, fun hne => ⟨rfl, ?_⟩, fun hne => absurd h.time hne⟩
    · simpa only [Option.some.injEq] using h.suspended.resolve_left hne
    · simpa only [Option.some.injEq] using h.sess.resolve_left hne
    · simpa only [Option.some.injEq] using h.detectors.resolve_left (not_and_or.mpr hne)
    · simpa only [Option.some.injEq] using h.interrupts.resolve_left (not_and_or.mpr hne)
    · simpa only [Option.some.injEq] using h.mask.resolve_left hne
    · obtain hsame | ⟨hfalse, _⟩ := h.flag
      · simp [hsame, hclear] at hset
      · simp [hfalse] at hset
    · obtain hsame | ⟨_, hcall⟩ := h.flag
      · simp [hsame, hset] at hclear
      · rw [hcall]
    · simpa only [Option.some.injEq] using h.pointer.resolve_left hne
  · have h := exec_otherWrites ht hi
    have hguarded := h.guarded
    simp only [State.guardedView, Prod.mk.injEq] at hguarded
    obtain ⟨hsuspended, hsess, harmed, hbase, hwirq, hrirq, hmask, hptr⟩ := hguarded
    refine ⟨fun hne => absurd hsuspended hne, fun hne => absurd hsess hne,
      fun hne => absurd ⟨harmed, hbase⟩ (not_and_or.mpr hne),
      fun hne => absurd ⟨hwirq, hrirq⟩ (not_and_or.mpr hne), fun hne => absurd hmask hne, fun hset hclear => ?_,
      fun hclear hset => ?_, fun hne => absurd hptr hne, fun hne => h.time.resolve_left hne⟩
    · obtain hsame | ⟨_, hrep⟩ := h.flag
      · simp [hsame, hclear] at hset
      · exact hrep
    · obtain hsame | ⟨htrue, _⟩ := h.flag
      · simp [hsame, hset] at hclear
      · simp [htrue] at hclear

end Sys2Proof.Machine
end

section
/-! SUPPORT. The read path's part of `Good`: every address register holds an `Addr`, an access follows the enable condition, and the tags
name epochs that have begun (10_state.md R23, R24, R26, R28, R42). Only the Target, DRV_SHIFT, the Responder and RESUME write it. -/

namespace Sys2Proof.Machine

/-! ## The part of `Good` that speaks of `busView` -/

/-- The invariants of the lines, the access, the responder and the tags. -/
structure ReadPathOk (s : State) : Prop where
  addresses : AddressesOk s
  access : AccessOk s
  tags : TagsOk s
  phase : PhaseOk s

theorem Good.readPath {s : State} (h : Good s) : ReadPathOk s := ⟨h.addresses, h.access, h.tags, h.phase⟩

theorem ReadPathOk.congr {s t : State} (h : ReadPathOk s) (hv : t.busView = s.busView) : ReadPathOk t := by
  simp only [State.busView, Prod.mk.injEq] at hv
  obtain ⟨hcfg, hbus, hacc, hresp, hout, hpins⟩ := hv
  have hen : t.en = s.en := by simp only [State.en, hbus]
  exact {
    addresses := by simpa only [AddressesOk, hcfg, hbus, hacc, hresp] using h.addresses
    access := by simpa only [AccessOk, hen, hbus, hacc] using h.access
    tags := by simpa only [TagsOk, TagOk, TaggedAddress, hbus, hresp, hout, hpins] using h.tags
    phase := by simpa only [PhaseOk, hcfg, hresp] using h.phase }

/-! ## The Target -/

/-- No tag names the epoch that the next address change begins. -/
theorem TagOk.ne_next {s : State} {t : Option Nat} (h : TagOk s t) : t ≠ some (s.bus.epoch + 1) := by
  intro ht
  have := h _ ht
  omega

/-- The lines move under an access that has seen nothing (40_bus_decoder.md R121): every tag is now of an earlier epoch. -/
theorem ReadPathOk.moved {s : State} (h : ReadPathOk s) {a : Word} (ha : isAddr s.cfg.addrBits a = true) :
    ReadPathOk (moveLines a { s with acc := { s.acc with seen := none } }) := by
  obtain ⟨haddr, -, hs1, hra, -⟩ := h.addresses
  obtain ⟨ht1, hta, hto, htp, -, -⟩ := h.tags
  have hlater {t : Option Nat} (ht : TagOk s t) (e : Nat) (he : t = some e) : e ≤ s.bus.epoch + 1 :=
    (ht e he).trans (Nat.le_succ _)
  exact {
    addresses := ⟨ha, haddr, hs1, hra, fun _ hseen => by cases hseen⟩
    access := ⟨h.access.1, by simp [moveLines]⟩
    tags := ⟨hlater ht1, hlater hta, hlater hto, hlater htp, fun hnow => absurd hnow ht1.ne_next,
      fun hnow => absurd hnow hta.ne_next⟩
    phase := h.phase }

theorem execBusAddr_readPath {s : State} (h : ReadPathOk s) {a : Word} (ha : isAddr s.cfg.addrBits a = true) :
    Answers (fun t => t.faulted = none → ReadPathOk t) (execBusAddr a s) := by
  refine .live fun hf => .ite (fun _ => .next fun _ => h) fun _ => .ite (fun _ => ?_) fun hclosed => .next fun _ => ?_
  · refine .andThen (detCapture_captured s.acc.seen hf) (fun u hu hrun => .next fun _ => ?_) fun u _ hne hrun => absurd hrun hne
    have hcfg : u.cfg = s.cfg := congrArg Prod.fst hu.bus
    exact (h.congr hu.bus).moved (by rw [hcfg]; exact ha)
  · have hen : s.en = false := by simpa [h.access.1] using hclosed
    have hseen : s.acc.seen = none := by rw [h.access.2, hen]; rfl
    have hacc : { s.acc with seen := none } = s.acc := by rw [← hseen]
    have hm := h.moved ha
    rw [hacc] at hm
    exact hm

theorem execBusSettle_readPath {s : State} (h : ReadPathOk s) : Answers ReadPathOk (execBusSettle s) := by
  obtain ⟨haddr, hprev, hs1, hra, hseen⟩ := h.addresses
  refine .live fun _ => .ite (fun _ => .next h) fun hstable => .ite (fun hopen => .next ?_) fun hshut => .next ?_
  · have hen : s.en = true := h.access.1.symm.trans hopen.1
    exact {
      addresses := ⟨haddr, hprev, hs1, hra, fun a ha => Option.some.inj ha ▸ haddr⟩
      access := ⟨h.access.1, (if_pos ⟨hen, rfl⟩).symm⟩
      tags := h.tags
      phase := h.phase }
  · have hnone : s.acc.seen = none := by rw [h.access.2]; simp [hstable]
    have hen : s.en = false := by
      rw [← h.access.1]
      simpa [hnone] using hshut
    exact {
      addresses := ⟨haddr, hprev, hs1, hra, hseen⟩
      access := ⟨h.access.1, hnone.trans (if_neg fun hon => Bool.false_ne_true (hen.symm.trans hon.1)).symm⟩
      tags := h.tags
      phase := h.phase }

/-- An access register that follows the enable lines (10_state.md R24). -/
theorem ReadPathOk.enabled {s : State} (h : ReadPathOk s) (ce oe : Bool) {acc : Access} (hopen : acc.isOpen = (ce && oe))
    (hseen : acc.seen = if (ce && oe) ∧ s.bus.stable then some s.bus.addr else none) :
    ReadPathOk { s.withEnables ce oe with acc := acc } := by
  obtain ⟨haddr, hprev, hs1, hra, -⟩ := h.addresses
  refine ⟨⟨haddr, hprev, hs1, hra, fun a ha => ?_⟩, ⟨hopen, hseen⟩, h.tags, h.phase⟩
  change acc.seen = some a at ha
  rw [hseen] at ha
  split at ha
  · exact Option.some.inj ha ▸ haddr
  · cases ha

theorem execBusEnable_readPath {s : State} (h : ReadPathOk s) (ce oe : Bool) :
    Answers (fun t => t.faulted = none → ReadPathOk t) (execBusEnable ce oe s) := by
  refine .live fun hf => .ite (fun hrise => .next fun _ => ?_) fun hnorise => .ite (fun hfall => ?_) fun hnofall => .next fun _ => ?_
  · have hen : (ce && oe) = true := hrise.2
    exact h.enabled ce oe hen.symm (by simp [hen])
  · refine .andThen (detCapture_captured (s := s.withEnables ce oe) _ hf) (fun u hu hrun => .next fun _ => ?_)
      fun u _ hne hrun => absurd hrun hne
    have hen : (ce && oe) = false := hfall.2
    have hclosed := h.enabled ce oe (acc := ⟨false, none⟩) hen.symm (by simp [hen])
    refine hclosed.congr ?_
    have hbus := hu.bus
    simp only [State.busView, Prod.mk.injEq] at hbus ⊢
    obtain ⟨hcfg, hlines, -, hrest⟩ := hbus
    exact ⟨hcfg, hlines, trivial, hrest⟩
  · have hsame : (ce && oe) = s.en := by
      change ¬ (s.en = false ∧ (ce && oe) = true) at hnorise
      change ¬ (s.en = true ∧ (ce && oe) = false) at hnofall
      cases hen : s.en <;> cases hco : (ce && oe) <;> simp_all
    exact h.enabled ce oe (acc := s.acc) (by rw [hsame]; exact h.access.1) (by rw [hsame]; exact h.access.2)

theorem execBusLatch_bus (s : State) : Answers (fun t => t.busView = s.busView) (execBusLatch s) := by
  refine .live fun _ => ?_
  cases latchKind s with
  | none => exact .next rfl
  | some kind => exact .next rfl

/-! ## DRV_SHIFT and the Responder -/

theorem execDrvShift_readPath {s : State} (h : ReadPathOk s) : Answers ReadPathOk (execDrvShift s) := by
  obtain ⟨ht1, hta, hto, -, hs1, ha⟩ := h.tags
  exact .live fun _ => .ite (fun _ => .hold) fun _ => .next ⟨h.addresses, h.access, ⟨ht1, hta, hto, hto, hs1, ha⟩, h.phase⟩

/-- A mixture of two addresses drives only lines that exist (41_read_path.md R155). -/
theorem isAddr_mixLines {n : Nat} {new old : Word} (hnew : isAddr n new = true) (hold : isAddr n old = true) (m : Word) :
    isAddr n (mixLines new old m) = true := by
  simp only [isAddr, decide_eq_true_eq] at hnew hold ⊢
  rw [mixLines, BitVec.toNat_or, BitVec.toNat_and, BitVec.toNat_and]
  exact Nat.or_lt_two_pow (lt_of_le_of_lt Nat.and_le_left hnew) (lt_of_le_of_lt Nat.and_le_left hold)

/-- What a sample gives: an address, with a tag only if it is the settled one (41_read_path.md R155). -/
theorem ReadPathOk.sample {s : State} (h : ReadPathOk s) :
    isAddr s.cfg.addrBits (sample s).1 = true ∧ TagOk s (sample s).2.1 ∧ TaggedAddress s (sample s).2.1 (sample s).1 := by
  obtain ⟨haddr, hprev, -⟩ := h.addresses
  unfold Machine.sample
  split
  · exact ⟨haddr, fun _ he => (Option.some.inj he).ge, fun _ => rfl⟩
  · exact ⟨isAddr_mixLines haddr hprev _, fun _ => nofun, nofun⟩

section
variable {s : State} {v : Word} {t : Option Nat}

theorem ReadPathOk.accepted (h : ReadPathOk s) (hv : isAddr s.cfg.addrBits v = true) (ht : TagOk s t)
    (htv : TaggedAddress s t v) : ReadPathOk (acceptSample v t s) := by
  obtain ⟨haddr, hprev, hs1, -, hseen⟩ := h.addresses
  obtain ⟨ht1, -, hto, htp, htag1, -⟩ := h.tags
  exact ⟨⟨haddr, hprev, hs1, hv, hseen⟩, h.access, ⟨ht1, ht, hto, htp, htag1, htv⟩, fun _ => by simp⟩

theorem ReadPathOk.firstSampled (h : ReadPathOk s) (hmode : s.cfg.sampleMode = .double)
    (hv : isAddr s.cfg.addrBits v = true) (ht : TagOk s t) (htv : TaggedAddress s t v) :
    ReadPathOk (firstSample v t s) := by
  obtain ⟨haddr, hprev, -, hra, hseen⟩ := h.addresses
  obtain ⟨-, hta, hto, htp, -, htaga⟩ := h.tags
  exact ⟨⟨haddr, hprev, hv, hra, hseen⟩, h.access, ⟨ht, hta, hto, htp, htv, htaga⟩,
    fun hsingle => absurd (hmode.symm.trans hsingle) (by decide)⟩

end

theorem execRespSample_readPath {s : State} (h : ReadPathOk s) : Answers ReadPathOk (execRespSample s) := by
  intro t ht
  obtain ⟨hv, htag, htagged⟩ := h.sample
  have hstate : (sample s).2.2.busView = s.busView := by
    rcases sample_state s with hs | hs <;> rw [hs]
    rfl
  obtain ⟨_, rfl | ⟨hmode, rfl⟩⟩ := execRespSample_answers s t ht
  · refine (h.accepted hv htag htagged).congr ?_
    simp only [State.busView, Prod.mk.injEq] at hstate ⊢
    simp [hstate]
  · refine (h.firstSampled hmode hv htag htagged).congr ?_
    simp only [State.busView, Prod.mk.injEq] at hstate ⊢
    simp [hstate]

/-- The responder is back at S1, and nothing else of it has moved (41_read_path.md R154, 43_control_plane.md R217). -/
theorem ReadPathOk.restarted {s : State} (h : ReadPathOk s) : ReadPathOk { s with resp := { s.resp with phase := .s1 } } :=
  ⟨h.addresses, h.access, h.tags, fun _ => by simp⟩

theorem execRespServe_readPath {s : State} (h : ReadPathOk s) : Answers ReadPathOk (execRespServe s) := by
  intro t ht
  obtain ⟨ht1, hta, -, htp, htag1, htaga⟩ := h.tags
  have hforward (d : Byte) : ReadPathOk (forwardByte d s) :=
    ⟨h.addresses, h.access, ⟨ht1, hta, hta, htp, htag1, htaga⟩, fun _ => by simp⟩
  obtain ⟨_, d, rfl | rfl⟩ := execRespServe_answers s t ht
  · exact (hforward d).congr rfl
  · exact hforward d

/-! ## The handlers and the calls -/

theorem WriteHandled.bus {s t : State} (h : WriteHandled s t) : t.busView = s.busView := by
  cases h with
  | accepts _ _ _ h =>
    obtain ⟨_, _, hbump⟩ := h
    obtain ⟨m, rfl⟩ := hbump.writes.frame
    rfl
  | defers _ h => exact h ▸ rfl

theorem ReadHandled.bus {s t : State} (h : ReadHandled s t) : t.busView = s.busView := by
  cases h with
  | nothing h => exact h ▸ rfl
  | empties _ _ _ h =>
    obtain ⟨m, rfl⟩ := (writeField_writes _ _ _ _ t h).frame
    rfl
  | offers _ _ h =>
    obtain ⟨m, rfl⟩ := h.writes.frame
    rfl

theorem SessionClosed.bus {s u : State} (h : SessionClosed s u) : u.busView = s.busView := by
  cases h with
  | idle _ h => exact h ▸ rfl
  | closes _ _ hw h =>
    obtain ⟨m, rfl⟩ := hw.frame
    exact h ▸ rfl

theorem CallEffect.readPath {s t : State} {c : Call} (h : CallEffect s c t) (hs : ReadPathOk s) : ReadPathOk t := by
  cases h with
  | opens _ _ hclosed => exact hs.congr hclosed.bus
  | begins hopened =>
    obtain ⟨m, rfl⟩ := hopened.writes.frame
    exact hs.congr rfl
  | ends hclosed => exact hs.congr hclosed.bus
  | publishes _ _ _ hpublished =>
    obtain ⟨_, _, hw⟩ := hpublished.writes
    obtain ⟨m, rfl⟩ := hw.frame
    exact hs.congr rfl
  | replays _ _ haccepted =>
    obtain ⟨_, _, hbump⟩ := haccepted
    obtain ⟨m, rfl⟩ := hbump.writes.frame
    exact hs.congr rfl
  | resumes => exact hs.restarted.congr rfl
  | writes hwrites =>
    obtain ⟨m, rfl⟩ := hwrites.frame
    exact hs.congr rfl
  | _ => exact hs.congr rfl

/-- Every instruction that raises no fault keeps the read path's invariants; BUS_ADDR must drive an `Addr` (30_encoding.md R99(c)). -/
theorem exec_readPath {i : Instr} {s : State} (hi : i.wellFormed s.cfg.addrBits = true) (h : ReadPathOk s) :
    Answers (fun t => t.faulted = none → ReadPathOk t) (exec i s) := by
  intro t ht hrun
  cases i with
  | busAddr a => exact execBusAddr_readPath h hi t ht hrun
  | busSettle => exact execBusSettle_readPath h t ht
  | busEnable ce oe => exact execBusEnable_readPath h ce oe t ht hrun
  | busLatch => exact h.congr (execBusLatch_bus s t ht)
  | oeseqStep =>
    have hbus : Answers (fun t => t.busView = s.busView) (execOeseqStep s) :=
      .live fun _ => .ite (fun _ => .hold) fun _ => .next rfl
    exact h.congr (hbus t ht)
  | drvShift => exact execDrvShift_readPath h t ht
  | repStep =>
    obtain ⟨_, rfl | rfl⟩ := execRepStep_answers s t ht
    · exact h.congr rfl
    · exact h.congr rfl
  | respSample => exact execRespSample_readPath h t ht
  | respServe => exact execRespServe_readPath h t ht
  | irqW =>
    obtain ⟨_, _, hhandled⟩ := execIrqW_handles s t ht
    exact h.congr hhandled.bus
  | irqR =>
    obtain ⟨_, hhandled⟩ := execIrqR_handles s t ht
    exact h.congr hhandled.bus
  | cpStep =>
    obtain ⟨_, _, _, heffect⟩ := execCpStep_effect s t ht
    exact heffect.readPath h
  | tick =>
    obtain rfl := next_eq.mp (live_next.mp ht).2
    exact h.congr rfl
  | mboxOut b => exact h.congr (row_captured (.out b) s t ht).bus
  | mboxConsume => exact h.congr (row_captured .consume s t ht).bus
  | plainRead => exact h.congr (row_captured .plain s t ht).bus
  | _ =>
    obtain ⟨_, rfl | ⟨_, _, rfl⟩⟩ := issue_answers _ s t ht
    · exact h.congr rfl
    · exact h.congr rfl

end Sys2Proof.Machine
end

section
/-! SUPPORT. The Mailbox channel's part of `Good`: the queues, the session, the detectors and the window's fields agree (10_state.md R44(a)
to (i), R21, R22, R29; 60_exceptions.md R260). Captures write only the FIFOs; the handlers, UPDATE and the session calls the rest. -/

namespace Sys2Proof.Machine

/-! ## The part of `Good` that speaks of `channelView` -/

/-- The invariants of the Mailbox channel and of what it stands on. -/
structure ChannelOk (s : State) : Prop where
  config : ConfigOk s
  buffer : BufferOk s
  mask : MaskOk s
  units : UnitsOk s
  detBase : DetBaseAligned s
  inqOk : QueueOk s.inq s.cfg.inqCap
  outqOk : QueueOk s.outq s.cfg.outqCap
  session : SessionOk s
  idle : IdleEmpty s
  window : WindowOk s
  fifos : FifosOk s

theorem Good.channel {s : State} (h : Good s) : ChannelOk s :=
  ⟨h.config, h.buffer, h.mask, h.units, h.detBase, h.r44.inqOk, h.r44.outqOk, h.r44.session, h.r44.idle, h.r44.window,
    h.r44.fifos⟩

theorem ChannelOk.congr {s t : State} (h : ChannelOk s) (hv : t.channelView = s.channelView) (hfifos : FifosOk t) :
    ChannelOk t := by
  simp only [State.channelView, Prod.mk.injEq] at hv
  obtain ⟨hcfg, hrom, hmask, hsess, hinq, houtq, hdeferred, harmed, hbase, hwirq, hrirq⟩ := hv
  have hfield (base : Word) (off : Nat) : t.field base off = s.field base off := by
    simp only [State.field, memRead, hrom]
  exact {
    config := by simpa only [ConfigOk, hcfg] using h.config
    buffer := by simpa only [BufferOk, hcfg, hrom] using h.buffer
    mask := by simpa only [MaskOk, hcfg, hmask] using h.mask
    units := by simpa only [UnitsOk, unitsUsed, hcfg, harmed] using h.units
    detBase := by simpa only [DetBaseAligned, hbase] using h.detBase
    inqOk := by simpa only [hcfg, hinq] using h.inqOk
    outqOk := by simpa only [hcfg, houtq] using h.outqOk
    session := by simpa only [SessionOk, hsess, harmed, hbase, hwirq, hrirq] using h.session
    idle := by simpa only [IdleEmpty, hsess, hinq, houtq, hdeferred] using h.idle
    window := by
      simpa only [WindowOk, WindowPlaced, PendingMirrors, InboundByteIsFront, InboundSeqCounts, OutboundSeqCounts, hfield, hsess,
        hinq, houtq, hmask, hcfg] using h.window
    fifos := hfifos }

/-! ## Legal masks and window bases -/

/-- A legal mask is 2^k − 1, inside the buffer (10_state.md R22). -/
theorem maskLegal_iff {p : Params} {m : Word} :
    maskLegal p m = true ↔ (∃ k, m.toNat + 1 = 2 ^ k) ∧ m.toNat + 1 ≤ p.romCap ∧ m.toNat < 2 ^ p.addrBits := by
  have hpow : isMask m.toNat = true ↔ ∃ k, m.toNat + 1 = 2 ^ k := by
    simp only [isMask, beq_iff_eq]
    refine ⟨fun h => ⟨_, h.symm⟩, fun ⟨k, hk⟩ => ?_⟩
    rw [hk, Nat.log2_two_pow]
  simp only [maskLegal, Bool.and_eq_true, decide_eq_true_eq, hpow, and_assoc]

/-- BEGIN_SESSION's window is aligned and lies under the mask (43_control_plane.md R201, R204). -/
theorem windowBase_placed {p : Params} {m : Word} (hlegal : maskLegal p m = true) (hmin : 0x1FF ≤ m.toNat) (a : Word) :
    (windowBase a m).toNat % 512 = 0 ∧ (windowBase a m).toNat + 511 ≤ m.toNat := by
  obtain ⟨⟨k, hk⟩, -⟩ := maskLegal_iff.mp hlegal
  have hk9 : 9 ≤ k := (Nat.pow_le_pow_iff_right (a := 2) (by omega)).mp (by omega)
  obtain ⟨j, rfl⟩ := Nat.exists_eq_add_of_le hk9
  have hsplit : 2 ^ (9 + j) = 512 * 2 ^ j := Nat.pow_add 2 9 j
  have hmasked : (masked a m).toNat < 2 ^ (9 + j) := by
    have hle : (masked a m).toNat ≤ m.toNat := by
      rw [masked, BitVec.toNat_and]
      exact Nat.and_le_right
    omega
  rw [windowBase, toNat_and_windowMask]
  omega

/-! ## An active session -/

/-- In an active session the window lies inside the buffer, and R44(b), (d) to (h) hold at its base. -/
theorem ChannelOk.at_base {s : State} (h : ChannelOk s) {base : Word} (hbase : s.sess.base = some base) :
    s.sess.active = true ∧ s.det.base = base ∧ base.toNat + 512 ≤ s.cfg.romCap ∧
      WindowPlaced s base ∧ PendingMirrors s base ∧ InboundByteIsFront s base ∧ InboundSeqCounts s base ∧
        OutboundSeqCounts s base := by
  have hactive : s.sess.active = true := h.session.1.mpr (by simp [hbase])
  obtain ⟨_, hdet, _⟩ := h.session.2.1 hactive
  obtain ⟨hplaced, hrest⟩ := h.window base hactive hbase
  have hcap := (maskLegal_iff.mp h.mask).2.1
  exact ⟨hactive, (Option.some.inj (hbase.symm.trans hdet)).symm, by have := hplaced.2.1; omega, hplaced, hrest⟩

/-- A capture writes only the FIFOs. -/
theorem ChannelOk.of_leaves {s t : State} (h : ChannelOk s) (hl : LeavesControl s t) : ChannelOk t :=
  h.congr (congrArg (fun v => v.2.1) hl.control) (hl.fifos h.fifos)

/-- New queues and new values of window words 8 to 20 of an active session: R44(a) for the queues and (e) to (h) for the words are all
there is to show. -/
theorem ChannelOk.rewritten {s t : State} (h : ChannelOk s) {base : Word} (hbase : s.sess.base = some base) {qi qo : Queue}
    (hw : WritesIn (base.toNat + 8) (base.toNat + 24) { s with inq := qi, outq := qo } t) (hqi : QueueOk qi s.cfg.inqCap)
    (hqo : QueueOk qo s.cfg.outqCap) (hpending : t.field base fieldPending = if 0 < qi.count then 1 else 0)
    (hbyte : 0 < qi.count → t.field base fieldInByte = (qi.front s.cfg.inqCap).zeroExtend 32)
    (hin : t.field base fieldInSeq = BitVec.ofNat 32 (qi.tail + if 0 < qi.count then 1 else 0))
    (hout : t.field base fieldOutSeq = BitVec.ofNat 32 qo.head) : ChannelOk t := by
  obtain ⟨hactive, -, -, ⟨haligned, hunder, hfield⟩, -⟩ := h.at_base hbase
  have hbuffer := hw.buffer h.buffer
  have hsame : t.field base fieldActive = s.field base fieldActive :=
    hw.field_eq h.buffer.1 (.inl (by simp [fieldActive, Nat.add_assoc]))
  obtain ⟨m, rfl⟩ := hw.frame
  exact {
    config := h.config
    buffer := hbuffer
    mask := h.mask
    units := h.units
    detBase := h.detBase
    inqOk := hqi
    outqOk := hqo
    session := h.session
    idle := fun hidle => absurd (hactive.symm.trans hidle) (by decide)
    window := fun base' _ hbase' => by
      obtain rfl : base = base' := Option.some.inj (hbase.symm.trans hbase')
      exact ⟨⟨haligned, hunder, hsame.trans hfield⟩, hpending, hbyte, hin, hout⟩
    fifos := h.fifos }

/-! ## The handlers -/

/-- The detectors' FIFOs may shrink at any time. -/
theorem ChannelOk.withFifos {s : State} (h : ChannelOk s) {wfifo : List Byte} {rcount : Nat}
    (hw : wfifo.length ≤ s.det.wfifo.length) (hr : rcount ≤ s.det.rcount) :
    ChannelOk { s with det := { s.det with wfifo := wfifo, rcount := rcount } } :=
  h.congr rfl ⟨hw.trans h.fifos.1, hr.trans h.fifos.2⟩

/-- In an active session the deferred bytes may change freely. -/
theorem ChannelOk.withDeferred {s : State} (h : ChannelOk s) (hactive : s.sess.active = true) (deferred : List Byte) :
    ChannelOk { s with deferred := deferred } :=
  ⟨h.config, h.buffer, h.mask, h.units, h.detBase, h.inqOk, h.outqOk, h.session,
    fun hidle => absurd (hactive.symm.trans hidle) (by decide), h.window, h.fifos⟩

theorem QueueOk.push {q : Queue} {cap : Nat} (h : QueueOk q cap) (hroom : q.count < cap) (b : Byte) :
    QueueOk (q.push cap b) cap := by
  obtain ⟨hlen, hle, _⟩ := h
  refine ⟨by simp [Queue.push, hlen], ?_, ?_⟩ <;> (simp only [Queue.count, Queue.push] at *; omega)

theorem QueueOk.pop {q : Queue} {cap : Nat} (h : QueueOk q cap) (hsome : q.count ≠ 0) : QueueOk q.pop cap := by
  obtain ⟨hlen, hle, hcap⟩ := h
  refine ⟨hlen, ?_, ?_⟩ <;> (simp only [Queue.count, Queue.pop] at *; omega)

theorem QueueOk.clear {q : Queue} {cap : Nat} (h : QueueOk q cap) : QueueOk q.clear cap :=
  ⟨h.1, le_refl 0, Nat.zero_le _⟩

/-- R44(h) goes on: one more byte has entered the Outbound Queue, and its sequence is one more. -/
theorem Accepted.channel {b : Byte} {s t : State} (h : Accepted b s t) (hs : ChannelOk s)
    (hroom : s.outq.count < s.cfg.outqCap) : ChannelOk t := by
  obtain ⟨base, hbase, hbump⟩ := h
  obtain ⟨_, _, _, _, hpending, hbyte, hin, hout⟩ := hs.at_base hbase
  have hwf := hs.buffer.1
  have hvalue : t.field base fieldOutSeq = s.field base fieldOutSeq + 1 := hbump.value hwf
  have hkeep {off : Nat} (hoff : off + 4 ≤ 20) : t.field base off = s.field base off :=
    hbump.writes.field_eq hwf (.inl (by simp only [fieldOutSeq]; omega))
  refine hs.rewritten (qi := s.inq) hbase
    (hbump.writes.mono (by simp [fieldOutSeq]) (by simp [fieldOutSeq, Nat.add_assoc])) hs.inqOk (hs.outqOk.push hroom b)
    ((hkeep (by decide)).trans hpending) (fun hsome => (hkeep (by decide)).trans (hbyte hsome)) ((hkeep (by decide)).trans hin) ?_
  rw [hvalue, hout]
  exact (BitVec.ofNat_add _ _).symm

theorem WriteHandled.channel {s t : State} (h : WriteHandled s t) (hs : ChannelOk s) (hen : s.det.wirqEn = true) :
    ChannelOk t := by
  have hactive : s.sess.active = true := by
    by_contra hidle
    have := (hs.session.2.2 (by simpa using hidle)).1
    simp [hen] at this
  cases h with
  | @accepts b rest hfifo _ hroom h => exact h.channel (hs.withFifos (by simp [hfifo]) (le_refl _)) hroom
  | @defers b rest hfifo h =>
    subst h
    exact (hs.withFifos (wfifo := rest) (by simp [hfifo]) (le_refl _)).withDeferred hactive _

/-- The last byte leaves the Inbound Queue: `pending` falls, and the sequence counts the same bytes (R44(e), (g)). -/
theorem ChannelOk.emptied {s t : State} (hs : ChannelOk s) {base : Word} (hbase : s.sess.base = some base)
    (hsome : s.inq.count ≠ 0) (hlast : s.inq.pop.count = 0) (h : writeField base fieldPending 0 s.popped = .next t) :
    ChannelOk t := by
  obtain ⟨_, _, _, _, _, _, hin, hout⟩ := hs.at_base hbase
  have hwf : Memory.wf s.popped.rom = true := hs.buffer.1
  have hwrites := writeField_writes _ _ _ _ t h
  have hvalue : t.field base fieldPending = 0 := field_writeField_same hwf h
  have hkeep {off : Nat} (hoff : 12 ≤ off) : t.field base off = s.field base off :=
    hwrites.field_eq hwf (.inr (by simp only [fieldPending]; omega))
  have hconsumed : ChannelOk s.consumed := hs.withFifos (le_refl _) (Nat.sub_le _ _)
  refine hconsumed.rewritten (qo := s.outq) hbase (hwrites.mono (by simp [fieldPending]) (by simp [fieldPending, Nat.add_assoc]))
    (hs.inqOk.pop hsome) hs.outqOk (by simp [hvalue, hlast]) (by simp [hlast]) ?_ ((hkeep (by decide)).trans hout)
  have hone : s.inq.count = 1 := by
    rw [Queue.count_pop] at hlast
    omega
  rw [hkeep (by decide), hin, if_pos (by omega), if_neg (by omega)]
  rfl

/-- The front byte leaves the Inbound Queue and the next one is offered (R44(f), (g)). -/
theorem ChannelOk.offered {s t : State} (hs : ChannelOk s) {base : Word} (hbase : s.sess.base = some base)
    (hmore : s.inq.pop.count ≠ 0) (h : Offered base (s.inq.pop.front s.cfg.inqCap) s.popped t) : ChannelOk t := by
  obtain ⟨_, _, _, _, hpending, _, hin, hout⟩ := hs.at_base hbase
  have hwf : Memory.wf s.popped.rom = true := hs.buffer.1
  have hsome : s.inq.count ≠ 0 := by
    rw [Queue.count_pop] at hmore
    omega
  have hseq : t.field base fieldInSeq = s.field base fieldInSeq + 1 := h.seq hwf
  have hkeep {off : Nat} (hoff : off + 4 ≤ 12 ∨ 20 ≤ off) : t.field base off = s.field base off :=
    h.writes.field_eq hwf (by omega)
  have hconsumed : ChannelOk s.consumed := hs.withFifos (le_refl _) (Nat.sub_le _ _)
  refine hconsumed.rewritten (qo := s.outq) hbase (h.writes.mono (by omega) (by omega)) (hs.inqOk.pop hsome) hs.outqOk ?_
    (fun _ => h.byte hwf) ?_ ((hkeep (by decide)).trans hout)
  · rw [hkeep (by decide), hpending, if_pos (Nat.pos_of_ne_zero hsome), if_pos (Nat.pos_of_ne_zero hmore)]
  · rw [hseq, hin, if_pos (Nat.pos_of_ne_zero hsome), if_pos (Nat.pos_of_ne_zero hmore)]
    exact (BitVec.ofNat_add _ _).symm

theorem ReadHandled.channel {s t : State} (h : ReadHandled s t) (hs : ChannelOk s) : ChannelOk t := by
  cases h with
  | nothing h => exact h ▸ hs.withFifos (le_refl _) (Nat.sub_le _ _)
  | empties hbase hsome hlast h => exact hs.emptied hbase hsome hlast h
  | offers hbase hmore h => exact hs.offered hbase hmore h

/-! ## The calls -/

/-- A byte joins an Inbound Queue that holds some: the front and both counters are as they were (43_control_plane.md R209). -/
theorem ChannelOk.joined {s t : State} (hs : ChannelOk s) {b : Byte} {base : Word} (hbase : s.sess.base = some base)
    (hroom : s.inq.count < s.cfg.inqCap) (hsome : s.inq.count ≠ 0)
    (h : writeField base fieldPending 1 (s.joined b) = .next t) : ChannelOk t := by
  obtain ⟨_, _, _, _, _, hbyte, hin, hout⟩ := hs.at_base hbase
  have hpos := Nat.pos_of_ne_zero hsome
  have hwf : Memory.wf (s.joined b).rom = true := hs.buffer.1
  have hwrites := writeField_writes _ _ _ _ t h
  have hkeep {off : Nat} (hoff : 12 ≤ off) : t.field base off = s.field base off :=
    hwrites.field_eq hwf (.inr (by simp only [fieldPending]; omega))
  have hcount : 0 < (s.inq.push s.cfg.inqCap b).count := by
    rw [Queue.count_push b hs.inqOk.2.1]
    omega
  have hfront : (s.inq.push s.cfg.inqCap b).front s.cfg.inqCap = s.inq.front s.cfg.inqCap := by
    have := hs.inqOk.2.1
    simp only [Queue.count] at hroom hpos
    exact Queue.front_push_nonempty b (by omega) (by omega)
  refine hs.rewritten (qo := s.outq) hbase (hwrites.mono (by simp [fieldPending]) (by simp [fieldPending, Nat.add_assoc]))
    (hs.inqOk.push hroom b) hs.outqOk ?_ (fun _ => ?_) ?_ ((hkeep (by decide)).trans hout)
  · rw [if_pos hcount]
    exact field_writeField_same hwf h
  · rw [hkeep (by decide), hbyte hpos, hfront]
  · rw [hkeep (by decide), hin, if_pos hpos, if_pos hcount]
    rfl

/-- A byte joins an empty Inbound Queue: it is the front, and is offered (43_control_plane.md R209). -/
theorem ChannelOk.joinedFirst {s u t : State} (hs : ChannelOk s) {b : Byte} {base : Word} (hbase : s.sess.base = some base)
    (hroom : s.inq.count < s.cfg.inqCap) (hempty : s.inq.count = 0)
    (hu : writeField base fieldPending 1 (s.joined b) = .next u) (h : Offered base b u t) :
    ChannelOk t := by
  obtain ⟨_, _, _, _, _, _, hin, hout⟩ := hs.at_base hbase
  have hwf : Memory.wf (s.joined b).rom = true := hs.buffer.1
  have hwrites := writeField_writes _ _ _ _ u hu
  have hwfu : Memory.wf u.rom = true := hwrites.wf hwf
  have hkeepu {off : Nat} (hoff : 12 ≤ off) : u.field base off = s.field base off :=
    hwrites.field_eq hwf (.inr (by simp only [fieldPending]; omega))
  have hkeep {off : Nat} (hoff : off + 4 ≤ 12 ∨ 20 ≤ off) : t.field base off = u.field base off :=
    h.writes.field_eq hwfu (by omega)
  have hcount : 0 < (s.inq.push s.cfg.inqCap b).count := by
    rw [Queue.count_push b hs.inqOk.2.1]
    omega
  have hfront : (s.inq.push s.cfg.inqCap b).front s.cfg.inqCap = b := by
    have := hs.inqOk.2.1
    simp only [Queue.count] at hempty
    exact Queue.front_push_empty b (by omega) hs.inqOk.1 (by omega)
  have hw : WritesIn (base.toNat + 8) (base.toNat + 24) (s.joined b) t :=
    (hwrites.mono (by simp [fieldPending]) (by simp [fieldPending, Nat.add_assoc])).trans (h.writes.mono (by omega) (by omega))
  refine hs.rewritten (qo := s.outq) hbase hw (hs.inqOk.push hroom b) hs.outqOk ?_ (fun _ => ?_) ?_ ?_
  · rw [hkeep (by decide), if_pos hcount]
    exact field_writeField_same hwf hu
  · rw [h.byte hwfu, hfront]
  · rw [h.seq hwfu, hkeepu (by decide), hin, hempty, if_pos hcount]
    exact (BitVec.ofNat_add _ _).symm
  · rw [hkeep (by decide), hkeepu (by decide), hout]

theorem Published.channel {b : Byte} {s t : State} (h : Published b s t) (hs : ChannelOk s)
    (hroom : s.inq.count < s.cfg.inqCap) : ChannelOk t := by
  cases h with
  | joins hbase hsome h => exact hs.joined hbase hroom hsome h
  | first hbase hempty hu h => exact hs.joinedFirst hbase hroom hempty hu h

/-- After a close no session is active and the channel is empty (43_control_plane.md R201, R206). -/
theorem SessionClosed.inactive {s u : State} (h : SessionClosed s u) : u.sess.active = false := by
  cases h with
  | idle hidle h => exact h ▸ hidle
  | closes _ _ _ h => exact h ▸ rfl

theorem SessionClosed.channel {s u : State} (h : SessionClosed s u) (hs : ChannelOk s) : ChannelOk u := by
  cases h with
  | idle _ h => exact h ▸ hs
  | closes _ _ hw h =>
    have hbuffer := hw.buffer hs.buffer
    obtain ⟨m, rfl⟩ := hw.frame
    subst h
    exact {
      config := hs.config
      buffer := hbuffer
      mask := hs.mask
      units := hs.units
      detBase := hs.detBase
      inqOk := hs.inqOk.clear
      outqOk := hs.outqOk.clear
      session := ⟨by simp [State.sessionClosed], nofun, fun _ => ⟨rfl, rfl⟩⟩
      idle := fun _ => ⟨rfl, rfl, rfl⟩
      window := fun _ hactive => absurd hactive Bool.false_ne_true
      fifos := hs.fifos }

/-- A fresh window at a placed base, with empty queues and FIFOs (43_control_plane.md R202). -/
theorem WindowOpened.channel {base : Word} {s u : State} (h : WindowOpened base s u) (hs : ChannelOk s)
    (hunits : 5 ≤ s.cfg.smUnits) (haligned : base.toNat % 512 = 0) (hunder : base.toNat + 511 ≤ s.addressMask.toNat) :
    ChannelOk u := by
  have hwf := hs.buffer.1
  have hbuffer := h.writes.buffer hs.buffer
  have hactive := h.active hwf
  have hzero := h.zero hwf
  obtain ⟨m, rfl⟩ := h.writes.frame
  exact {
    config := hs.config
    buffer := hbuffer
    mask := hs.mask
    units := hunits
    detBase := haligned
    inqOk := hs.inqOk.clear
    outqOk := hs.outqOk.clear
    session := ⟨by simp, fun _ => ⟨rfl, rfl, rfl, rfl⟩, nofun⟩
    idle := nofun
    window := fun base' _ hbase' => by
      obtain rfl : base = base' := Option.some.inj hbase'
      refine ⟨⟨haligned, hunder, hactive⟩, ?_, nofun, ?_, ?_⟩ <;> exact hzero _ (by decide) (by decide)
    fifos := ⟨Nat.zero_le _, Nat.zero_le _⟩ }

/-- Bytes written inside the buffer and apart from an active session's window (43_control_plane.md R222). -/
theorem ChannelOk.written {lo hi : Nat} {s u : State} (hs : ChannelOk s) (hw : WritesIn lo hi s u)
    (hapart : s.sess.active = true → s.det.base.toNat + 512 ≤ lo ∨ hi ≤ s.det.base.toNat) : ChannelOk u := by
  have hbuffer := hw.buffer hs.buffer
  have hfield (hactive : s.sess.active = true) {off : Nat} (hoff : off + 4 ≤ 512) :
      u.field s.det.base off = s.field s.det.base off :=
    hw.field_eq hs.buffer.1 (by have := hapart hactive; omega)
  have hwindow := hs.window
  obtain ⟨m, rfl⟩ := hw.frame
  refine { hs with buffer := hbuffer, window := fun base hactive hbase => ?_ }
  obtain ⟨_, hdet, _⟩ := hs.session.2.1 hactive
  obtain rfl : s.det.base = base := Option.some.inj (hdet.symm.trans hbase)
  obtain ⟨⟨haligned, hunder, hon⟩, hpending, hbyte, hin, hout⟩ := hwindow _ hactive hbase
  exact ⟨⟨haligned, hunder, (hfield hactive (by decide)).trans hon⟩, (hfield hactive (by decide)).trans hpending,
    fun hsome => (hfield hactive (by decide)).trans (hbyte hsome), (hfield hactive (by decide)).trans hin,
    (hfield hactive (by decide)).trans hout⟩

end Sys2Proof.Machine
end

section
/-! SUPPORT. A decoded operation is well formed (30_encoding.md R99). -/

namespace Sys2Proof

/-- If an operation stands here, it is well formed. -/
def Decoded.WellFormed (addrBits : Nat) (d : Decoded) : Prop := ∀ i n, d = .op i n → i.wellFormed addrBits = true

section
variable {addrBits : Nat}

theorem Decoded.WellFormed.op {i : Instr} {n : Nat} (h : i.wellFormed addrBits = true) :
    Decoded.WellFormed addrBits (.op i n) := by
  intro j m hj
  cases hj
  exact h

theorem Decoded.WellFormed.invalid {e : DecodeError} : Decoded.WellFormed addrBits (.invalid e) := nofun

theorem decodeA32_wellFormed {ok : Word → Bool} {mk : Word → Instr}
    (h : ∀ a, ok a = true → (mk a).wellFormed addrBits = true) (args : List Byte) :
    (decodeA32 ok mk args).WellFormed addrBits := by
  unfold decodeA32
  split
  · dsimp only
    split
    next hok => exact .op (h _ hok)
    next => exact .invalid
  · exact .invalid

theorem decodeE8_wellFormed (args : List Byte) : (decodeE8 args).WellFormed addrBits := by
  unfold decodeE8
  split
  · split
    · exact .op rfl
    · exact .invalid
  · exact .invalid

theorem decodeR8_wellFormed (args : List Byte) : (decodeR8 args).WellFormed addrBits := by
  unfold decodeR8
  split
  · split
    · exact .op rfl
    · split
      · exact .op rfl
      · exact .invalid
  · exact .invalid

theorem decodeL16_wellFormed {mk : Half → Instr} (h : ∀ n, (mk n).wellFormed addrBits = true) (args : List Byte) :
    (decodeL16 mk args).WellFormed addrBits := by
  unfold decodeL16
  split
  · exact .op (h _)
  · exact .invalid

/-- The data that a two-byte length takes fits the length (30_encoding.md R94). -/
theorem fitsLength_take (l0 l1 : Byte) (rest : List Byte) : fitsLength (rest.take (leValue [l0, l1])) = true := by
  have hlen : leValue [l0, l1] < 256 ^ 2 := leValue_lt [l0, l1]
  simp only [fitsLength, decide_eq_true_eq, List.length_take]
  omega

theorem decodeLD_wellFormed {mk : List Byte → Instr}
    (h : ∀ data, fitsLength data = true → (mk data).wellFormed addrBits = true) (args : List Byte) :
    (decodeLD mk args).WellFormed addrBits := by
  unfold decodeLD
  split
  · dsimp only
    split
    · exact .op (h _ (fitsLength_take _ _ _))
    · exact .invalid
  · exact .invalid

theorem decodeTD_wellFormed {mk : Word → List Byte → Instr}
    (h : ∀ t data, fitsLength data = true → (mk t data).wellFormed addrBits = true) (args : List Byte) :
    (decodeTD mk args).WellFormed addrBits := by
  unfold decodeTD
  split
  · dsimp only
    split
    · exact .op (h _ _ (fitsLength_take _ _ _))
    · exact .invalid
  · exact .invalid

end

/-- An operation that the decoder reads is well formed (30_encoding.md R99). -/
theorem decodeOp_wellFormed (addrBits : Nat) (bs : List Byte) : (decodeOp addrBits bs).WellFormed addrBits := by
  unfold decodeOp
  split
  · exact nofun
  · -- The rows of the operation map in order (30_encoding.md R96): those that are not format F0, then the rest.
    split
    case h_1 => exact decodeA32_wellFormed (mk := .busAddr) (fun _ h => h) _
    case h_3 => exact decodeE8_wellFormed _
    case h_13 | h_19 | h_20 => exact decodeA32_wellFormed (fun _ _ => rfl) _
    case h_15 => exact decodeTD_wellFormed (mk := .update) (fun _ _ h => h) _
    case h_18 => exact decodeR8_wellFormed _
    case h_22 => exact decodeLD_wellFormed (mk := .romWrite) (fun _ h => h) _
    case h_23 => exact decodeL16_wellFormed (fun _ => rfl) _
    case h_27 => exact .invalid
    all_goals exact .op rfl

end Sys2Proof
end

section
/-! SUPPORT. The call record's part of `Good` (10_state.md R37, R38), and with it the whole invariant, kept by every step. -/

namespace Sys2Proof.Machine

/-! ## What `callOk` says of each call -/

section
variable {s : State}

theorem callOk_none (hc : s.call = none) : callOk s = true ↔ s.inflight = none := by simp [callOk, hc]

theorem callOk_beginB1 {a b : Word} (hc : s.call = some (.begin a b .b1)) :
    callOk s = true ↔ s.inflight = none ∧ s.suspended = false := by simp [callOk, hc]

theorem callOk_beginB2 {a base : Word} (hc : s.call = some (.begin a base .b2)) :
    callOk s = true ↔ s.inflight = some (base.toNat, base.toNat + 512) ∧ s.sess.active = false ∧ s.suspended = false ∧
      base.toNat % 512 = 0 ∧ base.toNat + 511 ≤ s.addressMask.toNat ∧ 5 ≤ s.cfg.smUnits := by
  simp [callOk, hc, and_assoc]

theorem callOk_romWriteW1 {data : List Byte} (hc : s.call = some (.romWrite data .w1)) :
    callOk s = true ↔ s.inflight = none ∧ s.suspended = false := by simp [callOk, hc]

theorem callOk_romWriteW2 {data : List Byte} (hc : s.call = some (.romWrite data .w2)) :
    callOk s = true ↔ s.inflight = some (s.romPtr.toNat, s.romPtr.toNat + data.length) ∧ s.suspended = false ∧
      s.romPtr.toNat + data.length ≤ s.cfg.romCap ∧
      (s.sess.active = true → s.det.base.toNat + 512 ≤ s.romPtr.toNat ∨ s.romPtr.toNat + data.length ≤ s.det.base.toNat) := by
  cases hactive : s.sess.active <;> simp [callOk, hc, hactive, and_assoc]

theorem callOk_update {u : UpdateCall} (hc : s.call = some (.update u)) :
    callOk s = true ↔ s.inflight = none ∧ s.suspended = false ∧ u.i ≤ u.data.length ∧ u.chunk.length < s.cfg.chunkSize ∧
      u.t0 ≤ s.nowMs ∧ (u.phase = .u0 → u.chunk = []) ∧ (u.phase ≠ .u0 → s.sess.active = true) ∧
      (u.phase = .u2 → u.left ≤ s.outq.count + s.deferred.length) := by
  cases hphase : u.phase <;> simp [callOk, hc, hphase, and_assoc]

/-- A call of one step, or one that has not written yet, has nothing in flight. -/
theorem inflight_of_callOk {c : Call} (hc : s.call = some c) (h : callOk s = true)
    (hbegin : ∀ a b, c ≠ .begin a b .b2) (hwrite : ∀ data, c ≠ .romWrite data .w2) : s.inflight = none := by
  cases c with
  | begin a b phase =>
    cases phase with
    | b1 => exact ((callOk_beginB1 hc).mp h).1
    | b2 => exact absurd rfl (hbegin a b)
  | update u => exact ((callOk_update hc).mp h).1
  | romWrite data phase =>
    cases phase with
    | w1 => exact ((callOk_romWriteW1 hc).mp h).1
    | w2 => exact absurd rfl (hwrite data)
  | _ =>
    simp only [callOk, hc, Bool.and_eq_true, beq_iff_eq] at h
    exact h.1

/-- A returned call leaves nothing in flight. -/
theorem callOk_returned {name : CallName} {v : ResultValue} (h : s.inflight = none) : callOk (s.returned name v) = true :=
  (callOk_none rfl).mpr h

end

/-- A step that only lets time pass or bytes join the Outbound Queue or the deferred ones keeps what the call record says. -/
theorem callOk_mono {s t : State} (hv : t.callView = s.callView) (hnow : s.nowMs ≤ t.nowMs)
    (hheld : s.outq.count + s.deferred.length ≤ t.outq.count + t.deferred.length) (h : callOk s = true) : callOk t = true := by
  simp only [State.callView, Prod.mk.injEq] at hv
  obtain ⟨hcfg, hmask, hsess, hsuspended, hptr, hcall, hinflight, hbase⟩ := hv
  by_cases hc : ∃ u, s.call = some (.update u)
  · obtain ⟨u, hc⟩ := hc
    obtain ⟨hinfl, hsusp, hi, hchunk, ht0, hu0, hu1, hu2⟩ := (callOk_update hc).mp h
    exact (callOk_update (hcall.trans hc)).mpr ⟨hinflight.trans hinfl, hsuspended.trans hsusp, hi, hcfg ▸ hchunk, ht0.trans hnow,
      hu0, fun hp => hsess ▸ hu1 hp, fun hp => (hu2 hp).trans hheld⟩
  · simp only [callOk, hcfg, hmask, hsess, hsuspended, hptr, hcall, hinflight, hbase] at h ⊢
    split at h
    case h_6 u hu => exact absurd ⟨u, hu⟩ hc
    all_goals simp_all

/-! ## The control plane's part of `Good` -/

/-- The Mailbox channel and the call record. -/
structure ControlOk (s : State) : Prop where
  channel : ChannelOk s
  callRecord : callOk s = true

/-- `Good` is what the read path, the channel and the call record say; R44(j) follows from the last. -/
theorem good_iff {s : State} : Good s ↔ ReadPathOk s ∧ ControlOk s := by
  refine ⟨fun h => ⟨h.readPath, h.channel, h.callRecord⟩, fun ⟨hread, hchannel, hcall⟩ => ?_⟩
  exact {
    config := hchannel.config
    r44 := {
      inqOk := hchannel.inqOk
      outqOk := hchannel.outqOk
      session := hchannel.session
      idle := hchannel.idle
      window := hchannel.window
      fifos := hchannel.fifos
      inflight := fun hnone => (callOk_none hnone).mp hcall }
    buffer := hchannel.buffer
    mask := hchannel.mask
    addresses := hread.addresses
    access := hread.access
    detBase := hchannel.detBase
    units := hchannel.units
    tags := hread.tags
    phase := hread.phase
    callRecord := hcall }

theorem ControlOk.of_leaves {s t : State} (h : ControlOk s) (hl : LeavesControl s t) : ControlOk t := by
  refine ⟨h.channel.of_leaves hl, ?_⟩
  have hcontrol := hl.control
  simp only [State.controlView, State.channelView, Prod.mk.injEq] at hcontrol
  obtain ⟨hcall, ⟨-, -, -, -, -, houtq, hdeferred, -⟩, hnow, -⟩ := hcontrol
  exact callOk_mono hcall hnow.ge (by rw [houtq, hdeferred]) h.callRecord

/-! ## The handlers -/

theorem WriteHandled.control {s t : State} (h : WriteHandled s t) (hs : ControlOk s) (hen : s.det.wirqEn = true) :
    ControlOk t := by
  refine ⟨h.channel hs.channel hen, ?_⟩
  cases h with
  | @accepts b _ _ _ _ h =>
    obtain ⟨_, _, hbump⟩ := h
    obtain ⟨m, rfl⟩ := hbump.writes.frame
    refine callOk_mono (s := s) rfl (le_refl _) ?_ hs.callRecord
    have hpush := Queue.count_push (cap := s.cfg.outqCap) b hs.channel.outqOk.2.1
    dsimp only
    omega
  | defers _ h =>
    subst h
    exact callOk_mono (s := s) rfl (le_refl _) (by simp) hs.callRecord

theorem ReadHandled.control {s t : State} (h : ReadHandled s t) (hs : ControlOk s) : ControlOk t := by
  refine ⟨h.channel hs.channel, ?_⟩
  cases h with
  | nothing h => exact h ▸ callOk_mono (s := s) rfl (le_refl _) (le_refl _) hs.callRecord
  | empties _ _ _ h =>
    obtain ⟨m, rfl⟩ := (writeField_writes _ _ _ _ t h).frame
    exact callOk_mono (s := s) rfl (le_refl _) (le_refl _) hs.callRecord
  | offers _ _ h =>
    obtain ⟨m, rfl⟩ := h.writes.frame
    exact callOk_mono (s := s) rfl (le_refl _) (le_refl _) hs.callRecord

/-! ## The calls -/

/-- A byte leaves the Outbound Queue of an active session; its sequence counts entries only (R44(h)). -/
theorem ChannelOk.drained {s : State} (h : ChannelOk s) (hactive : s.sess.active = true) (hcount : 0 < s.outq.count) :
    ChannelOk { s with outq := s.outq.pop } :=
  ⟨h.config, h.buffer, h.mask, h.units, h.detBase, h.inqOk, h.outqOk.pop (Nat.ne_of_gt hcount), h.session,
    fun hidle => absurd (hactive.symm.trans hidle) (by decide), h.window, h.fifos⟩

/-- With no active session the mask may take any legal value (43_control_plane.md R219). -/
theorem ChannelOk.withMask {s : State} (h : ChannelOk s) {m : Word} (hlegal : maskLegal s.cfg m = true)
    (hidle : s.sess.active = false) : ChannelOk { s with addressMask := m } :=
  ⟨h.config, h.buffer, hlegal, h.units, h.detBase, h.inqOk, h.outqOk, h.session, h.idle,
    fun _ hactive => absurd (hidle.symm.trans hactive) (by decide), h.fifos⟩

theorem CallEffect.channel {s t : State} {c : Call} (h : CallEffect s c t) (hc : s.call = some c) (hs : ControlOk s)
    (hrun : t.faulted = none) : ChannelOk t := by
  obtain ⟨hchannel, hcall⟩ := hs
  cases h with
  | raises code => cases hrun
  | opens _ _ hclosed =>
    have hu := hclosed.channel hchannel
    exact hu.congr rfl hu.fifos
  | begins hopened =>
    obtain ⟨_, _, _, haligned, hunder, hunits⟩ := (callOk_beginB2 hc).mp hcall
    have hu := hopened.channel hchannel hunits haligned hunder
    exact hu.congr rfl hu.fifos
  | ends hclosed =>
    have hu := hclosed.channel hchannel
    exact hu.congr rfl hu.fifos
  | publishes _ _ hroom hpublished =>
    have ht := hpublished.channel hchannel hroom
    exact ht.congr rfl ht.fifos
  | drains _ hphase hcount =>
    obtain ⟨_, _, _, _, _, _, hactive, _⟩ := (callOk_update hc).mp hcall
    exact (hchannel.drained (hactive hphase) hcount).congr rfl hchannel.fifos
  | replays hempty _ haccepted =>
    have ⟨base, hbase, _⟩ := haccepted
    have hroom : s.outq.count < s.cfg.outqCap := hempty ▸ (configProblem_none hchannel.config).2.2.1
    exact haccepted.channel (hchannel.withDeferred (hchannel.at_base hbase).1 _) hroom
  | setsMask _ hidle hlegal => exact (hchannel.withMask hlegal hidle).congr rfl hchannel.fifos
  | writes hwrites =>
    obtain ⟨_, _, _, hapart⟩ := (callOk_romWriteW2 hc).mp hcall
    have hu := hchannel.written hwrites hapart
    exact hu.congr rfl hu.fifos
  | _ => exact hchannel.congr rfl hchannel.fifos

theorem SessionClosed.call_frame {s u : State} (h : SessionClosed s u) :
    u.cfg = s.cfg ∧ u.addressMask = s.addressMask ∧ u.suspended = s.suspended ∧ u.inflight = s.inflight := by
  cases h with
  | idle _ h => exact h ▸ ⟨rfl, rfl, rfl, rfl⟩
  | closes _ _ hw h =>
    obtain ⟨m, rfl⟩ := hw.frame
    exact h ▸ ⟨rfl, rfl, rfl, rfl⟩

theorem CallEffect.callRecord {s t : State} {c : Call} (h : CallEffect s c t) (hc : s.call = some c) (hs : ControlOk s)
    (hrun : t.faulted = none) : callOk t = true := by
  obtain ⟨hchannel, hcall⟩ := hs
  cases h with
  | raises code => cases hrun
  | opens hunits hmask hclosed =>
    obtain ⟨_, hrunning⟩ := (callOk_beginB1 hc).mp hcall
    obtain ⟨hcfg, hm, hsuspended, _⟩ := hclosed.call_frame
    obtain ⟨haligned, hunder⟩ := windowBase_placed hchannel.mask hmask _
    rw [← hm] at haligned hunder
    exact (callOk_beginB2 rfl).mpr
      ⟨rfl, hclosed.inactive, hsuspended.trans hrunning, haligned, hunder, hcfg ▸ hunits⟩
  | begins => exact callOk_returned rfl
  | ends hclosed =>
    obtain ⟨_, _, _, hinflight⟩ := hclosed.call_frame
    exact callOk_returned (hinflight.trans (inflight_of_callOk hc hcall nofun nofun))
  | starts hactive hphase =>
    obtain ⟨hinflight, hrunning, hi, hchunk, _, _⟩ := (callOk_update hc).mp hcall
    refine (callOk_update rfl).mpr ?_
    exact ⟨hinflight, hrunning, hi, hchunk, le_refl _, nofun, fun _ => hactive, nofun⟩
  | publishes hphase hdata _ hpublished =>
    obtain ⟨hinflight, hrunning, _, hchunk, ht0, hu0, hu1, _⟩ := (callOk_update hc).mp hcall
    obtain ⟨_, _, hw⟩ := hpublished.writes
    obtain ⟨m, rfl⟩ := hw.frame
    obtain ⟨hi, _⟩ := List.getElem?_eq_some_iff.mp hdata
    refine (callOk_update rfl).mpr ?_
    exact ⟨hinflight, hrunning, hi, hchunk, ht0, hu0, hu1, by simp [hphase]⟩
  | allPublished hphase =>
    obtain ⟨hinflight, hrunning, hi, hchunk, ht0, _, hu1, _⟩ := (callOk_update hc).mp hcall
    refine (callOk_update rfl).mpr ?_
    exact ⟨hinflight, hrunning, hi, hchunk, ht0, nofun, fun _ => hu1 (by simp [hphase]), fun _ => le_refl _⟩
  | drains _ hphase hcount hchunk hleft =>
    obtain ⟨hinflight, hrunning, hi, hshort, ht0, _, hu1, hu2⟩ := (callOk_update hc).mp hcall
    refine (callOk_update rfl).mpr ?_
    refine ⟨hinflight, hrunning, hi, hchunk hshort, ht0, fun hp => absurd hp hphase, hu1, fun hp => ?_⟩
    have hbound := hu2 hp
    have hstep := hleft hp
    have hpop := Queue.count_pop s.outq
    dsimp only
    omega
  | @replays u b rest _ hempty hdeferred haccepted =>
    obtain ⟨_, _, hbump⟩ := haccepted
    obtain ⟨m, rfl⟩ := hbump.writes.frame
    refine callOk_mono (s := s) rfl (le_refl s.nowMs) ?_ hcall
    have hpush := Queue.count_push (cap := s.cfg.outqCap) b hchannel.outqOk.2.1
    have hlen := congrArg List.length hdeferred
    simp only [List.length_cons] at hlen
    dsimp only
    omega
  | claims hin hapart =>
    obtain ⟨_, hrunning⟩ := (callOk_romWriteW1 hc).mp hcall
    refine (callOk_romWriteW2 rfl).mpr ⟨rfl, hrunning, hin, fun hactive => ?_⟩
    obtain ⟨base, hbase, h⟩ := hapart hactive
    obtain ⟨_, rfl, _⟩ := hchannel.at_base hbase
    exact h
  | writes => exact callOk_returned rfl
  | _ => exact callOk_returned (show s.inflight = none from inflight_of_callOk hc hcall nofun nofun)

/-- A Host operation is the issue of its call (43_control_plane.md R200). -/
theorem exec_of_hostCall {i : Instr} {c : Call} (hi : hostCall i = some c) (s : State) : exec i s = live s (issue c s) := by
  cases i <;> cases hi <;> rfl

/-- A call as it is issued says nothing that the state does not hold. -/
theorem callOk_issued {i : Instr} {c : Call} {s : State} (hi : hostCall i = some c) (hs : ControlOk s) (hnone : s.call = none)
    (hadmit : ¬ (s.suspended = true ∧ c.admittedSuspended = false)) : callOk { s with call := some c } = true := by
  have hinflight := (callOk_none hnone).mp hs.callRecord
  have hrunning (h : c.admittedSuspended = false) : s.suspended = false := by simpa [h] using hadmit
  cases i with
  | beginSession a =>
    cases hi
    exact (callOk_beginB1 rfl).mpr ⟨hinflight, hrunning rfl⟩
  | update timeout data =>
    cases hi
    have hchunk := (configProblem_none hs.channel.config).2.2.2.1
    refine (callOk_update rfl).mpr ?_
    exact ⟨hinflight, hrunning rfl, Nat.zero_le _, hchunk, Nat.zero_le _, fun _ => rfl, fun hp => absurd rfl hp, nofun⟩
  | romWrite data =>
    cases hi
    exact (callOk_romWriteW1 rfl).mpr ⟨hinflight, hrunning rfl⟩
  | suspend | resume | persist | setMask =>
    cases hi
    simp [callOk, hinflight, Call.admittedSuspended]
  | endSession | romSetptr | romGetptr | romRead | accflagRead | accflagClear =>
    cases hi
    simp [callOk, hinflight, hrunning rfl]
  | _ => cases hi

theorem issue_control {i : Instr} {c : Call} {s t : State} (hi : hostCall i = some c) (hs : ControlOk s)
    (ht : exec i s = .next t) (hrun : t.faulted = none) : ControlOk t := by
  rw [exec_of_hostCall hi] at ht
  obtain ⟨_, rfl | ⟨hnone, hadmit, rfl⟩⟩ := issue_answers c s t ht
  · cases hrun
  · exact ⟨hs.channel.congr rfl hs.channel.fifos, callOk_issued hi hs hnone hadmit⟩

/-! ## Every instruction -/

/-- Every instruction that raises no fault keeps the control plane's invariants. -/
theorem exec_control {i : Instr} {s t : State} (hs : ControlOk s) (ht : exec i s = .next t) (hrun : t.faulted = none) :
    ControlOk t := by
  cases i with
  | busAddr a => exact hs.of_leaves (execBusAddr_leaves a s t ht)
  | busSettle => exact hs.of_leaves (execBusSettle_leaves s t ht)
  | busEnable ce oe => exact hs.of_leaves (execBusEnable_leaves ce oe s t ht)
  | busLatch => exact hs.of_leaves (execBusLatch_leaves s t ht)
  | oeseqStep => exact hs.of_leaves (execOeseqStep_leaves s t ht)
  | drvShift => exact hs.of_leaves (execDrvShift_leaves s t ht)
  | repStep =>
    obtain ⟨_, rfl | rfl⟩ := execRepStep_answers s t ht
    · exact ⟨hs.channel.congr rfl hs.channel.fifos, callOk_mono (s := s) rfl (le_refl _) (le_refl _) hs.callRecord⟩
    · exact ⟨hs.channel.congr rfl hs.channel.fifos, callOk_mono (s := s) rfl (le_refl _) (le_refl _) hs.callRecord⟩
  | respSample => exact hs.of_leaves (execRespSample_leaves s t ht)
  | respServe => exact hs.of_leaves (execRespServe_leaves s t ht)
  | irqW =>
    obtain ⟨_, hen, hhandled⟩ := execIrqW_handles s t ht
    exact hhandled.control hs hen
  | irqR =>
    obtain ⟨_, hhandled⟩ := execIrqR_handles s t ht
    exact hhandled.control hs
  | cpStep =>
    obtain ⟨_, c, hc, heffect⟩ := execCpStep_effect s t ht
    exact ⟨heffect.channel hc hs hrun, heffect.callRecord hc hs hrun⟩
  | tick =>
    obtain rfl := next_eq.mp (live_next.mp ht).2
    exact ⟨hs.channel.congr rfl hs.channel.fifos, callOk_mono (s := s) rfl (Nat.le_succ _) (le_refl _) hs.callRecord⟩
  | mboxOut b => exact hs.of_leaves (row_captured (.out b) s t ht).leaves
  | mboxConsume => exact hs.of_leaves (row_captured .consume s t ht).leaves
  | plainRead => exact hs.of_leaves (row_captured .plain s t ht).leaves
  | _ => exact issue_control rfl hs ht hrun

/-- Every well-formed instruction that raises no fault keeps `Good`. -/
theorem exec_good {i : Instr} {s t : State} (hi : i.wellFormed s.cfg.addrBits = true) (hs : Good s) (ht : exec i s = .next t)
    (hrun : t.faulted = none) : Good t := by
  obtain ⟨hread, hcontrol⟩ := good_iff.mp hs
  exact good_iff.mpr ⟨exec_readPath hi hread t ht hrun, exec_control hcontrol ht hrun⟩

/-- Going past an operation's bytes of the schedule changes nothing that `Good` speaks of. -/
theorem Good.consume {s : State} (h : Good s) (n : Nat) : Good (s.consume n) := by
  obtain ⟨hread, hcontrol⟩ := good_iff.mp h
  exact good_iff.mpr ⟨hread.congr rfl, hcontrol.channel.congr rfl hcontrol.channel.fifos,
    callOk_mono (s := s) rfl (le_refl _) (le_refl _) hcontrol.callRecord⟩

/-- Settles O13: the schedule's front decodes to a well-formed instruction, and that keeps `Good` (`exec_good`). -/
theorem stepKeepsGood : Obligations.StepKeepsGood := by
  intro s t hs ht hrun
  obtain ⟨_, _, _, i, n, hfetch, hexec⟩ := step_next.mp ht
  exact exec_good (s := s.consume n) (decodeOp_wellFormed _ _ i n hfetch) (hs.consume n) hexec hrun

end Sys2Proof.Machine
end

section
/-! SUPPORT. A multi-byte value in the ROM Buffer (20_memory.md R65, R66). -/

namespace Sys2Proof.Machine

/-- Byte `k` of a little-endian image is the value's digit `k` to the base 256 (20_memory.md R65). -/
theorem leBytes_getD {n k : Nat} (hk : k < n) (v : Nat) : (leBytes n v).getD k 0 = BitVec.ofNat 8 (v / 256 ^ k) := by
  induction n generalizing k v with
  | zero => omega
  | succ n ih =>
    cases k with
    | zero => simp [leBytes]
    | succ k =>
      rw [leBytes, List.getD_cons_succ, ih (by omega), Nat.div_div_eq_div_mul, Nat.pow_succ']

/-- MemRead of a range just written gives the value, if it fits the range (20_memory.md R66). -/
theorem memRead_memWrite {s t : State} {o n v : Nat} (hw : Memory.wf s.rom = true) (hv : v < 256 ^ n)
    (h : memWrite o n v s = .next t) : memRead t o n = v := by
  obtain ⟨_, rfl⟩ := writeRom_next.mp h
  have hback := Memory.readBytes_writeBytes hw o (leBytes n v)
  rw [leBytes_length] at hback
  rw [memRead, hback, leValue_leBytes, Nat.mod_eq_of_lt hv]

/-- A byte after MemWrite: a digit of the value inside the range, the old byte outside (20_memory.md R65, R66). -/
theorem romByte_memWrite {s t : State} {o n v : Nat} (hw : Memory.wf s.rom = true) (h : memWrite o n v s = .next t) :
    (∀ k, k < n → t.romByte (o + k) = BitVec.ofNat 8 (v / 256 ^ k)) ∧
      ∀ a, a < o ∨ o + n ≤ a → t.romByte a = s.romByte a := by
  have hbyte := romByte_writeRom hw h
  rw [leBytes_length] at hbyte
  refine ⟨fun k hk => ?_, fun a ha => by rw [hbyte, if_neg (by omega)]⟩
  rw [hbyte, if_pos (by omega), Nat.add_sub_cancel_left, leBytes_getD hk]

/-- Settles O60: what MemWrite stores byte by byte (`romByte_memWrite`), and that MemRead gives it back (`memRead_memWrite`). -/
theorem memWriteIsLittleEndian : Obligations.MemWriteIsLittleEndian := by
  intro s o n v hw hv
  refine ⟨fun hin => ?_, fun hout => ?_⟩
  · have ht : memWrite o n v s = .next _ := writeRom_of_le (by rwa [leBytes_length])
    obtain ⟨hdigits, hframe⟩ := romByte_memWrite hw ht
    exact ⟨_, ht, rfl, memRead_memWrite hw hv ht, fun k hk => by rw [hdigits k hk, BitVec.toNat_ofNat], hframe⟩
  · exact if_neg (by rw [leBytes_length]; omega)

end Sys2Proof.Machine
end

section
/-! SUPPORT. The sequence counters of an open session (20_memory.md R77(b), R82). R44(g) and (h) tie each sequence field to a count that
the queues hold, so it is enough to follow those counts through every instruction. -/

namespace Sys2Proof.Machine

/-! ## The counts and how a step moves them -/

/-- How many bytes have become the front of the Inbound Queue: what R44(g) counts. -/
def Queue.offered (q : Queue) : Nat := q.tail + if 0 < q.count then 1 else 0

/-- The session stays as it is, and each count stays or goes up by one. -/
structure CountsUp (s t : State) : Prop where
  sess : t.sess = s.sess := by exact rfl
  offered : t.inq.offered = s.inq.offered ∨ t.inq.offered = s.inq.offered + 1 := by exact .inl rfl
  entered : t.outq.head = s.outq.head ∨ t.outq.head = s.outq.head + 1 := by exact .inl rfl

/-- Where the channel's invariants hold the sequence fields are the counts, so they stay or go up by one with them. -/
theorem CountsUp.fields {s t : State} (h : CountsUp s t) (hs : ChannelOk s) (ht : ChannelOk t) {base : Word}
    (hbase : s.sess.base = some base) :
    t.sess.base = some base ∧
      (t.field base fieldInSeq = s.field base fieldInSeq ∨ t.field base fieldInSeq = s.field base fieldInSeq + 1) ∧
      (t.field base fieldOutSeq = s.field base fieldOutSeq ∨ t.field base fieldOutSeq = s.field base fieldOutSeq + 1) := by
  have hbase' : t.sess.base = some base := by rw [h.sess, hbase]
  obtain ⟨_, _, _, _, _, _, hin, hout⟩ := hs.at_base hbase
  obtain ⟨_, _, _, _, _, _, hin', hout'⟩ := ht.at_base hbase'
  refine ⟨hbase', h.offered.imp (fun hsame => ?_) fun hup => ?_, h.entered.imp (fun hsame => ?_) fun hup => ?_⟩
  · exact hin'.trans ((congrArg (BitVec.ofNat 32) hsame).trans hin.symm)
  · rw [hin, hin']
    exact (congrArg (BitVec.ofNat 32) hup).trans (BitVec.ofNat_add _ _)
  · rw [hout', hsame, hout]
  · rw [hout', hup, hout]
    exact BitVec.ofNat_add _ _

/-! ## The queues' operations -/

/-- A byte that leaves makes the next one the front, if there is one. -/
theorem Queue.offered_pop {q : Queue} (hsome : q.count ≠ 0) :
    q.pop.offered = q.offered ∨ q.pop.offered = q.offered + 1 := by
  simp only [Queue.offered, Queue.count_pop, if_pos (Nat.pos_of_ne_zero hsome)]
  simp only [Queue.pop]
  split
  · exact .inr rfl
  · exact .inl rfl

/-- A byte that joins is the front only where the queue was empty. -/
theorem Queue.offered_push {q : Queue} {cap : Nat} (h : q.tail ≤ q.head) (b : Byte) :
    (q.push cap b).offered = q.offered ∨ (q.push cap b).offered = q.offered + 1 := by
  simp only [Queue.offered, Queue.count_push b h, if_pos (Nat.succ_pos _)]
  simp only [Queue.push]
  split
  · exact .inl rfl
  · exact .inr rfl

/-! ## Every instruction -/

theorem LeavesControl.channelView {s t : State} (h : LeavesControl s t) : t.channelView = s.channelView :=
  congrArg (fun v => v.2.1) h.control

theorem issue_channelView (c : Call) (s : State) : Answers (fun t => t.channelView = s.channelView) (live s (issue c s)) := by
  intro t ht
  obtain ⟨_, rfl | ⟨_, _, rfl⟩⟩ := issue_answers c s t ht
  · rfl
  · rfl

/-- Every instruction but CP_STEP and the handlers leaves the Mailbox channel, but for the detectors' FIFOs, as it was. -/
theorem exec_channelView {i : Instr} {s t : State} (ht : exec i s = .next t)
    (hi : ¬ (i = .cpStep ∨ i = .irqW ∨ i = .irqR)) : t.channelView = s.channelView := by
  cases i with
  | busAddr a => exact (execBusAddr_leaves a s t ht).channelView
  | busSettle => exact (execBusSettle_leaves s t ht).channelView
  | busEnable ce oe => exact (execBusEnable_leaves ce oe s t ht).channelView
  | busLatch => exact (execBusLatch_leaves s t ht).channelView
  | oeseqStep => exact (execOeseqStep_leaves s t ht).channelView
  | drvShift => exact (execDrvShift_leaves s t ht).channelView
  | repStep =>
    obtain ⟨_, rfl | rfl⟩ := execRepStep_answers s t ht
    · rfl
    · rfl
  | respSample => exact (execRespSample_leaves s t ht).channelView
  | respServe => exact (execRespServe_leaves s t ht).channelView
  | irqW | irqR | cpStep => simp at hi
  | tick => exact next_eq.mp (live_next.mp ht).2 ▸ rfl
  | mboxOut b => exact (row_captured (.out b) s t ht).leaves.channelView
  | mboxConsume => exact (row_captured .consume s t ht).leaves.channelView
  | plainRead => exact (row_captured .plain s t ht).leaves.channelView
  | _ => exact issue_channelView _ s t ht

theorem CountsUp.of_channelView {s t : State} (h : t.channelView = s.channelView) : CountsUp s t := by
  simp only [State.channelView, Prod.mk.injEq] at h
  obtain ⟨-, -, -, hsess, hinq, houtq, -⟩ := h
  exact ⟨hsess, .inl (by rw [hinq]), .inl (by rw [houtq])⟩

theorem Accepted.countsUp {b : Byte} {s t : State} (h : Accepted b s t) : CountsUp s t := by
  obtain ⟨_, _, hbump⟩ := h
  obtain ⟨m, rfl⟩ := hbump.writes.frame
  exact { entered := .inr rfl }

theorem WriteHandled.countsUp {s t : State} (h : WriteHandled s t) : CountsUp s t := by
  cases h with
  | accepts _ _ _ h =>
    obtain ⟨hsess, hoffered, hentered⟩ := h.countsUp
    exact ⟨hsess, hoffered, hentered⟩
  | defers _ h =>
    subst h
    exact {}

theorem ReadHandled.countsUp {s t : State} (h : ReadHandled s t) : CountsUp s t := by
  cases h with
  | nothing h =>
    subst h
    exact {}
  | empties _ hsome _ h =>
    obtain ⟨m, rfl⟩ := (writeField_writes _ _ _ _ t h).frame
    exact { offered := Queue.offered_pop hsome }
  | offers _ hmore h =>
    obtain ⟨m, rfl⟩ := h.writes.frame
    exact { offered := Queue.offered_pop fun hnone => hmore (by rw [Queue.count_pop, hnone]) }

/-- Where a session is open before and after a call's step, the step is none of those that open or close one. -/
theorem CallEffect.countsUp {s t : State} {c : Call} (h : CallEffect s c t) (hc : s.call = some c) (hs : ControlOk s)
    (hactive : s.sess.active = true) (hstays : t.sess.active = true) : CountsUp s t := by
  cases h with
  | opens _ _ hclosed => exact absurd (hclosed.inactive.symm.trans hstays) (by decide)
  | begins =>
    obtain ⟨_, hidle, _⟩ := (callOk_beginB2 hc).mp hs.callRecord
    exact absurd (hidle.symm.trans hactive) (by decide)
  | ends hclosed => exact absurd (hclosed.inactive.symm.trans hstays) (by decide)
  | publishes _ _ _ hpublished =>
    obtain ⟨_, _, hw⟩ := hpublished.writes
    obtain ⟨m, rfl⟩ := hw.frame
    exact { offered := Queue.offered_push hs.channel.inqOk.2.1 _ }
  | replays _ _ haccepted =>
    obtain ⟨hsess, hoffered, hentered⟩ := haccepted.countsUp
    exact ⟨hsess, hoffered, hentered⟩
  | writes hwrites =>
    obtain ⟨m, rfl⟩ := hwrites.frame
    exact {}
  | _ => exact {}

theorem exec_countsUp {i : Instr} {s t : State} (hs : ControlOk s) (ht : exec i s = .next t)
    (hactive : s.sess.active = true) (hstays : t.sess.active = true) : CountsUp s t := by
  by_cases hi : i = .cpStep ∨ i = .irqW ∨ i = .irqR
  · obtain rfl | rfl | rfl := hi
    · obtain ⟨_, _, hc, h⟩ := execCpStep_effect s t ht
      exact h.countsUp hc hs hactive hstays
    · obtain ⟨_, _, h⟩ := execIrqW_handles s t ht
      exact h.countsUp
    · obtain ⟨_, h⟩ := execIrqR_handles s t ht
      exact h.countsUp
  · exact .of_channelView (exec_channelView ht hi)

/-- Settles O54: every instruction moves the counts up by at most one (`exec_countsUp`), and as it keeps the channel's invariants the
sequence fields are those counts before and after (`CountsUp.fields`). -/
theorem sequenceCountersOnlyCountUp : Obligations.SequenceCountersOnlyCountUp := by
  intro i s t base hs ht hrun hactive hbase hstays
  have hcontrol := (good_iff.mp hs).2
  exact (exec_countsUp hcontrol ht hactive hstays).fields hcontrol.channel (exec_control hcontrol ht hrun).channel hbase

end Sys2Proof.Machine
end

section
/-! SUPPORT. No operation of a good state stops on a fault (20_memory.md R63, R66; 10_state.md R44(b)): every address lies inside the ROM
Buffer, because the mask and the range in flight do, and every use of a session base is made in an active session. -/

namespace Sys2Proof.Machine

/-! ## Answers that are no fault -/

/-- The answer is a next state or a refusal. -/
def NeverStops (r : StepResult) : Prop := ∀ f, r ≠ .fault f

theorem NeverStops.next {t : State} : NeverStops (.next t) := nofun

theorem NeverStops.hold : NeverStops hold := nofun

theorem NeverStops.raise {code : FaultCode} {s : State} : NeverStops (raise code s) := nofun

theorem NeverStops.ret {name : CallName} {v : ResultValue} {s : State} : NeverStops (ret name v s) := nofun

theorem NeverStops.ite {c : Prop} [Decidable c] {r₁ r₂ : StepResult} (h₁ : c → NeverStops r₁) (h₂ : ¬ c → NeverStops r₂) :
    NeverStops (if c then r₁ else r₂) := by
  split
  next h => exact h₁ h
  next h => exact h₂ h

theorem NeverStops.live {s : State} {r : StepResult} (hf : s.faulted = none) (h : NeverStops r) : NeverStops (live s r) := by
  rw [live_running hf]
  exact h

/-- The rest of a step starts from a state that the first part can answer. -/
theorem NeverStops.andThen {Q : State → Prop} {r : StepResult} {k : State → StepResult} (hr : NeverStops r)
    (hQ : Answers Q r) (hk : ∀ u, Q u → NeverStops (k u)) : NeverStops (andThen r k) := by
  cases r with
  | next u =>
    cases hu : u.faulted with
    | none =>
      rw [andThen_of rfl hu]
      exact hk u (hQ u rfl)
    | some code =>
      simp only [Machine.andThen, hu]
      exact .next
  | fault f => exact absurd rfl (hr f)
  | refused q => exact nofun

/-- The rest of a step that never stops, whatever state it starts from. -/
theorem NeverStops.andThen_always {r : StepResult} {k : State → StepResult} (hr : NeverStops r) (hk : ∀ u, NeverStops (k u)) :
    NeverStops (Machine.andThen r k) :=
  .andThen (Q := fun _ => True) hr (fun _ _ => trivial) fun u _ => hk u

theorem issue_neverStops (c : Call) (s : State) : NeverStops (issue c s) := by
  unfold issue
  split
  · exact .hold
  · exact .ite (fun _ => .raise) fun _ => .next

/-! ## The capture -/

theorem pushW_neverStops (b : Byte) (s : State) : NeverStops (pushW b s) :=
  .ite (fun _ => .next) fun _ => .ite (fun _ => .raise) fun _ => .next

theorem pushR_neverStops (s : State) : NeverStops (pushR s) :=
  .ite (fun _ => .next) fun _ => .ite (fun _ => .raise) fun _ => .next

theorem recordEvent_neverStops {push : State → StepResult} (hpush : ∀ u, NeverStops (push u)) (s : State) :
    NeverStops (recordEvent push s) :=
  .ite (fun _ => .ite (fun _ => .next) fun _ => hpush _) fun _ => hpush s

theorem captureClass_neverStops (cls : DetClass) (s : State) : NeverStops (captureClass cls s) := by
  cases cls with
  | plain => exact .next
  | out b => exact recordEvent_neverStops (pushW_neverStops b) s
  | consume => exact recordEvent_neverStops pushR_neverStops s

theorem detCapture_neverStops (seen : Option Word) (s : State) : NeverStops (detCapture seen s) := by
  refine .ite (fun _ => ?_) fun _ => .next
  cases seen with
  | some a => exact captureClass_neverStops _ s
  | none => exact captureClass_neverStops _ _

/-- An access closes, and the Target's step goes on (40_bus_decoder.md R124). -/
theorem closeAccess_neverStops (s : State) {k : State → State} : NeverStops (andThen (closeAccess s) fun u => .next (k u)) :=
  .andThen_always (detCapture_neverStops _ s) fun _ => .next

/-- The window rows are the capture of a class, by armed detectors only. -/
theorem row_neverStops (cls : DetClass) {s : State} (hf : s.faulted = none) :
    NeverStops (live s (if s.det.armed then captureClass cls s else .next s)) :=
  .live hf (.ite (fun _ => captureClass_neverStops cls s) fun _ => .next)

/-! ## The Target, the Decoder and the Responder -/

theorem execBusLatch_neverStops {s : State} (hf : s.faulted = none) : NeverStops (execBusLatch s) := by
  refine .live hf ?_
  cases latchKind s with
  | none => exact .next
  | some kind => exact .next

theorem execRespSample_neverStops {s : State} (hf : s.faulted = none) : NeverStops (execRespSample s) := by
  refine .live hf (.ite (fun _ => .hold) fun _ => ?_)
  cases s.cfg.sampleMode with
  | single =>
    cases s.resp.phase with
    | s1 => exact .next
    | s2 => exact .hold
    | serve => exact .hold
  | double =>
    cases s.resp.phase with
    | s1 => exact .next
    | s2 => exact .ite (fun _ => .next) fun _ => .next
    | serve => exact .hold

/-- RESP_SERVE reads at a masked address, and a legal mask lies inside the buffer (20_memory.md R61, R63). -/
theorem execRespServe_neverStops {s : State} (hf : s.faulted = none) (hmask : MaskOk s) : NeverStops (execRespServe s) := by
  refine .live hf (.ite (fun _ => .hold) fun _ => .ite (fun hout => ?_) fun _ => .ite (fun _ => .next) fun _ => .next)
  have hle : (masked s.resp.a s.addressMask).toNat ≤ s.addressMask.toNat := by
    rw [masked, BitVec.toNat_and]
    exact Nat.and_le_right
  have hcap := (maskLegal_iff.mp hmask).2.1
  omega

/-! ## The ROM Buffer and the window -/

theorem writeRom_neverStops {o : Nat} {bs : List Byte} {s : State} (h : o + bs.length ≤ s.cfg.romCap) :
    NeverStops (writeRom o bs s) := by
  rw [writeRom_of_le h]
  exact .next

theorem writeField_neverStops {base : Word} {off : Nat} {v : Word} {s : State} (h : base.toNat + off + 4 ≤ s.cfg.romCap) :
    NeverStops (writeField base off v s) := by
  rw [writeField_of_le h]
  exact .next

/-- A memory operation leaves the parameters as they were. -/
theorem WritesIn.cfg {lo hi : Nat} {s t : State} (h : WritesIn lo hi s t) : t.cfg = s.cfg := by
  obtain ⟨m, rfl⟩ := h.frame
  rfl

theorem offerInbound_neverStops {base : Word} {b : Byte} {s : State} (h : base.toNat + 512 ≤ s.cfg.romCap) :
    NeverStops (offerInbound base b s) :=
  .andThen (writeField_neverStops (by simp only [fieldInByte]; omega)) (writeField_writes _ _ _ s) fun u hu =>
    writeField_neverStops (by rw [hu.cfg]; simp only [fieldInSeq]; omega)

/-- There is a session base, and its window lies inside the ROM Buffer. -/
def HasWindow (s : State) : Prop := ∃ base, s.sess.base = some base ∧ base.toNat + 512 ≤ s.cfg.romCap

theorem ChannelOk.hasWindow {s : State} (h : ChannelOk s) (hactive : s.sess.active = true) : HasWindow s := by
  obtain ⟨base, hbase⟩ := Option.ne_none_iff_exists'.mp (h.session.1.mp hactive)
  obtain ⟨_, _, hin, _⟩ := h.at_base hbase
  exact ⟨base, hbase, hin⟩

theorem HasWindow.withBase {s : State} {k : Word → StepResult} (h : HasWindow s)
    (hk : ∀ base : Word, base.toNat + 512 ≤ s.cfg.romCap → NeverStops (k base)) : NeverStops (withBase s k) := by
  obtain ⟨base, hbase, hin⟩ := h
  rw [withBase_of hbase]
  exact hk base hin

theorem HasWindow.acceptOutbound {b : Byte} {s : State} (h : HasWindow s) : NeverStops (acceptOutbound b s) :=
  h.withBase fun _ hin => writeField_neverStops (by simp only [fieldOutSeq]; omega)

/-! ## The handlers -/

theorem execIrqW_neverStops {s : State} (hf : s.faulted = none) (hwindow : s.det.wirqEn = true → HasWindow s) :
    NeverStops (execIrqW s) := by
  refine .live hf ?_
  cases s.det.wfifo with
  | nil => exact .hold
  | cons b rest =>
    refine .ite (fun _ => .hold) fun hgo => .ite (fun _ => ?_) fun _ => .next
    have hwindow := hwindow (by simpa using (not_or.mp hgo).1)
    exact HasWindow.acceptOutbound (s := { s with det := { s.det with wfifo := rest } }) hwindow

theorem execIrqR_neverStops {s : State} (hf : s.faulted = none) (hwindow : s.det.rirqEn = true → HasWindow s) :
    NeverStops (execIrqR s) := by
  refine .live hf (.ite (fun _ => .hold) fun hgo => .ite (fun _ => .next) fun _ => ?_)
  have hen : s.det.rirqEn = true := by
    have hintR := (not_or.mp hgo).1
    simp only [intR, Bool.not_eq_false, Bool.and_eq_true] at hintR
    exact hintR.1
  refine HasWindow.withBase (s := s.consumed) (hwindow hen) fun base hin => .ite (fun _ => ?_) fun _ => ?_
  · exact writeField_neverStops (s := s.popped) (Nat.le_trans (by simp only [fieldPending]; omega) hin)
  · exact offerInbound_neverStops (s := s.popped) hin

/-! ## The calls -/

theorem HasWindow.closeSession {s : State} (h : HasWindow s) : NeverStops (closeSession s) :=
  h.withBase fun _ hin => .andThen_always (writeField_neverStops (by simp only [fieldActive]; omega)) fun _ => .next

section
variable {s : State}

theorem cpBeginB1_neverStops {a : Word} (hs : ChannelOk s) : NeverStops (cpBeginB1 a s) :=
  .ite (fun _ => .raise) fun _ => .ite (fun _ => .raise) fun _ => .ite
    (fun hactive => .andThen_always (hs.hasWindow hactive).closeSession fun _ => .next)
    fun _ => .next

/-- Step B2 writes its window, which lies under the mask (43_control_plane.md R204). -/
theorem cpBeginB2_neverStops {base : Word} (hin : base.toNat + 512 ≤ s.cfg.romCap) : NeverStops (cpBeginB2 base s) := by
  refine .andThen (writeRom_neverStops (by simpa only [List.length_replicate, Config.winSize]))
    (writeRom_writes _ _ s) fun u hu => ?_
  rw [← hu.cfg] at hin
  refine .andThen (writeRom_neverStops (by simp only [magicBytes, List.length_cons, List.length_nil]; omega))
    (writeRom_writes _ _ u) fun v hv => ?_
  rw [← hv.cfg] at hin
  refine .andThen_always (writeField_neverStops ?_) fun _ => .ret
  simp only [armSession_cfg, fieldActive]
  omega

theorem cpEnd_neverStops (hs : ChannelOk s) : NeverStops (cpEnd s) :=
  .ite (fun hactive => .andThen_always (hs.hasWindow hactive).closeSession fun _ => .ret)
    fun _ => .ret

theorem startWrite_neverStops {data : List Byte} : NeverStops (startWrite data s) := .ite (fun _ => .ret) fun _ => .next

theorem cpRomWriteW1_neverStops {data : List Byte} (hs : ChannelOk s) : NeverStops (cpRomWriteW1 data s) :=
  .ite (fun _ => .raise) fun _ => .ite
    (fun hgo => (hs.hasWindow hgo.1).withBase fun _ _ => .ite (fun _ => .raise) fun _ => startWrite_neverStops)
    fun _ => startWrite_neverStops

theorem cpRomWriteW2_neverStops {data : List Byte} (hin : s.romPtr.toNat + data.length ≤ s.cfg.romCap) :
    NeverStops (cpRomWriteW2 data s) :=
  .andThen_always (writeRom_neverStops hin) fun _ => .ret

theorem HasWindow.publish {b : Byte} (h : HasWindow s) : NeverStops (publish b s) := by
  refine h.withBase fun base hin => .andThen (writeField_neverStops ?_) (writeField_writes _ _ _ _) fun u hu => ?_
  · simp only [fieldPending]
    omega
  · exact .ite (fun _ => offerInbound_neverStops (by rw [hu.cfg]; exact hin)) fun _ => .next

theorem HasWindow.replay1 (h : HasWindow s) : NeverStops (replay1 s) := by
  unfold Machine.replay1
  cases s.deferred with
  | nil => exact .hold
  | cons b rest => exact HasWindow.acceptOutbound (s := { s with deferred := rest }) h

theorem cpUpdateU1_neverStops {u : UpdateCall} (h : HasWindow s) : NeverStops (cpUpdateU1 u s) := by
  unfold cpUpdateU1
  cases u.data[u.i]? with
  | none => exact .next
  | some b =>
    exact .ite (fun _ => .andThen_always h.publish fun _ => .next) fun _ =>
      .ite (fun _ => .ret) fun _ => .ite (fun _ => .next) fun _ => h.replay1

theorem cpUpdateU2_neverStops {u : UpdateCall} (h : HasWindow s) : NeverStops (cpUpdateU2 u s) :=
  .ite (fun _ => .next) fun _ => .ite (fun _ => h.replay1) fun _ => .ret

/-- After step U0 the session that an UPDATE works on is active. -/
theorem cpUpdate_neverStops {u : UpdateCall} (hwindow : u.phase ≠ .u0 → HasWindow s) : NeverStops (cpUpdate u s) := by
  unfold cpUpdate
  cases hphase : u.phase with
  | u0 => exact .ite (fun _ => .next) fun _ => .ret
  | u1 => exact cpUpdateU1_neverStops (hwindow (by simp [hphase]))
  | u2 => exact cpUpdateU2_neverStops (hwindow (by simp [hphase]))

theorem callStep_neverStops {c : Call} (hc : s.call = some c) (hs : ControlOk s) : NeverStops (callStep c s) := by
  obtain ⟨hchannel, hcall⟩ := hs
  cases c with
  | begin a base phase =>
    cases phase with
    | b1 => exact cpBeginB1_neverStops hchannel
    | b2 =>
      obtain ⟨_, _, _, _, hunder, _⟩ := (callOk_beginB2 hc).mp hcall
      have hcap := (maskLegal_iff.mp hchannel.mask).2.1
      exact cpBeginB2_neverStops (by omega)
  | endSession => exact cpEnd_neverStops hchannel
  | update u =>
    obtain ⟨_, _, _, _, _, _, hactive, _⟩ := (callOk_update hc).mp hcall
    exact cpUpdate_neverStops fun hphase => hchannel.hasWindow (hactive hphase)
  | romWrite data phase =>
    cases phase with
    | w1 => exact cpRomWriteW1_neverStops hchannel
    | w2 =>
      obtain ⟨_, _, hin, _⟩ := (callOk_romWriteW2 hc).mp hcall
      exact cpRomWriteW2_neverStops hin
  | suspend => exact .ite (fun _ => .raise) fun _ => .ret
  | resume => exact .ite (fun _ => .ret) fun _ => .raise
  | persist r => exact .ite (fun _ => .ret) fun _ => .raise
  | setMask m => exact .ite (fun _ => .raise) fun _ => .ite (fun _ => .raise) fun _ => .ite (fun _ => .raise) fun _ => .ret
  | setPtr | getPtr | accRead | accClear => exact .ret
  | romRead n => exact .ite (fun _ => .raise) fun _ => .ret

end

/-! ## Every instruction -/

/-- The interrupts are enabled only in an active session (10_state.md R44(b)). -/
theorem ChannelOk.active_of_irqEn {s : State} (h : ChannelOk s) (hen : s.det.wirqEn = true ∨ s.det.rirqEn = true) :
    s.sess.active = true := by
  by_contra hidle
  obtain ⟨hwirq, hrirq⟩ := h.session.2.2 (by simpa using hidle)
  simp [hwirq, hrirq] at hen

theorem exec_neverStops (i : Instr) {s : State} (hs : ControlOk s) (hf : s.faulted = none) : NeverStops (exec i s) := by
  have hchannel := hs.channel
  cases i with
  | busAddr a =>
    exact .live hf (.ite (fun _ => .next) fun _ => .ite (fun _ => closeAccess_neverStops s) fun _ => .next)
  | busSettle => exact .live hf (.ite (fun _ => .next) fun _ => .ite (fun _ => .next) fun _ => .next)
  | busEnable ce oe =>
    exact .live hf (.ite (fun _ => .next) fun _ => .ite (fun _ => closeAccess_neverStops _) fun _ => .next)
  | busLatch => exact execBusLatch_neverStops hf
  | oeseqStep => exact .live hf (.ite (fun _ => .hold) fun _ => .next)
  | drvShift => exact .live hf (.ite (fun _ => .hold) fun _ => .next)
  | repStep => exact .live hf (.ite (fun _ => .next) fun _ => .ite (fun _ => .next) fun _ => .hold)
  | respSample => exact execRespSample_neverStops hf
  | respServe => exact execRespServe_neverStops hf hchannel.mask
  | irqW => exact execIrqW_neverStops hf fun hen => hchannel.hasWindow (hchannel.active_of_irqEn (.inl hen))
  | irqR => exact execIrqR_neverStops hf fun hen => hchannel.hasWindow (hchannel.active_of_irqEn (.inr hen))
  | cpStep =>
    refine .live hf ?_
    cases hc : s.call with
    | none => exact .hold
    | some c => exact callStep_neverStops hc hs
  | tick => exact .live hf .next
  | mboxOut b => exact row_neverStops (.out b) hf
  | mboxConsume => exact row_neverStops .consume hf
  | plainRead => exact row_neverStops .plain hf
  | _ => exact .live hf (issue_neverStops _ s)

/-- Settles O15: the control plane's part of `Good` keeps every instruction from stopping (`exec_neverStops`). -/
theorem goodStatesNeverStopOnAFault : Obligations.GoodStatesNeverStopOnAFault := by
  intro i s f hs hf
  exact exec_neverStops i (good_iff.mp hs).2 hf f

end Sys2Proof.Machine
end

section
/-! SUPPORT. Encodings round-trip (30_encoding.md R93, R96, R97, R101): each operand format first, then every instruction, then whole
schedules. -/

namespace Sys2Proof

/-! ## Operands -/

/-- A word of `n` bytes read back from them (30_encoding.md R93). -/
theorem ofNat_leValue_leBytes {n : Nat} (x : BitVec (8 * n)) : BitVec.ofNat (8 * n) (leValue (leBytes n x.toNat)) = x := by
  have hfits : x.toNat < 256 ^ n := by simpa only [Nat.pow_mul] using x.isLt
  rw [leValue_leBytes, Nat.mod_eq_of_lt hfits, BitVec.ofNat_toNat, BitVec.setWidth_eq]

/-- A list's length read back from its two bytes (30_encoding.md R94). -/
theorem leValue_leBytes_of_fitsLength {data : List Byte} (h : fitsLength data = true) :
    leValue (leBytes 2 data.length) = data.length := by
  have hfits : data.length ≤ 65535 := of_decide_eq_true h
  exact (leValue_leBytes 2 _).trans (Nat.mod_eq_of_lt (by omega))

theorem decodeA32_leBytes {ok : Word → Bool} (mk : Word → Instr) {a : Word} (h : ok a = true) (rest : List Byte) :
    decodeA32 ok mk (leBytes 4 a.toNat ++ rest) = .op (mk a) 5 := by
  have hread : BitVec.ofNat 32 (leValue (leBytes 4 a.toNat)) = a := ofNat_leValue_leBytes (n := 4) a
  simp only [leBytes] at hread
  simp only [leBytes, List.cons_append, decodeA32, hread, h, if_true]

theorem decodeE8_enableByte (ce oe : Bool) (rest : List Byte) :
    decodeE8 (enableByte ce oe :: rest) = .op (.busEnable ce oe) 2 := by
  cases ce <;> cases oe <;> rfl

theorem decodeR8_regionByte (r : Region) (rest : List Byte) : decodeR8 (regionByte r :: rest) = .op (.persist r) 2 := by
  cases r <;> rfl

theorem decodeL16_leBytes (mk : Half → Instr) (n : Half) (rest : List Byte) :
    decodeL16 mk (leBytes 2 n.toNat ++ rest) = .op (mk n) 3 := by
  have hread : BitVec.ofNat 16 (leValue (leBytes 2 n.toNat)) = n := ofNat_leValue_leBytes (n := 2) n
  simp only [leBytes] at hread
  simp only [leBytes, List.cons_append, decodeL16, hread]

theorem decodeLD_leBytes (mk : List Byte → Instr) {data : List Byte} (h : fitsLength data = true) (rest : List Byte) :
    decodeLD mk (leBytes 2 data.length ++ (data ++ rest)) = .op (mk data) (3 + data.length) := by
  have hread := leValue_leBytes_of_fitsLength h
  simp only [leBytes] at hread
  simp only [leBytes, List.cons_append, List.nil_append, decodeLD, hread, List.length_append, Nat.le_add_right, if_true,
    List.take_left']

theorem decodeTD_leBytes (mk : Word → List Byte → Instr) (t : Word) {data : List Byte} (h : fitsLength data = true)
    (rest : List Byte) :
    decodeTD mk (leBytes 4 t.toNat ++ (leBytes 2 data.length ++ (data ++ rest))) = .op (mk t data) (7 + data.length) := by
  have htimeout : BitVec.ofNat 32 (leValue (leBytes 4 t.toNat)) = t := ofNat_leValue_leBytes (n := 4) t
  have hread := leValue_leBytes_of_fitsLength h
  simp only [leBytes] at htimeout hread
  simp only [leBytes, List.cons_append, List.nil_append, decodeTD, htimeout, hread, List.length_append, Nat.le_add_right,
    if_true, List.take_left']

/-! ## Instructions -/

/-- The outbound half of the window decodes to the byte in its low eight bits (30_encoding.md R97). -/
theorem decodeWindow_outbound (b : Byte) : decodeWindow (1#1 ++ b) = .mboxOut b := by
  revert b
  decide

/-- A code stands for the instruction `i`: its bytes decode to it whatever follows them, or its window offset does. -/
def Code.StandsFor (addrBits : Nat) (i : Instr) : Code → Prop
  | .bytes bs => ∀ rest, decodeOp addrBits (bs ++ rest) = .op i bs.length
  | .window w => decodeWindow w = i

theorem encode_standsFor {addrBits : Nat} {i : Instr} (hi : i.wellFormed addrBits = true) :
    (encode i).StandsFor addrBits i := by
  cases i with
  | busAddr a => exact fun rest => decodeA32_leBytes .busAddr hi rest
  | beginSession a => exact fun rest => decodeA32_leBytes (ok := fun _ => true) .beginSession rfl rest
  | setMask m => exact fun rest => decodeA32_leBytes (ok := fun _ => true) .setMask rfl rest
  | romSetptr p => exact fun rest => decodeA32_leBytes (ok := fun _ => true) .romSetptr rfl rest
  | busEnable ce oe => exact fun rest => decodeE8_enableByte ce oe rest
  | persist r => exact fun rest => decodeR8_regionByte r rest
  | romRead n => exact fun rest => decodeL16_leBytes .romRead n rest
  | romWrite data =>
    intro rest
    have hlen : (0x39 :: leBytes 2 data.length ++ data).length = 3 + data.length := by simp; omega
    rw [hlen, List.append_assoc]
    exact decodeLD_leBytes .romWrite hi rest
  | update t data =>
    intro rest
    have hlen : (0x32 :: leBytes 4 t.toNat ++ leBytes 2 data.length ++ data).length = 7 + data.length := by simp; omega
    rw [hlen, List.append_assoc, List.append_assoc]
    exact decodeTD_leBytes .update t hi rest
  | mboxOut b => exact decodeWindow_outbound b
  | mboxConsume | plainRead => rfl
  | _ => exact fun _ => rfl

/-- Settles O1: every instruction's code stands for it (`encode_standsFor`). -/
theorem decodeOfEncodeIsIdentity : Obligations.DecodeOfEncodeIsIdentity := by
  intro addrBits i hi
  have hcode := encode_standsFor hi
  cases henc : encode i with
  | bytes bs => rwa [henc] at hcode
  | window w => rwa [henc] at hcode

/-- Settles O5 by evaluating the decoder on each string. -/
theorem writtenOutWordsDecode : Obligations.WrittenOutWordsDecode := by
  unfold Obligations.WrittenOutWordsDecode
  decide

/-! ## Schedules -/

theorem decodeOp_encodeBytes {addrBits : Nat} {i : Instr} (hi : i.wellFormed addrBits = true) (hbytes : encodeBytes i ≠ [])
    (rest : List Byte) : decodeOp addrBits (encodeBytes i ++ rest) = .op i (encodeBytes i).length := by
  have hcode := encode_standsFor hi
  unfold encodeBytes at hbytes ⊢
  cases henc : encode i with
  | bytes bs =>
    rw [henc] at hcode
    exact hcode rest
  | window w => simp [henc] at hbytes

/-- An operation has at least one byte, so a schedule is at least as long as its list of operations (30_encoding.md R102). -/
theorem length_le_length_encodeSchedule {ops : List Instr} (h : ∀ i ∈ ops, encodeBytes i ≠ []) :
    ops.length ≤ (encodeSchedule ops).length := by
  induction ops with
  | nil => exact le_refl 0
  | cons i ops ih =>
    have hfirst := List.length_pos_iff.mpr (h i (by simp))
    have hrest := ih fun j hj => h j (by simp [hj])
    simp only [encodeSchedule, List.length_cons, List.length_append]
    omega

/-- The decoder reads encoded operations one by one, at one unit of fuel each, and goes on behind them. -/
theorem decodeFrom_encodeSchedule_append {addrBits : Nat} {ops : List Instr}
    (h : ∀ i ∈ ops, i.wellFormed addrBits = true ∧ encodeBytes i ≠ []) (fuel pos : Nat) (rest : List Byte) :
    decodeFrom addrBits (ops.length + fuel) pos (encodeSchedule ops ++ rest) =
      let tail := decodeFrom addrBits fuel (pos + (encodeSchedule ops).length) rest
      ⟨ops ++ tail.ops, tail.invalid⟩ := by
  induction ops generalizing pos with
  | nil => simp [encodeSchedule]
  | cons i ops ih =>
    obtain ⟨hi, hbytes⟩ := h i (by simp)
    have hfuel : (i :: ops).length + fuel = (ops.length + fuel) + 1 := by simp; omega
    rw [hfuel, encodeSchedule, List.append_assoc, decodeFrom, decodeOp_encodeBytes hi hbytes]
    simp only [List.drop_left, ih (fun j hj => h j (by simp [hj])), List.length_append, Nat.add_assoc, List.cons_append]

/-- The whole decoder on encoded operations with more bytes behind them: as many units of fuel are left as the bytes need. -/
theorem decodeSchedule_encodeSchedule_append {addrBits : Nat} {ops : List Instr}
    (h : ∀ i ∈ ops, i.wellFormed addrBits = true ∧ encodeBytes i ≠ []) (rest : List Byte) :
    ∃ fuel, rest.length ≤ fuel ∧ decodeSchedule addrBits (encodeSchedule ops ++ rest) =
      let tail := decodeFrom addrBits fuel (encodeSchedule ops).length rest
      ⟨ops ++ tail.ops, tail.invalid⟩ := by
  have hops := length_le_length_encodeSchedule fun i hi => (h i hi).2
  obtain ⟨extra, hextra⟩ := Nat.exists_eq_add_of_le hops
  have hfuel : (encodeSchedule ops ++ rest).length = ops.length + (extra + rest.length) := by
    rw [List.length_append, hextra, Nat.add_assoc]
  refine ⟨extra + rest.length, Nat.le_add_left _ _, ?_⟩
  rw [decodeSchedule, hfuel, decodeFrom_encodeSchedule_append h, Nat.zero_add]

/-- At the end of the string the decoder stops, whatever fuel is left (30_encoding.md R102). -/
theorem decodeFrom_nil (addrBits fuel pos : Nat) : decodeFrom addrBits fuel pos [] = ⟨[], none⟩ := by
  cases fuel <;> rfl

/-- Settles O2: nothing follows the encoded operations (`decodeSchedule_encodeSchedule_append`). -/
theorem scheduleDecodesToItsOperations : Obligations.ScheduleDecodesToItsOperations := by
  intro addrBits ops h
  obtain ⟨fuel, -, hdecode⟩ := decodeSchedule_encodeSchedule_append h []
  simpa only [List.append_nil, decodeFrom_nil] using hdecode

end Sys2Proof
end

section
/-! SUPPORT. What the decoder answers, against the tables (30_encoding.md R96, R98, R99, R101): one lemma per operand format, then the
rows of the operation map. An operation, its refusals and its length all follow from that. -/

namespace Sys2Proof

/-- The reserved operand values of R99(a) to (c), of the operation that byte 0 selects. -/
def ReservedOperand (addrBits : Nat) (sel : Byte) (args : List Byte) : Prop :=
  (sel.toNat = 0x03 ∧ 4 ≤ (args.getD 0 0).toNat) ∨ (sel.toNat = 0x35 ∧ 2 ≤ (args.getD 0 0).toNat) ∨
    (sel.toNat = 0x01 ∧ 2 ^ addrBits ≤ leValue (args.take 4))

/-- What a byte string may decode to: an operation only where the string is long enough for it, reserves none of its operands and
starts with its encoding; BAD_OPERAND only where the string is too short or an operand is reserved; UNKNOWN_SELECTOR only where
byte 0 has no format. -/
def Decoded.FollowsTables (addrBits : Nat) (sel : Byte) (args : List Byte) : Decoded → Prop
  | .done => False
  | .invalid .unknownSelector => formatOf sel = none
  | .invalid .badOperand =>
    ∃ n, opLength (sel :: args) = some n ∧ (args.length + 1 < n ∨ ReservedOperand addrBits sel args)
  | .op i n =>
    opLength (sel :: args) = some n ∧ n ≤ args.length + 1 ∧ ¬ ReservedOperand addrBits sel args ∧
      encode i = .bytes ((sel :: args).take n)

section
variable {addrBits : Nat} {sel : Byte}

theorem not_reservedOperand (args : List Byte) (h : sel ≠ 0x03 ∧ sel ≠ 0x35 ∧ sel ≠ 0x01) :
    ¬ ReservedOperand addrBits sel args := by
  obtain ⟨h3, h35, h1⟩ := h
  rintro (⟨h, -⟩ | ⟨h, -⟩ | ⟨h, -⟩)
  · exact h3 (BitVec.eq_of_toNat_eq h)
  · exact h35 (BitVec.eq_of_toNat_eq h)
  · exact h1 (BitVec.eq_of_toNat_eq h)

/-! ## The operand formats -/

/-- The bytes of the word read from `n` bytes are those bytes: no second spelling of an operand (30_encoding.md R93). -/
theorem leBytes_toNat_ofNat_leValue (bs : List Byte) :
    leBytes bs.length (BitVec.ofNat (8 * bs.length) (leValue bs)).toNat = bs := by
  have hfits : leValue bs < 2 ^ (8 * bs.length) := by simpa only [Nat.pow_mul] using leValue_lt bs
  rw [BitVec.toNat_ofNat, Nat.mod_eq_of_lt hfits, leBytes_leValue]

theorem decodeF0_followsTables {i : Instr} (args : List Byte) (hfmt : formatOf sel = some .f0)
    (hres : ¬ ReservedOperand addrBits sel args) (henc : encode i = .bytes [sel]) :
    (decodeF0 i).FollowsTables addrBits sel args :=
  ⟨by simp [opLength, hfmt], by omega, hres, henc⟩

theorem decodeA32_followsTables {ok : Word → Bool} {mk : Word → Instr} (args : List Byte) (hfmt : formatOf sel = some .fa32)
    (hok : ok (BitVec.ofNat 32 (leValue (args.take 4))) = true ↔ ¬ ReservedOperand addrBits sel args)
    (henc : ∀ a, encode (mk a) = encodeA32 sel a) : (decodeA32 ok mk args).FollowsTables addrBits sel args := by
  have hlen : opLength (sel :: args) = some 5 := by simp [opLength, hfmt]
  unfold decodeA32
  split
  next b0 b1 b2 b3 rest =>
    dsimp only [List.take] at hok ⊢
    split
    next h =>
      have hbytes := leBytes_toNat_ofNat_leValue [b0, b1, b2, b3]
      exact ⟨hlen, by simp, hok.mp h, (henc _).trans (congrArg (fun bs => Code.bytes (sel :: bs)) hbytes)⟩
    next h => exact ⟨5, hlen, .inr (not_not.mp (mt hok.mpr h))⟩
  next hshort =>
    refine ⟨5, hlen, .inl ?_⟩
    match args, hshort with
    | [], _ | [_], _ | [_, _], _ | [_, _, _], _ => simp
    | b0 :: b1 :: b2 :: b3 :: rest, h => exact absurd rfl (h b0 b1 b2 b3 rest)

theorem decodeE8_followsTables (args : List Byte) : (decodeE8 args).FollowsTables addrBits 0x03 args := by
  have hres (e : Byte) (rest : List Byte) : ReservedOperand addrBits 0x03 (e :: rest) ↔ 4 ≤ e.toNat := by
    simp [ReservedOperand]
  match args with
  | [] => exact ⟨2, rfl, .inl (by simp)⟩
  | e :: rest =>
    simp only [decodeE8]
    split
    next h =>
      have hbyte : enableByte (e.getLsbD 0) (e.getLsbD 1) = e := by
        revert e
        decide
      exact ⟨rfl, by simp, by rw [hres]; omega, congrArg (fun b => Code.bytes [0x03, b]) hbyte⟩
    next h => exact ⟨2, rfl, .inr ((hres e rest).mpr (by omega))⟩

theorem decodeR8_followsTables (args : List Byte) : (decodeR8 args).FollowsTables addrBits 0x35 args := by
  have hres (r : Byte) (rest : List Byte) : ReservedOperand addrBits 0x35 (r :: rest) ↔ 2 ≤ r.toNat := by
    simp [ReservedOperand]
  match args with
  | [] => exact ⟨2, rfl, .inl (by simp)⟩
  | r :: rest =>
    simp only [decodeR8]
    split
    next h =>
      obtain rfl : r = 0 := BitVec.eq_of_toNat_eq h
      exact ⟨rfl, by simp, by rw [hres]; decide, rfl⟩
    next h0 =>
      split
      next h =>
        obtain rfl : r = 1 := BitVec.eq_of_toNat_eq h
        exact ⟨rfl, by simp, by rw [hres]; decide, rfl⟩
      next h1 => exact ⟨2, rfl, .inr ((hres r rest).mpr (by omega))⟩

theorem decodeL16_followsTables {mk : Half → Instr} (args : List Byte) (hfmt : formatOf sel = some .fl16)
    (hres : ¬ ReservedOperand addrBits sel args) (henc : ∀ n, encode (mk n) = .bytes (sel :: leBytes 2 n.toNat)) :
    (decodeL16 mk args).FollowsTables addrBits sel args := by
  have hlen : opLength (sel :: args) = some 3 := by simp [opLength, hfmt]
  match args with
  | [] | [_] => exact ⟨3, hlen, .inl (by simp)⟩
  | b0 :: b1 :: rest =>
    have hbytes := leBytes_toNat_ofNat_leValue [b0, b1]
    exact ⟨hlen, by simp, hres, (henc _).trans (congrArg (fun bs => Code.bytes (sel :: bs)) hbytes)⟩

/-- The two length bytes of the data taken by them are those bytes. -/
theorem leBytes_length_take {l0 l1 : Byte} {rest : List Byte} (h : leValue [l0, l1] ≤ rest.length) :
    leBytes 2 (rest.take (leValue [l0, l1])).length = [l0, l1] := by
  rw [List.length_take_of_le h]
  exact leBytes_leValue [l0, l1]

theorem decodeLD_followsTables {mk : List Byte → Instr} (args : List Byte) (hfmt : formatOf sel = some .fld)
    (hres : ¬ ReservedOperand addrBits sel args)
    (henc : ∀ data, encode (mk data) = .bytes (sel :: leBytes 2 data.length ++ data)) :
    (decodeLD mk args).FollowsTables addrBits sel args := by
  have hlen : opLength (sel :: args) = some (3 + leValue [args.getD 0 0, args.getD 1 0]) := by simp [opLength, hfmt]
  match args with
  | [] | [_] => exact ⟨_, hlen, .inl (by simp; omega)⟩
  | l0 :: l1 :: rest =>
    simp only [decodeLD]
    split
    next h =>
      refine ⟨hlen, by simp; omega, hres, ?_⟩
      rw [henc, leBytes_length_take h, Nat.add_comm]
      rfl
    next h => exact ⟨_, hlen, .inl (by simp; omega)⟩

theorem decodeTD_followsTables {mk : Word → List Byte → Instr} (args : List Byte) (hfmt : formatOf sel = some .ftd)
    (hres : ¬ ReservedOperand addrBits sel args)
    (henc : ∀ t data, encode (mk t data) = .bytes (sel :: leBytes 4 t.toNat ++ leBytes 2 data.length ++ data)) :
    (decodeTD mk args).FollowsTables addrBits sel args := by
  have hlen : opLength (sel :: args) = some (7 + leValue [args.getD 4 0, args.getD 5 0]) := by simp [opLength, hfmt]
  match args with
  | [] | [_] | [_, _] | [_, _, _] | [_, _, _, _] | [_, _, _, _, _] => exact ⟨_, hlen, .inl (by simp; omega)⟩
  | t0 :: t1 :: t2 :: t3 :: l0 :: l1 :: rest =>
    simp only [decodeTD]
    split
    next h =>
      have hbytes : leBytes 4 (BitVec.ofNat 32 (leValue [t0, t1, t2, t3])).toNat = [t0, t1, t2, t3] :=
        leBytes_toNat_ofNat_leValue [t0, t1, t2, t3]
      refine ⟨hlen, by simp; omega, hres, ?_⟩
      rw [henc, leBytes_length_take h, hbytes, Nat.add_comm]
      rfl
    next h => exact ⟨_, hlen, .inl (by simp; omega)⟩

end

/-! ## The operation map -/

/-- BUS_ADDR's operand check is R99(c): the bytes' value has no bit at or above ADDR_BITS. -/
theorem isAddr_iff_not_reservedOperand (addrBits : Nat) (args : List Byte) :
    isAddr addrBits (BitVec.ofNat 32 (leValue (args.take 4))) = true ↔ ¬ ReservedOperand addrBits 0x01 args := by
  have hfits : leValue (args.take 4) < 2 ^ 32 := calc
    leValue (args.take 4) < 256 ^ (args.take 4).length := leValue_lt _
    _ ≤ 256 ^ 4 := Nat.pow_le_pow_right (by decide) (by simp)
    _ = 2 ^ 32 := by decide
  rw [isAddr, BitVec.toNat_ofNat, Nat.mod_eq_of_lt hfits]
  simp [ReservedOperand]

/-- The unassigned values of byte 0 (30_encoding.md R98). -/
def UnassignedSelector (sel : Byte) : Prop :=
  sel.toNat = 0x00 ∨ (0x05 ≤ sel.toNat ∧ sel.toNat ≤ 0x0F) ∨ (0x13 ≤ sel.toNat ∧ sel.toNat ≤ 0x17) ∨
    (0x1A ≤ sel.toNat ∧ sel.toNat ≤ 0x1F) ∨ (0x23 ≤ sel.toNat ∧ sel.toNat ≤ 0x2F) ∨
    (0x3D ≤ sel.toNat ∧ sel.toNat ≤ 0x3F) ∨ 0x41 ≤ sel.toNat

theorem formatOf_eq_none_iff (sel : Byte) : formatOf sel = none ↔ UnassignedSelector sel := by
  unfold UnassignedSelector
  revert sel
  decide

theorem eq_ofNat_of_toNat_eq {sel : Byte} {n : Nat} (h : sel.toNat = n) : sel = BitVec.ofNat 8 n := by
  rw [← h, BitVec.ofNat_toNat, BitVec.setWidth_eq]

theorem decodeOp_followsTables (addrBits : Nat) (sel : Byte) (args : List Byte) :
    (decodeOp addrBits (sel :: args)).FollowsTables addrBits sel args := by
  unfold decodeOp
  dsimp only
  -- The rows of the operation map in order (30_encoding.md R96); row 27 is every other value of byte 0.
  split
  case h_27 =>
    refine (formatOf_eq_none_iff sel).mpr ?_
    unfold UnassignedSelector
    simp only [imp_false] at *
    omega
  all_goals
    rename_i hsel
    obtain rfl := eq_ofNat_of_toNat_eq hsel
  case h_1 =>
    exact decodeA32_followsTables (mk := .busAddr) args rfl (isAddr_iff_not_reservedOperand addrBits args) fun _ => rfl
  case h_3 => exact decodeE8_followsTables args
  case h_18 => exact decodeR8_followsTables args
  case h_13 | h_19 | h_20 =>
    exact decodeA32_followsTables args rfl (iff_of_true rfl (not_reservedOperand args (by decide))) fun _ => rfl
  case h_15 => exact decodeTD_followsTables (mk := .update) args rfl (not_reservedOperand args (by decide)) fun _ _ => rfl
  case h_22 => exact decodeLD_followsTables (mk := .romWrite) args rfl (not_reservedOperand args (by decide)) fun _ => rfl
  case h_23 => exact decodeL16_followsTables (mk := .romRead) args rfl (not_reservedOperand args (by decide)) fun _ => rfl
  all_goals exact decodeF0_followsTables args rfl (not_reservedOperand args (by decide)) rfl

theorem opLength_pos {bs : List Byte} {n : Nat} (h : opLength bs = some n) : 1 ≤ n := by
  unfold opLength at h
  split at h <;> cases h <;> omega

/-- Settles O3: what the tables say of an operation read (`decodeOp_followsTables`, `decodeOp_wellFormed`). -/
theorem decodedOperationFitsItsBytes : Obligations.DecodedOperationFitsItsBytes := by
  intro addrBits bs i n h
  cases bs with
  | nil => cases h
  | cons sel args =>
    have htables := decodeOp_followsTables addrBits sel args
    rw [h] at htables
    obtain ⟨hlen, hle, -, henc⟩ := htables
    exact ⟨hlen, opLength_pos hlen, hle, decodeOp_wellFormed _ _ i n h, henc⟩

/-! ## Refusals -/

theorem decodeOp_eq_unknownSelector_iff (addrBits : Nat) (sel : Byte) (args : List Byte) :
    decodeOp addrBits (sel :: args) = .invalid .unknownSelector ↔ UnassignedSelector sel := by
  rw [← formatOf_eq_none_iff]
  have htables := decodeOp_followsTables addrBits sel args
  refine ⟨fun h => by rwa [h] at htables, fun h => ?_⟩
  have hlen : opLength (sel :: args) = none := by simp [opLength, h]
  match hd : decodeOp addrBits (sel :: args), htables with
  | .invalid .unknownSelector, _ => rfl
  | .invalid .badOperand, ⟨n, hn, _⟩ => simp [hlen] at hn
  | .op i n, ⟨hn, _⟩ => simp [hlen] at hn

theorem decodeOp_eq_badOperand_iff (addrBits : Nat) (sel : Byte) (args : List Byte) :
    decodeOp addrBits (sel :: args) = .invalid .badOperand ↔
      ∃ n, opLength (sel :: args) = some n ∧ (args.length + 1 < n ∨ ReservedOperand addrBits sel args) := by
  have htables := decodeOp_followsTables addrBits sel args
  refine ⟨fun h => by rwa [h] at htables, fun ⟨n, hlen, hbad⟩ => ?_⟩
  match hd : decodeOp addrBits (sel :: args), htables with
  | .invalid .badOperand, _ => rfl
  | .invalid .unknownSelector, hfmt => simp [opLength, show formatOf sel = none from hfmt] at hlen
  | .op i m, ⟨hm, hle, hres, _⟩ =>
    obtain rfl : n = m := Option.some.inj (hlen.symm.trans hm)
    exact absurd hbad (not_or.mpr ⟨by omega, hres⟩)

/-- Encoded operations with an invalid encoding behind them: the whole schedule is refused, at that encoding's offset. -/
theorem decodeSchedule_invalid {addrBits : Nat} {ops : List Instr} {bad : List Byte} {e : DecodeError}
    (h : ∀ i ∈ ops, i.wellFormed addrBits = true ∧ encodeBytes i ≠ []) (hbad : decodeOp addrBits bad = .invalid e) :
    (decodeSchedule addrBits (encodeSchedule ops ++ bad)).invalid = some (e, (encodeSchedule ops).length) := by
  obtain ⟨fuel, hfuel, hdecode⟩ := decodeSchedule_encodeSchedule_append h bad
  rw [hdecode]
  cases bad with
  | nil => cases hbad
  | cons sel args =>
    obtain ⟨more, rfl⟩ := Nat.exists_eq_add_of_lt hfuel
    simp only [decodeFrom, hbad]

/-- Settles O4: the two kinds of refusal by the tables, and the step by what the whole schedule decodes to
(`decodeSchedule_invalid`). -/
theorem illegalEncodingsAreRefused : Obligations.IllegalEncodingsAreRefused := by
  refine ⟨decodeOp_eq_unknownSelector_iff, decodeOp_eq_badOperand_iff, ?_⟩
  intro s ops bad e hconfig hops hsched hbad
  have hproblem : Machine.scheduleProblem s = some (e, s.pos + (encodeSchedule ops).length) := by
    rw [Machine.scheduleProblem, hsched, decodeSchedule_invalid hops hbad]
    rfl
  exact Machine.step_of_scheduleProblem hconfig hproblem

end Sys2Proof
end

section
/-! SUPPORT. What a step runs and what it refuses (30_encoding.md R102, R106; 00_scope.md R5, R6), and where BEGIN_SESSION places its
window (30_encoding.md R95(b)). -/

namespace Sys2Proof.Machine

/-! ## The configuration -/

/-- One constraint of the check of R6: it finds nothing exactly where the constraint holds and the rest finds nothing. -/
theorem if_problem_eq_none_iff {c : Prop} [Decidable c] {problem : Config.Problem} {rest : Option Config.Problem} :
    (if c then some problem else rest) = none ↔ ¬ c ∧ rest = none := by
  by_cases h : c <;> simp [h]

theorem two_pow_log2_eq_iff {n : Nat} : 2 ^ Nat.log2 n = n ↔ ∃ k, n = 2 ^ k := by
  refine ⟨fun h => ⟨_, h.symm⟩, fun ⟨k, hk⟩ => ?_⟩
  rw [hk, Nat.log2_two_pow]

theorem configProblem_eq_none_iff {p : Params} :
    configProblem p = none ↔
      p.clockCounting = false ∧ (9 ≤ p.addrBits ∧ p.addrBits ≤ 32) ∧
      ((∃ k, p.romCap = 2 ^ k) ∧ 512 ≤ p.romCap ∧ p.romCap ≤ 2 ^ 32) ∧ maskLegal p p.initialMask = true ∧
      (Memory.wf p.initialImage = true ∧ ∀ c ∈ p.initialImage, c.1 < p.romCap) ∧
      (1 ≤ p.inqCap ∧ 1 ≤ p.outqCap ∧ 1 ≤ p.chunkSize ∧ 1 ≤ p.detFifoDepth) ∧ 3 ≤ p.smUnits := by
  simp only [configProblem, if_problem_eq_none_iff]
  simp only [not_or, ne_eq, not_not, not_lt, Bool.not_eq_true, Bool.not_eq_false,
    two_pow_log2_eq_iff, List.all_eq_true, decide_eq_true_eq, Config.winSize, and_true, Nat.one_le_iff_ne_zero]

/-! ## The step -/

theorem step_of_configProblem {s : State} {problem : Config.Problem} (h : configProblem s.cfg = some problem) :
    step s = .refused (.configuration problem) := by
  simp only [step, h]

/-- Past the checks, a step is the operation at the front of the schedule, in the state that has moved past it (30_encoding.md R106). -/
theorem step_of_op {s : State} {i : Instr} {n : Nat} (hconfig : configProblem s.cfg = none)
    (hproblem : scheduleProblem s = none) (hrun : s.faulted = none) (hop : decodeOp s.cfg.addrBits s.sched = .op i n) :
    step s = exec i (s.consume n) := by
  simp only [step, hconfig, hproblem, live_running hrun, fetch, hop]

theorem step_of_end {s : State} (hconfig : configProblem s.cfg = none) (hrun : s.faulted = none) (hend : s.sched = []) :
    step s = .refused .scheduleEnd := by
  simp only [step, hconfig, scheduleProblem_of_nil hend, live_running hrun, fetch, hend, decodeOp]

/-- Settles O7: the step's three outcomes (`step_of_op`, `step_of_end`, `step_of_configProblem`) and the check of the configuration
(`configProblem_eq_none_iff`). -/
theorem stepRunsDecodedOperation : Obligations.StepRunsDecodedOperation := by
  refine ⟨fun s => ⟨?_, step_of_end, fun _ => step_of_configProblem, ?_⟩, fun p => ?_⟩
  · intro i n hconfig hsched hrun hop
    exact step_of_op hconfig (scheduleProblem_eq_none.mpr hsched) hrun hop
  · intro hclock
    exact step_of_configProblem (if_pos hclock)
  · rw [configProblem_eq_none_iff, maskLegal_iff]

/-! ## The base of a session -/

/-- Below a mask of the form 2^k − 1, masking changes nothing (20_memory.md R61). -/
theorem masked_eq_self {p : Params} {a mask : Word} (hlegal : maskLegal p mask = true) (ha : a.toNat ≤ mask.toNat) :
    masked a mask = a := by
  obtain ⟨⟨k, hk⟩, -⟩ := maskLegal_iff.mp hlegal
  apply BitVec.eq_of_toNat_eq
  rw [masked, BitVec.toNat_and, Nat.eq_sub_of_add_eq hk, Nat.and_two_pow_sub_one_eq_mod, Nat.mod_eq_of_lt (by omega)]

/-- Settles O40: the base is aligned and its window lies under the mask (`windowBase_placed`), which lies inside the buffer. -/
theorem windowBaseIsPlaced : Obligations.WindowBaseIsPlaced := by
  intro p a mask hlegal hmin
  obtain ⟨haligned, hunder⟩ := windowBase_placed hlegal hmin a
  obtain ⟨-, hcap, -⟩ := maskLegal_iff.mp hlegal
  refine ⟨haligned, hunder, by omega, fun ha => ?_⟩
  rw [windowBase, masked_eq_self hlegal ha, toNat_and_windowMask]

end Sys2Proof.Machine
end

section
/-! SUPPORT. A served read (30_encoding.md R104; 41_read_path.md R151 to R157): the samples accept the settled address, RESP_SERVE
forwards its byte, DRV_SHIFT puts it on the pins where it is not there already, and BUS_LATCH finds it fresh. -/

namespace Sys2Proof.Machine

/-- The Responder has forwarded the byte of the address on the lines, and goes on with the registers `r` (41_read_path.md R154). -/
def State.served (s : State) (r : Responder) : State :=
  { s with resp := r, outLatch := s.romByte (masked s.bus.addr s.addressMask).toNat, outTag := some s.bus.epoch }

/-- The pins show the output latch, with its tag (40_bus_decoder.md R132). -/
def State.shifted (s : State) : State := { s with pinsVal := s.outLatch, pinsTag := s.outTag }

theorem inFlight_eq_false_iff {s : State} {o : Nat} :
    inFlight s o = false ↔ ∀ lo hi, s.inflight = some (lo, hi) → ¬ (lo ≤ o ∧ o < hi) := by
  unfold inFlight
  rcases s.inflight with _ | ⟨lo, hi⟩ <;> simp

theorem sample_settled {s : State} (h : s.bus.stable = true) : sample s = (s.bus.addr, some s.bus.epoch, s) := if_pos h

theorem execDrvShift_of_pending {s : State} (hrun : s.faulted = none)
    (h : ¬ (s.pinsVal = s.outLatch ∧ s.pinsTag = s.outTag)) : exec .drvShift s = .next s.shifted :=
  (live_running hrun _).trans (if_neg h)

theorem shifted_of_shown {s : State} (h : s.pinsVal = s.outLatch ∧ s.pinsTag = s.outTag) : s.shifted = s := by
  cases s
  simp_all only [State.shifted]

theorem execBusLatch_of_fresh {s : State} (hrun : s.faulted = none) (h : latchKind s = none) :
    exec .busLatch s = .next (s.emit (.latch s.pinsVal true)) := by
  simp only [exec, execBusLatch, live_running hrun, h]

/-- RESP_SERVE outside the range in flight (41_read_path.md R154). -/
theorem execRespServe_of_quiet {s : State} (hrun : s.faulted = none) (hresumed : s.suspended = false)
    (hphase : s.resp.phase = .serve) (hin : (masked s.resp.a s.addressMask).toNat < s.cfg.romCap)
    (hquiet : inFlight s (masked s.resp.a s.addressMask).toNat = false) :
    exec .respServe s = .next (forwardByte (s.romByte (masked s.resp.a s.addressMask).toNat) s) := by
  simp only [exec, execRespServe, live_running hrun, hresumed, hphase, hquiet, Nat.not_le.mpr hin, ne_eq, not_true_eq_false,
    Bool.false_eq_true, or_self, if_false]

section
variable {s : State} (hrun : s.faulted = none) (hresumed : s.suspended = false) (hphase : s.resp.phase = .s1)
  (hstable : s.bus.stable = true) (hin : (masked s.bus.addr s.addressMask).toNat < s.cfg.romCap)
  (hquiet : inFlight s (masked s.bus.addr s.addressMask).toNat = false)
include hrun hresumed hphase hstable

/-- From S1 on settled lines the samples of either mode accept the address on them, with its epoch (41_read_path.md R151 to R153). -/
theorem replay_samplesOf_settled :
    ∃ r : Responder, r.phase = .serve ∧ r.a = s.bus.addr ∧ r.aTag = some s.bus.epoch ∧
      replay (samplesOf s.cfg.sampleMode) s = .next { s with resp := r } := by
  cases hmode : s.cfg.sampleMode with
  | single =>
    have haccept : exec .respSample s = .next (acceptSample s.bus.addr (some s.bus.epoch) s) := by
      simp [exec, execRespSample, live_running hrun, hresumed, hmode, hphase, sample_settled hstable]
    exact ⟨_, rfl, rfl, rfl, replay_cons_next.mpr ⟨_, haccept, rfl⟩⟩
  | double =>
    have hfirst : exec .respSample s = .next (firstSample s.bus.addr (some s.bus.epoch) s) := by
      simp [exec, execRespSample, live_running hrun, hresumed, hmode, hphase, sample_settled hstable]
    have haccept : exec .respSample (firstSample s.bus.addr (some s.bus.epoch) s) =
        .next (acceptSample s.bus.addr (some s.bus.epoch) (firstSample s.bus.addr (some s.bus.epoch) s)) := by
      simp [exec, execRespSample, live, hrun, hresumed, hmode, sample, hstable, firstSample]
    exact ⟨_, rfl, rfl, rfl, replay_cons_next.mpr ⟨_, hfirst, replay_cons_next.mpr ⟨_, haccept, rfl⟩⟩⟩

include hin hquiet in
theorem replay_serve_settled :
    ∃ r : Responder, r.phase = .s1 ∧ replay (samplesOf s.cfg.sampleMode ++ [.respServe]) s = .next (s.served r) := by
  obtain ⟨r, hserve, ha, htag, hsamples⟩ := replay_samplesOf_settled hrun hresumed hphase hstable
  have hforward := execRespServe_of_quiet (s := { s with resp := r }) hrun hresumed hserve (by rwa [ha]) (by rwa [ha])
  rw [ha] at hforward
  refine ⟨{ r with phase := .s1 }, rfl, replay_append_next.mpr ⟨_, hsamples, replay_cons_next.mpr ⟨_, hforward, ?_⟩⟩⟩
  simp only [replay_nil, forwardByte, State.served, State.romByte, htag]

include hin hquiet in
/-- SERVE_NOW leaves out DRV_SHIFT exactly where the pins already show the byte, so they show it either way (30_encoding.md R104). -/
theorem expandServeNow_settled :
    ∃ ops, ∃ r : Responder, r.phase = .s1 ∧ expandServeNow s = some ops ∧ replay ops s = .next (s.served r).shifted := by
  obtain ⟨r, hr, hserve⟩ := replay_serve_settled hrun hresumed hphase hstable hin hquiet
  have hafter : after (samplesOf s.cfg.sampleMode ++ [.respServe]) s = some (s.served r) := after_eq_some.mpr ⟨hserve, hrun⟩
  simp only [expandServeNow, hphase, hafter, ne_eq, not_true_eq_false, if_false, Option.map_some]
  by_cases hshown : (s.served r).pinsVal = (s.served r).outLatch ∧ (s.served r).pinsTag = (s.served r).outTag
  · exact ⟨_, r, hr, congrArg some (if_pos hshown), (shifted_of_shown hshown).symm ▸ hserve⟩
  · have hshift := execDrvShift_of_pending (s := s.served r) hrun hshown
    exact ⟨_, r, hr, congrArg some (if_neg hshown), replay_append_next.mpr ⟨_, hserve, replay_cons_next.mpr ⟨_, hshift, rfl⟩⟩⟩

end

/-- All the premises of a fresh latch hold once the served byte is on the pins (40_bus_decoder.md R126). -/
theorem latchKind_served {s : State} (hstable : s.bus.stable = true) (hce : s.bus.ce = true) (hoe : s.bus.oe = true)
    (hdriving : s.oeseq = .driving) (r : Responder) : latchKind (s.served r).shifted = none := by
  simp [latchKind, State.en, State.shifted, State.served, hstable, hce, hoe, hdriving]

/-- Settles O33: SERVE_NOW puts the byte on the pins with the current epoch (`expandServeNow_settled`), so the latch is fresh. -/
theorem servedReadIsFresh : Obligations.ServedReadIsFresh := by
  intro s hrun hresumed hphase hstable hce hoe hdriving hin hflight
  have hquiet := inFlight_eq_false_iff.mpr hflight
  obtain ⟨ops, r, hr, hexpand, hserve⟩ := expandServeNow_settled hrun hresumed hphase hstable hin hquiet
  have hlatch := execBusLatch_of_fresh (s := (s.served r).shifted) hrun (latchKind_served hstable hce hoe hdriving r)
  exact ⟨ops, _, hexpand, replay_append_next.mpr ⟨_, hserve, replay_cons_next.mpr ⟨_, hlatch, rfl⟩⟩, rfl, rfl, rfl, rfl, hr⟩

end Sys2Proof.Machine
end

section
/-! SUPPORT. The Target's steps (40_bus_decoder.md R121 to R126). A step that closes an access runs the row of its class first; the capture
always goes on, and writes nothing but the detectors, the events, a fault and the draws it takes, so the rest of the step finds the lines
and the access as they were. -/

namespace Sys2Proof.Machine

/-! ## What a capture leaves alone -/

/-- The answer goes on from `s`, with nothing changed but what a capture writes (42_mailbox.md R173 to R176). -/
def CapturesFrom (s : State) (r : StepResult) : Prop :=
  ∃ det faulted history draws,
    r = .next { s with det := det, faulted := faulted, history := history, draws := draws }

theorem CapturesFrom.next {s : State} : CapturesFrom s (.next s) := ⟨_, _, _, _, rfl⟩

theorem CapturesFrom.raise {s : State} {code : FaultCode} : CapturesFrom s (raise code s) := ⟨_, _, _, _, rfl⟩

theorem CapturesFrom.ite {s : State} {c : Prop} [Decidable c] {r₁ r₂ : StepResult} (h₁ : CapturesFrom s r₁)
    (h₂ : CapturesFrom s r₂) : CapturesFrom s (if c then r₁ else r₂) := by
  split
  · exact h₁
  · exact h₂

/-- A capture that starts after its events and draws. -/
theorem CapturesFrom.after {s u : State} {r : StepResult} (h : CapturesFrom u r)
    (hu : ∃ history draws, u = { s with history := history, draws := draws }) : CapturesFrom s r := by
  obtain ⟨_, _, rfl⟩ := hu
  exact h

theorem pushW_captures (b : Byte) (s : State) : CapturesFrom s (pushW b s) :=
  .ite ⟨_, _, _, _, rfl⟩ (.ite .raise .next)

theorem pushR_captures (s : State) : CapturesFrom s (pushR s) :=
  .ite ⟨_, _, _, _, rfl⟩ (.ite .raise .next)

theorem recordEvent_captures {push : State → StepResult} (hpush : ∀ u, CapturesFrom u (push u)) (s : State) :
    CapturesFrom s (recordEvent push s) :=
  .ite (.ite ⟨_, _, _, _, rfl⟩ ((hpush _).after ⟨_, _, rfl⟩)) (hpush s)

theorem captureClass_captures (cls : DetClass) (s : State) : CapturesFrom s (captureClass cls s) := by
  cases cls with
  | plain => exact .next
  | out b => exact recordEvent_captures (pushW_captures b) s
  | consume => exact recordEvent_captures pushR_captures s

/-- The draws of a malformed access write its event and the count of draws only (42_mailbox.md R174). -/
theorem unsettled_frame (s : State) : ∃ history draws, unsettled s = { s with history := history, draws := draws } := by
  unfold unsettled malformed
  cases Config.drawClass s.draws <;> exact ⟨_, _, rfl⟩

/-! ## Closing an access -/

theorem closeAccess_captures (s : State) : CapturesFrom s (closeAccess s) := by
  refine .ite ?_ .next
  cases s.acc.seen with
  | some x => exact captureClass_captures _ s
  | none => exact (captureClass_captures _ _).after (unsettled_frame s)

/-- Closing an access on a settled address runs the row of its class (40_bus_decoder.md R124, 42_mailbox.md R173). -/
theorem closeAccess_settled {s : State} {x : Word} (hrun : s.faulted = none) (harmed : s.det.armed = true)
    (hseen : s.acc.seen = some x) : exec (classify s.det.base (masked x s.addressMask)).row s = closeAccess s := by
  rw [exec_row _ hrun harmed, closeAccess, hseen, detCapture_settled harmed]

/-- Closing an access that never settled runs the row its draws give (42_mailbox.md R174). -/
theorem closeAccess_unsettled {s : State} (hrun : s.faulted = none) (harmed : s.det.armed = true)
    (hseen : s.acc.seen = none) : exec (drawnRow s) (unsettled s) = closeAccess s := by
  obtain ⟨_, _, hframe⟩ := unsettled_frame s
  have hrow := exec_row (s := unsettled s) (malformed s).1 (by rw [hframe]; exact hrun) (by rw [hframe]; exact harmed)
  rw [closeAccess, hseen, detCapture_malformed harmed]
  exact hrow

theorem closeAccess_unarmed {s : State} (harmed : s.det.armed = false) : closeAccess s = .next s := detCapture_unarmed harmed

/-- The rest of a step runs unless its first part has raised. -/
theorem andThen_next_state {t : State} {k : State → State} :
    andThen (.next t) (fun u => .next (k u)) = .next (if t.faulted = none then k t else t) := by
  cases h : t.faulted <;> simp [andThen, h]

/-! ## BUS_ADDR -/

/-- The lines after a change of address (40_bus_decoder.md R121). -/
def Bus.moved (bus : Bus) (a : Word) : Bus := { bus with prev := bus.addr, addr := a, stable := false, epoch := bus.epoch + 1 }

theorem execBusAddr_of_same {s : State} (hrun : s.faulted = none) : exec (.busAddr s.bus.addr) s = .next s :=
  (live_running hrun _).trans (if_pos rfl)

theorem execBusAddr_of_shut {a : Word} {s : State} (hrun : s.faulted = none) (hne : a ≠ s.bus.addr)
    (hshut : s.acc.isOpen = false) : exec (.busAddr a) s = .next { s with bus := s.bus.moved a } := by
  refine (live_running hrun _).trans ((if_neg hne).trans (if_neg ?_))
  simp [hshut]

/-- With an access open, BUS_ADDR closes it and, unless that raises, moves the lines (40_bus_decoder.md R121, R124). -/
theorem execBusAddr_of_open {a : Word} {s : State} (hrun : s.faulted = none) (hne : a ≠ s.bus.addr)
    (hopen : s.acc.isOpen = true) :
    ∃ t, closeAccess s = .next t ∧
      exec (.busAddr a) s =
        .next (if t.faulted = none then { t with bus := s.bus.moved a, acc := { s.acc with seen := none } } else t) := by
  obtain ⟨_, _, _, _, hclose⟩ := closeAccess_captures s
  refine ⟨_, hclose, (live_running hrun _).trans ((if_neg hne).trans ((if_pos hopen).trans ?_))⟩
  rw [hclose]
  exact andThen_next_state

/-- Settles O16: an open access closes by the row of its class (`closeAccess_settled`, `closeAccess_unsettled`), and the lines move
(`execBusAddr_of_open`). -/
theorem busAddrMovesTheLines : Obligations.BusAddrMovesTheLines := by
  intro a s hrun moved
  refine ⟨fun ha => ha ▸ execBusAddr_of_same hrun, execBusAddr_of_shut hrun, fun hne hopen harmed => ?_,
    fun x hne hopen harmed hseen => ?_, fun hne hopen harmed hseen => ?_⟩
  · obtain ⟨t, hclose, haddr⟩ := execBusAddr_of_open hrun hne hopen
    obtain rfl := next_eq.mp ((closeAccess_unarmed harmed).symm.trans hclose)
    rw [haddr, if_pos hrun]
    rfl
  · obtain ⟨t, hclose, haddr⟩ := execBusAddr_of_open hrun hne hopen
    exact ⟨t, (closeAccess_settled hrun harmed hseen).trans hclose, haddr⟩
  · obtain ⟨t, hclose, haddr⟩ := execBusAddr_of_open hrun hne hopen
    exact ⟨t, (closeAccess_unsettled hrun harmed hseen).trans hclose, haddr⟩

/-! ## BUS_SETTLE -/

/-- Settles O17, branch by branch of R122. -/
theorem busSettleSettles : Obligations.BusSettleSettles := by
  refine ⟨rfl, fun s hrun => ⟨fun hstable => ?_, fun hmoving hopen hseen => ?_, fun hmoving hkeep => ?_⟩⟩
  · exact (live_running hrun _).trans (if_pos hstable)
  · exact (live_running hrun _).trans ((if_neg (by simp [hmoving])).trans (if_pos ⟨hopen, hseen⟩))
  · refine (live_running hrun _).trans ((if_neg (by simp [hmoving])).trans (if_neg fun ⟨hopen, hseen⟩ => ?_))
    rcases hkeep with hshut | hsome
    · exact Bool.false_ne_true (hshut.symm.trans hopen)
    · exact hsome hseen

/-! ## BUS_ENABLE -/

section
variable {s : State} {ce oe : Bool} (hrun : s.faulted = none)
include hrun

theorem execBusEnable_of_same (hsame : s.en = (ce && oe)) : exec (.busEnable ce oe) s = .next (s.withEnables ce oe) := by
  refine (live_running hrun _).trans ((if_neg fun ⟨hoff, hon⟩ => ?_).trans (if_neg fun ⟨hon, hoff⟩ => ?_))
  · exact Bool.false_ne_true (hoff.symm.trans (hsame.trans hon))
  · exact Bool.false_ne_true (hoff.symm.trans (hsame.symm.trans hon))

theorem execBusEnable_of_rise (hoff : s.en = false) (hon : (ce && oe) = true) :
    exec (.busEnable ce oe) s =
      .next { s.withEnables ce oe with
        acc := { isOpen := true, seen := if s.bus.stable then some s.bus.addr else none } } :=
  (live_running hrun _).trans (if_pos ⟨hoff, hon⟩)

/-- Where the enable condition falls, the access closes in the state with the new enables (40_bus_decoder.md R123, R124). -/
theorem execBusEnable_of_fall (hon : s.en = true) (hoff : (ce && oe) = false) :
    ∃ t, closeAccess (s.withEnables ce oe) = .next t ∧
      exec (.busEnable ce oe) s =
        .next (if t.faulted = none then { t with acc := { isOpen := false, seen := none } } else t) := by
  obtain ⟨_, _, _, _, hclose⟩ := closeAccess_captures (s.withEnables ce oe)
  refine ⟨_, hclose, (live_running hrun _).trans ((if_neg fun hrise => ?_).trans ((if_pos ⟨hon, hoff⟩).trans ?_))⟩
  · exact Bool.false_ne_true (hrise.1.symm.trans hon)
  · change andThen (closeAccess (s.withEnables ce oe)) _ = _
    rw [hclose]
    exact andThen_next_state

end

/-- Settles O18: the enable condition stays, rises or falls (`execBusEnable_of_same`, `execBusEnable_of_rise`,
`execBusEnable_of_fall`); where it falls, the access closes by the row of its class. -/
theorem busEnableOpensAndCloses : Obligations.BusEnableOpensAndCloses := by
  intro ce oe s hrun s1
  have hrun1 : (s.withEnables ce oe).faulted = none := hrun
  refine ⟨execBusEnable_of_same hrun, execBusEnable_of_rise hrun, fun hon hoff harmed => ?_,
    fun x hon hoff harmed hseen => ?_, fun hon hoff harmed hseen => ?_⟩
  · obtain ⟨t, hclose, henable⟩ := execBusEnable_of_fall hrun hon hoff
    obtain rfl := next_eq.mp ((closeAccess_unarmed (s := s.withEnables ce oe) harmed).symm.trans hclose)
    rw [henable, if_pos hrun1]
    rfl
  · obtain ⟨t, hclose, henable⟩ := execBusEnable_of_fall hrun hon hoff
    exact ⟨t, (closeAccess_settled hrun1 harmed hseen).trans hclose, henable⟩
  · obtain ⟨t, hclose, henable⟩ := execBusEnable_of_fall hrun hon hoff
    exact ⟨t, (closeAccess_unsettled hrun1 harmed hseen).trans hclose, henable⟩

/-! ## BUS_LATCH -/

/-- A latch that is not fresh takes a free byte and names the premise that failed (40_bus_decoder.md R126). -/
theorem execBusLatch_of_violation {s : State} {kind : ViolationKind} (hrun : s.faulted = none)
    (hkind : latchKind s = some kind) :
    exec .busLatch s =
      .next { s with
        history := s.history ++ [.latch (Config.drawByte s.draws) false, .timingViolation kind]
        draws := s.draws + 1 } := by
  simp only [exec, execBusLatch, live_running hrun, hkind, State.emit, State.tookDraw, List.append_assoc,
    List.cons_append, List.nil_append]

/-- Settles O19: the premises of R126 in their order decide `latchKind`, and with it the outcome (`execBusLatch_of_fresh`,
`execBusLatch_of_violation`). -/
theorem busLatchOutcome : Obligations.BusLatchOutcome := by
  refine ⟨rfl, fun s hrun => ⟨fun hen hstable hdriving htag => ?_, fun hen => ?_, fun hen hmoving => ?_,
    fun hen hstable hreleased => ?_, fun hen hstable hdriving htag hsuspended => ?_,
    fun hen hstable hdriving htag hresumed => ?_⟩⟩
  · exact execBusLatch_of_fresh hrun (by simp [latchKind, State.en, hen, hstable, hdriving, htag])
  · exact execBusLatch_of_violation hrun (by simp [latchKind, State.en, hen])
  · exact execBusLatch_of_violation hrun (by simp [latchKind, State.en, hen, hmoving])
  · exact execBusLatch_of_violation hrun (by simp [latchKind, State.en, hen, hstable, hreleased])
  · exact execBusLatch_of_violation hrun (by simp [latchKind, State.en, hen, hstable, hdriving, htag, hsuspended])
  · exact execBusLatch_of_violation hrun (by simp [latchKind, State.en, hen, hstable, hdriving, htag, hresumed])

end Sys2Proof.Machine
end

section
/-! SUPPORT. The Address Decoder's programs (40_bus_decoder.md R130 to R135): what each can do, once; and that no other operation writes
what the data lines show. -/

namespace Sys2Proof.Machine

/-! ## The three programs, whole -/

/-- Where the sequencer goes: it follows the enable condition (40_bus_decoder.md R130). -/
def State.wanted (s : State) : OeSeq := if s.en then .driving else .released

theorem wanted_of_en {s : State} {en : Bool} (hen : s.en = en) : s.wanted = if en then .driving else .released := by
  rw [State.wanted, hen]

theorem oeseqStep_next {s t : State} :
    exec .oeseqStep s = .next t ↔ s.faulted = none ∧ s.oeseq ≠ s.wanted ∧ t = { s with oeseq := s.wanted } := by
  refine live_next.trans (and_congr_right fun _ => ?_)
  change (if s.oeseq = s.wanted then hold else .next { s with oeseq := s.wanted }) = .next t ↔ _
  split <;> simp_all [hold, eq_comm]

theorem oeseqStep_hold {s : State} (hrun : s.faulted = none) (h : s.oeseq = s.wanted) :
    exec .oeseqStep s = .refused .infeasible :=
  (live_running hrun _).trans (if_pos h)

theorem drvShift_next {s t : State} :
    exec .drvShift s = .next t ↔
      s.faulted = none ∧ ¬ (s.pinsVal = s.outLatch ∧ s.pinsTag = s.outTag) ∧ t = s.shifted := by
  refine live_next.trans (and_congr_right fun _ => ?_)
  change (if s.pinsVal = s.outLatch ∧ s.pinsTag = s.outTag then hold else .next s.shifted) = .next t ↔ _
  split <;> simp_all [hold, eq_comm]

theorem drvShift_hold {s : State} (hrun : s.faulted = none) (h : s.pinsVal = s.outLatch ∧ s.pinsTag = s.outTag) :
    exec .drvShift s = .refused .infeasible :=
  (live_running hrun _).trans (if_pos h)

theorem repStep_next {s t : State} :
    exec .repStep s = .next t ↔
      s.faulted = none ∧
        ((s.en = true ∧ s.repSeen = false ∧ t = { s with accessFlag := true, repSeen := true }) ∨
          (s.en = false ∧ s.repSeen = true ∧ t = { s with repSeen := false })) := by
  refine live_next.trans (and_congr_right fun _ => ?_)
  split
  next hassert => simp [hassert, eq_comm]
  next hnoassert =>
    split
    next hdeassert => simp [hdeassert, eq_comm]
    next hnodeassert => simp_all [hold]

theorem repStep_hold {s : State} (hrun : s.faulted = none) (h : s.en = s.repSeen) :
    exec .repStep s = .refused .infeasible := by
  refine (live_running hrun _).trans ((if_neg fun hassert => ?_).trans (if_neg fun hdeassert => ?_))
  · exact Bool.false_ne_true (hassert.2.symm.trans (h.symm.trans hassert.1))
  · exact Bool.false_ne_true (hdeassert.1.symm.trans (h.trans hdeassert.2))

/-- Settles O24: the sequencer steps where it is not yet where `en` wants it (`oeseqStep_next`), and holds where it is. -/
theorem oeseqFollowsEnable : Obligations.OeseqFollowsEnable := by
  refine ⟨rfl, fun s hrun => ⟨fun hen hreleased => ?_, fun hen hdriving => ?_, fun hen hdriving => ?_,
    fun hen hreleased => ?_⟩⟩
  · exact oeseqStep_next.mpr ⟨hrun, by simp [wanted_of_en hen, hreleased], by simp [wanted_of_en hen]⟩
  · exact oeseqStep_next.mpr ⟨hrun, by simp [wanted_of_en hen, hdriving], by simp [wanted_of_en hen]⟩
  · exact oeseqStep_hold hrun (hdriving.trans (wanted_of_en hen).symm)
  · exact oeseqStep_hold hrun (hreleased.trans (wanted_of_en hen).symm)

/-- Settles O25 (`execDrvShift_of_pending`, `drvShift_hold`). -/
theorem drvShiftMovesTheQueuedByte : Obligations.DrvShiftMovesTheQueuedByte := by
  refine ⟨rfl, fun s hrun => ⟨fun hpending => ?_, fun hshown => ?_⟩⟩
  · exact execDrvShift_of_pending hrun fun hshown => hpending (Prod.ext hshown.1 hshown.2)
  · exact drvShift_hold hrun (Prod.mk.inj hshown)

/-- Settles O26: an assertion not yet seen is reported, a deassertion re-arms (`repStep_next`), and `rep_seen` that follows `en`
holds. -/
theorem repStepReportsOnce : Obligations.RepStepReportsOnce := by
  refine ⟨rfl, fun s hrun => ⟨fun hen hunseen => ?_, fun hen hseen => ?_, repStep_hold hrun⟩⟩
  · exact repStep_next.mpr ⟨hrun, .inl ⟨hen, hunseen, rfl⟩⟩
  · exact repStep_next.mpr ⟨hrun, .inr ⟨hen, hseen, rfl⟩⟩

/-- Settles O28: each program's guard and writes speak of the wires and the Decoder's registers only. -/
theorem decoderIgnoresTheRestOfTheState : Obligations.DecoderIgnoresTheRestOfTheState := by
  intro i s u t hi _ hrun hbus hoeseq hlatch houtTag hpins hpinsTag hseen hflag ht
  have hen : u.en = s.en := by rw [State.en, hbus, State.en]
  obtain rfl | rfl | rfl := hi
  · have hwanted : u.wanted = s.wanted := wanted_of_en hen
    obtain ⟨-, hne, rfl⟩ := oeseqStep_next.mp ht
    refine oeseqStep_next.mpr ⟨hrun, by rwa [hoeseq, hwanted], ?_⟩
    simp only [← hpins, ← hpinsTag, ← hseen, ← hflag, hwanted]
  · obtain ⟨-, hpending, rfl⟩ := drvShift_next.mp ht
    refine drvShift_next.mpr ⟨hrun, by rwa [hpins, hlatch, hpinsTag, houtTag], ?_⟩
    simp only [State.shifted, ← hoeseq, ← hlatch, ← houtTag, ← hseen, ← hflag]
  · obtain ⟨-, ⟨hon, hunseen, rfl⟩ | ⟨hoff, hwas, rfl⟩⟩ := repStep_next.mp ht
    · refine repStep_next.mpr ⟨hrun, .inl ⟨hen.trans hon, hseen.trans hunseen, ?_⟩⟩
      simp only [← hoeseq, ← hpins, ← hpinsTag]
    · refine repStep_next.mpr ⟨hrun, .inr ⟨hen.trans hoff, hseen.trans hwas, ?_⟩⟩
      simp only [← hoeseq, ← hpins, ← hpinsTag, ← hflag]

/-! ## The pads: what the block drives, and whether it drives -/

/-- The sequencer and the pins, of which the data lines and BUF_EN are made (40_bus_decoder.md R131, R133). -/
def State.padView (s : State) : OeSeq × Byte × Option Nat := (s.oeseq, s.pinsVal, s.pinsTag)

/-- If the answer is a next state, its pads are those of `s`. -/
def KeepsPads (s : State) (r : StepResult) : Prop := Answers (fun t => t.padView = s.padView) r

theorem CapturesFrom.pads {s : State} {r : StepResult} (h : CapturesFrom s r) : KeepsPads s r := by
  obtain ⟨_, _, _, _, rfl⟩ := h
  exact .next rfl

theorem row_pads (cls : DetClass) (s : State) : KeepsPads s (live s (if s.det.armed then captureClass cls s else .next s)) :=
  .live fun _ => .ite (fun _ => (captureClass_captures cls s).pads) fun _ => .next rfl

theorem execBusAddr_pads (a : Word) (s : State) : KeepsPads s (execBusAddr a s) :=
  .live fun _ => .ite (fun _ => .next rfl) fun _ =>
    .ite (fun _ => .andThen (closeAccess_captures s).pads (fun _ hu _ => .next hu) fun _ hu _ => hu) fun _ => .next rfl

theorem execBusSettle_pads (s : State) : KeepsPads s (execBusSettle s) :=
  .live fun _ => .ite (fun _ => .next rfl) fun _ => .ite (fun _ => .next rfl) fun _ => .next rfl

theorem execBusEnable_pads (ce oe : Bool) (s : State) : KeepsPads s (execBusEnable ce oe s) :=
  .live fun _ => .ite (fun _ => .next rfl) fun _ =>
    .ite (fun _ => .andThen (closeAccess_captures (s.withEnables ce oe)).pads (fun _ hu _ => .next hu) fun _ hu _ => hu)
      fun _ => .next rfl

theorem execBusLatch_pads (s : State) : KeepsPads s (execBusLatch s) := by
  refine .live fun _ => ?_
  cases latchKind s with
  | none => exact .next rfl
  | some kind => exact .next rfl

theorem execRespSample_pads (s : State) : KeepsPads s (execRespSample s) := by
  intro t ht
  have hsample : (sample s).2.2.padView = s.padView := by
    rcases sample_state s with hs | hs <;> rw [hs]
    rfl
  obtain ⟨_, rfl | ⟨_, rfl⟩⟩ := execRespSample_answers s t ht
  · exact hsample
  · exact hsample

theorem WriteHandled.pads {s t : State} (h : WriteHandled s t) : t.padView = s.padView := by
  cases h with
  | accepts _ _ _ h =>
    obtain ⟨_, _, hbump⟩ := h
    obtain ⟨m, rfl⟩ := hbump.writes.frame
    rfl
  | defers _ h => exact h ▸ rfl

theorem ReadHandled.pads {s t : State} (h : ReadHandled s t) : t.padView = s.padView := by
  cases h with
  | nothing h => exact h ▸ rfl
  | empties _ _ _ h =>
    obtain ⟨m, rfl⟩ := (writeField_writes _ _ _ _ t h).frame
    rfl
  | offers _ _ h =>
    obtain ⟨m, rfl⟩ := h.writes.frame
    rfl

theorem SessionClosed.pads {s u : State} (h : SessionClosed s u) : u.padView = s.padView := by
  cases h with
  | idle _ h => exact h ▸ rfl
  | closes _ _ hw h =>
    obtain ⟨m, rfl⟩ := hw.frame
    exact h ▸ rfl

theorem CallEffect.pads {s t : State} {c : Call} (h : CallEffect s c t) : t.padView = s.padView := by
  cases h with
  | opens _ _ hclosed => exact hclosed.pads
  | begins hopened =>
    obtain ⟨m, rfl⟩ := hopened.writes.frame
    rfl
  | ends hclosed => exact hclosed.pads
  | publishes _ _ _ hpublished =>
    obtain ⟨_, _, hw⟩ := hpublished.writes
    obtain ⟨m, rfl⟩ := hw.frame
    rfl
  | replays _ _ haccepted =>
    obtain ⟨_, _, hbump⟩ := haccepted
    obtain ⟨m, rfl⟩ := hbump.writes.frame
    rfl
  | writes hwrites =>
    obtain ⟨m, rfl⟩ := hwrites.frame
    rfl
  | _ => rfl

theorem issue_pads (c : Call) (s : State) : KeepsPads s (live s (issue c s)) := by
  intro t ht
  obtain ⟨_, rfl | ⟨_, _, rfl⟩⟩ := issue_answers c s t ht
  · rfl
  · rfl

/-- Every instruction but OESEQ_STEP and DRV_SHIFT leaves the sequencer and the pins as they were (40_bus_decoder.md R134(c)). -/
theorem exec_pads_eq {i : Instr} {s t : State} (ht : exec i s = .next t) (hoeseq : i ≠ .oeseqStep) (hdrv : i ≠ .drvShift) :
    t.padView = s.padView := by
  cases i with
  | busAddr a => exact execBusAddr_pads a s t ht
  | busSettle => exact execBusSettle_pads s t ht
  | busEnable ce oe => exact execBusEnable_pads ce oe s t ht
  | busLatch => exact execBusLatch_pads s t ht
  | oeseqStep => exact absurd rfl hoeseq
  | drvShift => exact absurd rfl hdrv
  | repStep =>
    obtain ⟨_, rfl | rfl⟩ := execRepStep_answers s t ht
    · rfl
    · rfl
  | respSample => exact execRespSample_pads s t ht
  | respServe =>
    obtain ⟨_, _, rfl | rfl⟩ := execRespServe_answers s t ht
    · rfl
    · rfl
  | irqW =>
    obtain ⟨_, _, h⟩ := execIrqW_handles s t ht
    exact h.pads
  | irqR =>
    obtain ⟨_, h⟩ := execIrqR_handles s t ht
    exact h.pads
  | cpStep =>
    obtain ⟨_, _, _, h⟩ := execCpStep_effect s t ht
    exact h.pads
  | tick =>
    obtain rfl := next_eq.mp (live_next.mp ht).2
    rfl
  | mboxOut b => exact row_pads (.out b) s t ht
  | mboxConsume => exact row_pads .consume s t ht
  | plainRead => exact row_pads .plain s t ht
  | _ => exact issue_pads _ s t ht

/-! ## The data lines and BUF_EN -/

theorem dataLines_congr {s t : State} (hoeseq : t.oeseq = s.oeseq) (hpins : t.pinsVal = s.pinsVal) :
    dataLines t = dataLines s := by
  simp only [dataLines, hoeseq, hpins]

theorem dataLines_of_driving {s : State} (h : s.oeseq = .driving) : dataLines s = .driven s.pinsVal := by
  simp only [dataLines, h]

theorem dataLines_of_released {s : State} (h : s.oeseq = .released) : dataLines s = .highZ := by
  simp only [dataLines, h]

theorem bufEn_congr {s t : State} (hcfg : t.cfg = s.cfg) (hoeseq : t.oeseq = s.oeseq) : bufEn t = bufEn s := by
  simp only [bufEn, hcfg, hoeseq]

theorem bufEn_absent {s : State} (h : s.cfg.bufPresent = false) : bufEn s = none := by simp [bufEn, h]

theorem bufEn_present {s : State} (h : s.cfg.bufPresent = true) : bufEn s = some (decide (s.oeseq = .driving)) := by
  simp [bufEn, h]

/-- DRV_SHIFT shows on the data lines only while the sequencer drives them (40_bus_decoder.md R133). -/
theorem driving_of_dataLines_shifted_ne {s : State} (hne : dataLines s.shifted ≠ dataLines s) : s.oeseq = .driving := by
  cases hoeseq : s.oeseq with
  | driving => rfl
  | released => exact absurd ((dataLines_of_released (s := s.shifted) hoeseq).trans (dataLines_of_released hoeseq).symm) hne

/-- Settles O27: the two programs that write the pads by what they write (`oeseqStep_next`, `drvShift_next`), every other instruction
by `exec_pads_eq`; what the lines and BUF_EN carry is read off the sequencer. -/
theorem dataLinesChangeOnlyAtDecoderSteps : Obligations.DataLinesChangeOnlyAtDecoderSteps := by
  refine ⟨fun i s t ht => ?_, fun s => ⟨bufEn_absent, fun hpresent => ?_, ?_⟩⟩
  · by_cases hseq : i = .oeseqStep
    · subst hseq
      obtain ⟨-, -, rfl⟩ := oeseqStep_next.mp ht
      exact ⟨fun _ => rfl, fun hpins => by simp at hpins, fun _ => .inl rfl, fun _ => rfl⟩
    by_cases hdrv : i = .drvShift
    · subst hdrv
      obtain ⟨-, -, rfl⟩ := drvShift_next.mp ht
      exact ⟨fun hne => absurd rfl hne, fun _ => rfl, fun hne => .inr ⟨rfl, driving_of_dataLines_shifted_ne hne⟩,
        fun hne => absurd rfl hne⟩
    have hpads := exec_pads_eq ht hseq hdrv
    simp only [State.padView, Prod.mk.injEq] at hpads
    obtain ⟨hoeseq, hval, htag⟩ := hpads
    have hcfg : t.cfg = s.cfg := (Prod.mk.inj (exec_extends i s t ht).unwritten).1
    exact ⟨fun hne => absurd hoeseq hne, fun hne => absurd ⟨hval, htag⟩ (not_and_or.mpr hne),
      fun hne => absurd (dataLines_congr hoeseq hval) hne, fun hne => absurd (bufEn_congr hcfg hoeseq) hne⟩
  · rw [bufEn_present hpresent]
    cases s.oeseq <;> decide
  · cases hoeseq : s.oeseq with
    | driving => simp [dataLines_of_driving hoeseq]
    | released => simp [dataLines_of_released hoeseq]

end Sys2Proof.Machine
end

section
/-! SUPPORT. The CP_STEP of the ROM pointer's and the access flag's calls (43_control_plane.md R220, R221, R223; 40_bus_decoder.md R136,
R137). -/

namespace Sys2Proof.Machine

/-- CP_STEP runs the step of the call in progress (43_control_plane.md R200). -/
theorem execCpStep_of_call {s : State} {c : Call} (hrun : s.faulted = none) (hcall : s.call = some c) :
    exec .cpStep s = callStep c s := by
  simp only [exec, execCpStep, live_running hrun, hcall]

theorem Memory.readBytes_getD {m : List Host.Cell} {o n k : Nat} (hk : k < n) :
    (Memory.readBytes m o n).getD k 0 = Memory.read m (o + k) := by
  induction n generalizing o k with
  | zero => omega
  | succ n ih =>
    cases k with
    | zero => rfl
    | succ k => rw [Memory.readBytes, List.getD_cons_succ, ih (by omega), Nat.add_assoc, Nat.add_comm 1 k]

/-- The pointer moves modulo 2^32 (43_control_plane.md R223). -/
theorem advancePtr_eq (n : Nat) (s : State) : advancePtr n s = { s with romPtr := BitVec.ofNat 32 (s.romPtr.toNat + n) } := by
  rw [advancePtr, BitVec.ofNat_add, BitVec.ofNat_toNat, BitVec.setWidth_eq]

theorem cpRomRead_of_le {n : Half} {s : State} (h : s.romPtr.toNat + n.toNat ≤ s.cfg.romCap) :
    cpRomRead n s =
      ret .romRead (.bytes (Memory.readBytes s.rom s.romPtr.toNat n.toNat))
        { s with romPtr := BitVec.ofNat 32 (s.romPtr.toNat + n.toNat) } := by
  rw [cpRomRead, if_neg (Nat.not_lt.mpr h), advancePtr_eq]

/-- Settles O44: each call's step is its return (`ret`) after its one write; ROM_READ's is `cpRomRead_of_le`. -/
theorem pointerAndFlagCallsComplete : Obligations.PointerAndFlagCallsComplete := by
  intro s hrun
  refine ⟨fun _ => execCpStep_of_call hrun, execCpStep_of_call hrun, fun n hcall hin => ?_, execCpStep_of_call hrun,
    execCpStep_of_call hrun⟩
  refine ⟨Memory.readBytes s.rom s.romPtr.toNat n.toNat, Memory.readBytes_length _ _ _,
    fun _ => Memory.readBytes_getD, ?_⟩
  exact (execCpStep_of_call hrun hcall).trans (cpRomRead_of_le hin)

end Sys2Proof.Machine
end

section
/-! SUPPORT. The Responder (41_read_path.md R150 to R158): each of its two steps, whole; what they read; and that while it is suspended
only RESUME's step moves it. -/

namespace Sys2Proof.Machine

/-! ## RESP_SAMPLE, whole -/

/-- The sample at hand is the address to serve: any in `Single` mode, the second of an agreeing pair in `Double` mode
(41_read_path.md R151, R153). -/
def State.SampleAgrees (s : State) : Prop :=
  (s.cfg.sampleMode = .single ∧ s.resp.phase = .s1) ∨
    (s.cfg.sampleMode = .double ∧ s.resp.phase = .s2 ∧ (sample s).1 = s.resp.s1)

/-- The sample at hand is the first of a pair: there is none before it, or the one before it differs (41_read_path.md R152, R153). -/
def State.SampleIsFirst (s : State) : Prop :=
  s.cfg.sampleMode = .double ∧ (s.resp.phase = .s1 ∨ (s.resp.phase = .s2 ∧ (sample s).1 ≠ s.resp.s1))

theorem respSample_next {s t : State} :
    exec .respSample s = .next t ↔
      s.faulted = none ∧ s.suspended = false ∧
        ((s.SampleAgrees ∧ t = acceptSample (sample s).1 (sample s).2.1 (sample s).2.2) ∨
          (s.SampleIsFirst ∧ t = firstSample (sample s).1 (sample s).2.1 (sample s).2.2)) := by
  refine live_next.trans (and_congr_right fun _ => ?_)
  cases hsuspended : s.suspended with
  | true => simp [hold]
  | false =>
    cases hmode : s.cfg.sampleMode with
    | single =>
      cases hphase : s.resp.phase <;> simp [State.SampleAgrees, State.SampleIsFirst, hmode, hphase, hold, eq_comm]
    | double =>
      cases hphase : s.resp.phase with
      | s1 => simp [State.SampleAgrees, State.SampleIsFirst, hmode, hphase, eq_comm]
      | s2 =>
        by_cases hpair : (sample s).1 = s.resp.s1 <;>
          simp [State.SampleAgrees, State.SampleIsFirst, hmode, hphase, hpair, eq_comm]
      | serve => simp [State.SampleAgrees, State.SampleIsFirst, hmode, hphase, hold]

/-- What RESP_SAMPLE does with the sample `v`, tagged `tag`, that leaves the state `u`, in each mode and phase that samples
(41_read_path.md R151 to R153). -/
theorem execRespSample_of_sample {s u : State} {v : Word} {tag : Option Nat} (hrun : s.faulted = none)
    (hresumed : s.suspended = false) (hsample : sample s = (v, tag, u)) :
    (s.cfg.sampleMode = .single → s.resp.phase = .s1 → exec .respSample s = .next (acceptSample v tag u)) ∧
    (s.cfg.sampleMode = .double → s.resp.phase = .s1 → exec .respSample s = .next (firstSample v tag u)) ∧
    (s.cfg.sampleMode = .double → s.resp.phase = .s2 →
      exec .respSample s = .next (if v = s.resp.s1 then acceptSample v tag u else firstSample v tag u)) := by
  have haccept (h : s.SampleAgrees) : exec .respSample s = .next (acceptSample v tag u) :=
    respSample_next.mpr ⟨hrun, hresumed, .inl ⟨h, by rw [hsample]⟩⟩
  have hfirst (h : s.SampleIsFirst) : exec .respSample s = .next (firstSample v tag u) :=
    respSample_next.mpr ⟨hrun, hresumed, .inr ⟨h, by rw [hsample]⟩⟩
  refine ⟨fun hmode hphase => haccept (.inl ⟨hmode, hphase⟩), fun hmode hphase => hfirst ⟨hmode, .inl hphase⟩,
    fun hmode hphase => ?_⟩
  split
  next hpair => exact haccept (.inr ⟨hmode, hphase, by rw [hsample, hpair]⟩)
  next hpair => exact hfirst ⟨hmode, .inr ⟨hphase, by rwa [hsample]⟩⟩

/-! ## The value of a sample -/

theorem sample_moving {s : State} (h : s.bus.stable = false) :
    sample s = (mixLines s.bus.addr s.bus.prev (Config.drawMask s.draws), none, s.tookDraw) :=
  if_neg (by simp [h])

/-- Each line of a mixture is the new one's where the mask says so, the old one's where not (41_read_path.md R155). -/
theorem getLsbD_mixLines (new old m : Word) (k : Nat) :
    (mixLines new old m).getLsbD k = if m.getLsbD k then new.getLsbD k else old.getLsbD k := by
  by_cases hk : k < 32
  · simp only [mixLines, BitVec.getLsbD_or, BitVec.getLsbD_and, BitVec.getLsbD_not, hk]
    cases m.getLsbD k <;> simp
  · simp [BitVec.getLsbD_of_ge _ _ (Nat.le_of_not_lt hk)]

/-- Settles O29: a settled sample is the address with its epoch (`sample_settled`), and takes no draw. -/
theorem sampleOfSettledLines : Obligations.SampleOfSettledLines := by
  intro s hrun hresumed hstable
  obtain ⟨hsingle, hdouble, hpaired⟩ := execRespSample_of_sample hrun hresumed (sample_settled hstable)
  refine ⟨hsingle, hdouble, fun hmode hphase hpair => ?_, fun hmode hphase hpair => ?_⟩
  · rw [hpaired hmode hphase, if_pos hpair.symm, acceptSample]
  · rw [hpaired hmode hphase, if_neg (Ne.symm hpair), firstSample]

/-- Settles O30: a moving sample is a mixture of the two addresses (`sample_moving`), used as a settled one is. -/
theorem sampleOfMovingLines : Obligations.SampleOfMovingLines := by
  intro s hrun hresumed hmoving
  exact ⟨mixLines s.bus.addr s.bus.prev (Config.drawMask s.draws), getLsbD_mixLines _ _ _,
    fun hnew hprev => isAddr_mixLines hnew hprev _, execRespSample_of_sample hrun hresumed (sample_moving hmoving)⟩

/-! ## RESP_SERVE, whole -/

/-- The offset the accepted address is served from (20_memory.md R61). -/
def State.servedOffset (s : State) : Nat := (masked s.resp.a s.addressMask).toNat

theorem respServe_next {s t : State} :
    exec .respServe s = .next t ↔
      s.faulted = none ∧ s.suspended = false ∧ s.resp.phase = .serve ∧ s.servedOffset < s.cfg.romCap ∧
        ((inFlight s s.servedOffset = true ∧ t = (forwardByte (Config.drawByte s.draws) s).tookDraw) ∨
          (inFlight s s.servedOffset = false ∧ t = forwardByte (s.romByte s.servedOffset) s)) := by
  refine live_next.trans (and_congr_right fun _ => ?_)
  change (if s.suspended = true ∨ s.resp.phase ≠ .serve then hold
    else if s.cfg.romCap ≤ s.servedOffset then .fault (.outsideBuffer s.servedOffset)
    else if inFlight s s.servedOffset then .next (forwardByte (Config.drawByte s.draws) s).tookDraw
    else .next (forwardByte (s.romByte s.servedOffset) s)) = .next t ↔ _
  split
  next hheld =>
    refine iff_of_false (hold_ne_next t) fun ⟨hresumed, hphase, _⟩ => ?_
    simp [hresumed, hphase] at hheld
  next hgo =>
    obtain ⟨hresumed, hphase⟩ : s.suspended = false ∧ s.resp.phase = .serve := by simpa using hgo
    split
    next hout => simp [Nat.not_lt.mpr hout]
    next hin =>
      cases inFlight s s.servedOffset <;>
        simp [hresumed, hphase, Nat.lt_of_not_le hin, eq_comm]

/-- Settles O31: the byte at hand by `execRespServe_of_quiet`, a free byte inside the range in flight by `respServe_next`. -/
theorem respServeForwardsTheByte : Obligations.RespServeForwardsTheByte := by
  intro s hrun hresumed hphase hin
  refine ⟨fun hquiet => execRespServe_of_quiet hrun hresumed hphase hin (inFlight_eq_false_iff.mpr hquiet),
    fun lo hi hflight hlo hhi => ?_⟩
  have hinflight : inFlight s s.servedOffset = true := by
    rw [← Bool.not_eq_false, inFlight_eq_false_iff]
    exact fun hquiet => hquiet lo hi hflight ⟨hlo, hhi⟩
  exact respServe_next.mpr ⟨hrun, hresumed, hphase, hin, .inl ⟨hinflight, rfl⟩⟩

/-! ## What the Responder reads -/

/-- A sample reads the lines and the count of draws only (41_read_path.md R155, R158). -/
theorem sample_congr {s u : State} (hbus : u.bus = s.bus) (hdraws : u.draws = s.draws) :
    sample u = ((sample s).1, (sample s).2.1, { u with draws := (sample s).2.2.draws }) := by
  cases hstable : s.bus.stable with
  | true =>
    rw [sample_settled hstable, sample_settled (hbus ▸ hstable), ← hbus, ← hdraws]
  | false =>
    rw [sample_moving hstable, sample_moving (hbus ▸ hstable), State.tookDraw_draws, ← hbus, ← hdraws]
    rfl

/-- A sample changes the count of draws only. -/
theorem sample_state_frame (s : State) : (sample s).2.2 = { s with draws := (sample s).2.2.draws } :=
  congrArg (fun x => x.2.2) (sample_congr (s := s) rfl rfl)

/-- Settles O32: each step's guard and writes (`respSample_next`, `respServe_next`) speak of what R158 lets the Responder read. -/
theorem responderIsIsolated : Obligations.ResponderIsIsolated := by
  intro i s u t hi ht hcfg hrun hsuspended hbus hmask hrom hinflight hresp hlatch htag hdraws
  obtain rfl | rfl := hi
  · have hsample := sample_congr hbus hdraws
    have hagree : u.SampleAgrees ↔ s.SampleAgrees := by simp only [State.SampleAgrees, hcfg, hresp, hsample]
    have hfirst : u.SampleIsFirst ↔ s.SampleIsFirst := by simp only [State.SampleIsFirst, hcfg, hresp, hsample]
    obtain ⟨-, hresumed, hcase⟩ := respSample_next.mp ht
    rw [sample_state_frame s] at hcase
    refine respSample_next.mpr ⟨hrun, hsuspended.trans hresumed, ?_⟩
    rw [hagree, hfirst, hsample]
    obtain ⟨hcond, rfl⟩ | ⟨hcond, rfl⟩ := hcase
    · exact .inl ⟨hcond, by simp only [acceptSample, hresp, ← hlatch, ← htag]⟩
    · exact .inr ⟨hcond, by simp only [firstSample, hresp, ← hlatch, ← htag]⟩
  · have hoffset : u.servedOffset = s.servedOffset := by rw [State.servedOffset, hresp, hmask, State.servedOffset]
    have hflight : inFlight u s.servedOffset = inFlight s s.servedOffset := by rw [inFlight, hinflight, inFlight]
    have hbyte : u.romByte s.servedOffset = s.romByte s.servedOffset := by rw [State.romByte, hrom, State.romByte]
    obtain ⟨-, hresumed, hphase, hin, hcase⟩ := respServe_next.mp ht
    refine respServe_next.mpr ⟨hrun, hsuspended.trans hresumed, hresp ▸ hphase, by rwa [hoffset, hcfg], ?_⟩
    rw [hoffset, hflight, hbyte, hdraws]
    obtain ⟨hcond, rfl⟩ | ⟨hcond, rfl⟩ := hcase
    · exact .inl ⟨hcond, by simp only [forwardByte, State.tookDraw, hresp, hdraws]⟩
    · exact .inr ⟨hcond, by simp only [forwardByte, hresp, ← hdraws]⟩

/-! ## Who moves the Responder -/

/-- All that the Responder writes, but for the draws it takes (41_read_path.md R158). -/
def State.serveView (s : State) : Responder × Byte × Option Nat := (s.resp, s.outLatch, s.outTag)

/-- If the answer is a next state, the Responder is as in `s`. -/
def KeepsResponder (s : State) (r : StepResult) : Prop := Answers (fun t => t.serveView = s.serveView) r

theorem CapturesFrom.keepsResponder {s : State} {r : StepResult} (h : CapturesFrom s r) : KeepsResponder s r := by
  obtain ⟨_, _, _, _, rfl⟩ := h
  exact .next rfl

theorem row_keepsResponder (cls : DetClass) (s : State) :
    KeepsResponder s (live s (if s.det.armed then captureClass cls s else .next s)) :=
  .live fun _ => .ite (fun _ => (captureClass_captures cls s).keepsResponder) fun _ => .next rfl

theorem execBusAddr_keepsResponder (a : Word) (s : State) : KeepsResponder s (execBusAddr a s) :=
  .live fun _ => .ite (fun _ => .next rfl) fun _ =>
    .ite (fun _ => .andThen (closeAccess_captures s).keepsResponder (fun _ hu _ => .next hu) fun _ hu _ => hu) fun _ => .next rfl

theorem execBusSettle_keepsResponder (s : State) : KeepsResponder s (execBusSettle s) :=
  .live fun _ => .ite (fun _ => .next rfl) fun _ => .ite (fun _ => .next rfl) fun _ => .next rfl

theorem execBusEnable_keepsResponder (ce oe : Bool) (s : State) : KeepsResponder s (execBusEnable ce oe s) :=
  .live fun _ => .ite (fun _ => .next rfl) fun _ =>
    .ite (fun _ => .andThen (closeAccess_captures (s.withEnables ce oe)).keepsResponder (fun _ hu _ => .next hu)
        fun _ hu _ => hu)
      fun _ => .next rfl

theorem execBusLatch_keepsResponder (s : State) : KeepsResponder s (execBusLatch s) := by
  refine .live fun _ => ?_
  cases latchKind s with
  | none => exact .next rfl
  | some kind => exact .next rfl

theorem WriteHandled.keepsResponder {s t : State} (h : WriteHandled s t) : t.serveView = s.serveView := by
  cases h with
  | accepts _ _ _ haccepted =>
    obtain ⟨_, _, hbump⟩ := haccepted
    obtain ⟨m, rfl⟩ := hbump.writes.frame
    rfl
  | defers _ h => exact h ▸ rfl

theorem ReadHandled.keepsResponder {s t : State} (h : ReadHandled s t) : t.serveView = s.serveView := by
  cases h with
  | nothing h => exact h ▸ rfl
  | empties _ _ _ hwrite =>
    obtain ⟨m, rfl⟩ := (writeField_writes _ _ _ _ t hwrite).frame
    rfl
  | offers _ _ hoffered =>
    obtain ⟨m, rfl⟩ := hoffered.writes.frame
    rfl

theorem SessionClosed.keepsResponder {s u : State} (h : SessionClosed s u) : u.serveView = s.serveView := by
  cases h with
  | idle _ h => exact h ▸ rfl
  | closes _ _ hw h =>
    obtain ⟨m, rfl⟩ := hw.frame
    exact h ▸ rfl

/-- Of the calls' steps only RESUME's moves the Responder, and only to S1 (43_control_plane.md R217). -/
theorem CallEffect.responder {s t : State} {c : Call} (h : CallEffect s c t) :
    t.serveView = s.serveView ∨
      (c = .resume ∧ t.serveView = ({ s.resp with phase := .s1 }, s.outLatch, s.outTag) ∧ t.suspended = false) := by
  cases h with
  | resumes => exact .inr ⟨rfl, rfl, rfl⟩
  | opens _ _ hclosed => exact .inl hclosed.keepsResponder
  | begins hopened =>
    obtain ⟨m, rfl⟩ := hopened.writes.frame
    exact .inl rfl
  | ends hclosed => exact .inl hclosed.keepsResponder
  | publishes _ _ _ hpublished =>
    obtain ⟨_, _, hw⟩ := hpublished.writes
    obtain ⟨m, rfl⟩ := hw.frame
    exact .inl rfl
  | replays _ _ haccepted =>
    obtain ⟨_, _, hbump⟩ := haccepted
    obtain ⟨m, rfl⟩ := hbump.writes.frame
    exact .inl rfl
  | writes hwrites =>
    obtain ⟨m, rfl⟩ := hwrites.frame
    exact .inl rfl
  | _ => exact .inl rfl

theorem issue_keepsResponder (c : Call) (s : State) : KeepsResponder s (live s (issue c s)) := by
  intro t ht
  obtain ⟨_, rfl | ⟨_, _, rfl⟩⟩ := issue_answers c s t ht
  · rfl
  · rfl

/-- While suspended every instruction but CP_STEP leaves the Responder as it was; its own two hold (41_read_path.md R150). -/
theorem exec_keepsResponder_of_suspended {i : Instr} {s t : State} (ht : exec i s = .next t) (hsuspended : s.suspended = true)
    (hi : i ≠ .cpStep) : t.serveView = s.serveView := by
  cases i with
  | busAddr a => exact execBusAddr_keepsResponder a s t ht
  | busSettle => exact execBusSettle_keepsResponder s t ht
  | busEnable ce oe => exact execBusEnable_keepsResponder ce oe s t ht
  | busLatch => exact execBusLatch_keepsResponder s t ht
  | oeseqStep =>
    obtain ⟨-, -, rfl⟩ := oeseqStep_next.mp ht
    rfl
  | drvShift =>
    obtain ⟨-, -, rfl⟩ := drvShift_next.mp ht
    rfl
  | repStep =>
    obtain ⟨_, rfl | rfl⟩ := execRepStep_answers s t ht
    · rfl
    · rfl
  | respSample =>
    obtain ⟨-, hresumed, -⟩ := respSample_next.mp ht
    exact absurd (hsuspended.symm.trans hresumed) (by decide)
  | respServe =>
    obtain ⟨-, hresumed, -⟩ := respServe_next.mp ht
    exact absurd (hsuspended.symm.trans hresumed) (by decide)
  | irqW =>
    obtain ⟨_, _, h⟩ := execIrqW_handles s t ht
    exact h.keepsResponder
  | irqR =>
    obtain ⟨_, h⟩ := execIrqR_handles s t ht
    exact h.keepsResponder
  | cpStep => exact absurd rfl hi
  | tick =>
    obtain rfl := next_eq.mp (live_next.mp ht).2
    rfl
  | mboxOut b => exact row_keepsResponder (.out b) s t ht
  | mboxConsume => exact row_keepsResponder .consume s t ht
  | plainRead => exact row_keepsResponder .plain s t ht
  | _ => exact issue_keepsResponder _ s t ht

/-- The Responder as it was, or restarted at S1 by RESUME's step (43_control_plane.md R217). -/
theorem exec_responder_of_suspended {i : Instr} {s t : State} (ht : exec i s = .next t) (hsuspended : s.suspended = true) :
    t.serveView = s.serveView ∨
      (i = .cpStep ∧ s.call = some .resume ∧ t.serveView = ({ s.resp with phase := .s1 }, s.outLatch, s.outTag) ∧
        t.suspended = false) := by
  by_cases hi : i = .cpStep
  · subst hi
    obtain ⟨_, c, hcall, heffect⟩ := execCpStep_effect s t ht
    refine heffect.responder.imp_right fun ⟨hresume, hrest⟩ => ⟨rfl, ?_, hrest⟩
    rw [hcall, hresume]
  · exact .inl (exec_keepsResponder_of_suspended ht hsuspended hi)

/-- Settles O57: the two outcomes of `exec_responder_of_suspended`, field by field. -/
theorem suspensionStopsTheResponder : Obligations.SuspensionStopsTheResponder := by
  intro i s t ht hsuspended
  obtain hkept | ⟨hi, hcall, hrestarted, hresumed⟩ := exec_responder_of_suspended ht hsuspended
  · obtain ⟨hresp, hout⟩ := Prod.mk.inj hkept
    obtain ⟨hlatch, htag⟩ := Prod.mk.inj hout
    exact ⟨hlatch, htag, fun hne => absurd hresp hne⟩
  · obtain ⟨hresp, hout⟩ := Prod.mk.inj hrestarted
    obtain ⟨hlatch, htag⟩ := Prod.mk.inj hout
    exact ⟨hlatch, htag, fun _ => ⟨hi, hcall, hresp, hresumed⟩⟩

end Sys2Proof.Machine
end

section
/-! SUPPORT. The detectors (42_mailbox.md R170 to R176): how a masked address is classified, what a push, a capture and a window row answer
as equations, and what a malformed access leaves. -/

namespace Sys2Proof.Machine

/-! ## Classification -/

/-- Two addresses select the same window exactly where they lie in the same 512 bytes (30_encoding.md R91). -/
theorem wsel_eq_iff (a base : Word) : wsel a = wsel base ↔ a.toNat / 512 = base.toNat / 512 := by
  have ha := a.isLt
  have hbase := base.isLt
  rw [← BitVec.toNat_inj, wsel, wsel, BitVec.extractLsb'_toNat, BitVec.extractLsb'_toNat, Nat.shiftRight_eq_div_pow,
    Nat.shiftRight_eq_div_pow]
  omega

/-- The outbound half of the window is its upper 256 bytes (30_encoding.md R91). -/
theorem area_iff (a : Word) : area a = true ↔ 256 ≤ a.toNat % 512 := by
  rw [area, BitVec.getLsbD, Nat.testBit_eq_decide_div_mod_eq, decide_eq_true_eq]
  omega

theorem obyte_toNat (a : Word) : (obyte a).toNat = a.toNat % 256 := by
  rw [obyte, BitVec.extractLsb'_toNat, Nat.shiftRight_zero]

theorem woff_eq_consume_iff (a : Word) : woff a = 12#9 ↔ a.toNat % 512 = 12 := by
  rw [← BitVec.toNat_inj, woff, BitVec.extractLsb'_toNat, Nat.shiftRight_zero]
  exact Iff.rfl

section
variable {base a : Word}

theorem classify_of_outside (hwindow : a.toNat / 512 ≠ base.toNat / 512) : classify base a = .plain :=
  if_pos ((wsel_eq_iff a base).not.mpr hwindow)

theorem classify_of_upper (hwindow : a.toNat / 512 = base.toNat / 512) (hupper : 256 ≤ a.toNat % 512) :
    classify base a = .out (obyte a) :=
  (if_neg (not_not.mpr ((wsel_eq_iff a base).mpr hwindow))).trans (if_pos ((area_iff a).mpr hupper))

theorem classify_of_lower (hwindow : a.toNat / 512 = base.toNat / 512) (hlower : a.toNat % 512 < 256) :
    classify base a = if a.toNat % 512 = 12 then .consume else .plain := by
  have harea : ¬ area a = true := (area_iff a).not.mpr (Nat.not_le.mpr hlower)
  rw [classify, if_neg (not_not.mpr ((wsel_eq_iff a base).mpr hwindow)), if_neg harea]
  simp only [woff_eq_consume_iff]

end

/-- Settles O6: an address outside the window, in its outbound half, at offset 12 or elsewhere in its lower half is classified by
`classify_of_outside`, `classify_of_upper` and `classify_of_lower`. -/
theorem classifyByWindowOffset : Obligations.ClassifyByWindowOffset := by
  intro base a
  by_cases hwindow : a.toNat / 512 = base.toNat / 512
  · by_cases hupper : 256 ≤ a.toNat % 512
    · have hbyte (b : Byte) : obyte a = b ↔ a.toNat % 512 = 256 + b.toNat := by
        rw [← BitVec.toNat_inj, obyte_toNat]
        have := b.isLt
        omega
      rw [classify_of_upper hwindow hupper]
      refine ⟨fun b => ?_, ?_, ?_⟩
      · simp only [DetClass.out.injEq, hbyte, hwindow, true_and]
      · simp only [reduceCtorEq, false_iff]
        omega
      · simp only [reduceCtorEq, false_iff]
        omega
    · rw [classify_of_lower hwindow (Nat.not_le.mp hupper)]
      refine ⟨fun b => ?_, ?_, ?_⟩ <;> split <;> simp only [reduceCtorEq, true_iff, false_iff] <;> omega
  · rw [classify_of_outside hwindow]
    simp [hwindow]

/-! ## Pushes and captures, as equations -/

/-- What `PushW` leaves (42_mailbox.md R175): the byte recorded where the FIFO has room, and where it is full a fault with the
interrupt enabled and the byte dropped with it disabled. -/
def State.pushedW (s : State) (b : Byte) : State :=
  if s.det.wfifo.length < s.cfg.detFifoDepth then { s with det := { s.det with wfifo := s.det.wfifo ++ [b] } }
  else if s.det.wirqEn then s.raised .detectorOverflow else s

/-- What `PushR` leaves (42_mailbox.md R175). -/
def State.pushedR (s : State) : State :=
  if s.det.rcount < s.cfg.detFifoDepth then { s with det := { s.det with rcount := s.det.rcount + 1 } }
  else if s.det.rirqEn then s.raised .detectorOverflow else s

theorem pushW_eq (b : Byte) (s : State) : pushW b s = .next (s.pushedW b) := by
  simp only [pushW, State.pushedW, raise_eq, apply_ite Host.Outcome.next]

theorem pushR_eq (s : State) : pushR s = .next s.pushedR := by
  simp only [pushR, State.pushedR, raise_eq, apply_ite Host.Outcome.next]

/-- An event while suspended has been reported, and the draw that says whether it is lost is taken (42_mailbox.md R176). -/
def State.reported (s : State) : State := (s.emit (.timingViolation .mailboxWhileSuspended)).tookDraw

theorem recordEvent_suspended {push : State → StepResult} {s : State} (h : s.suspended = true) :
    recordEvent push s = if Config.drawBool s.draws then .next s.reported else push s.reported := if_pos h

theorem captureClass_out_of_running {b : Byte} {s : State} (hresumed : s.suspended = false) :
    captureClass (.out b) s = .next (s.pushedW b) := (recordEvent_running hresumed).trans (pushW_eq b s)

theorem captureClass_consume_of_running {s : State} (hresumed : s.suspended = false) :
    captureClass .consume s = .next s.pushedR := (recordEvent_running hresumed).trans (pushR_eq s)

section
variable {s : State} (hrun : s.faulted = none) (harmed : s.det.armed = true)
include hrun harmed

theorem exec_mboxOut_of_running (b : Byte) (hresumed : s.suspended = false) : exec (.mboxOut b) s = .next (s.pushedW b) :=
  (exec_row (.out b) hrun harmed).trans (captureClass_out_of_running hresumed)

theorem exec_mboxConsume_of_running (hresumed : s.suspended = false) : exec .mboxConsume s = .next s.pushedR :=
  (exec_row .consume hrun harmed).trans (captureClass_consume_of_running hresumed)

theorem exec_mboxOut_of_suspended (b : Byte) (hsuspended : s.suspended = true) :
    exec (.mboxOut b) s = .next (if Config.drawBool s.draws then s.reported else s.reported.pushedW b) := by
  refine (exec_row (.out b) hrun harmed).trans ((recordEvent_suspended hsuspended).trans ?_)
  rw [pushW_eq, apply_ite Host.Outcome.next]

theorem exec_mboxConsume_of_suspended (hsuspended : s.suspended = true) :
    exec .mboxConsume s = .next (if Config.drawBool s.draws then s.reported else s.reported.pushedR) := by
  refine (exec_row .consume hrun harmed).trans ((recordEvent_suspended hsuspended).trans ?_)
  rw [pushR_eq, apply_ite Host.Outcome.next]

end

/-! ## The window rows -/

/-- Settles O20: with room the pushes record their event, and unarmed detectors capture nothing. -/
theorem windowRowsRecordEvents : Obligations.WindowRowsRecordEvents := by
  intro b s hrun
  refine ⟨fun harmed hresumed hroom => ?_, fun harmed hresumed hroom => ?_, ?_, fun hunarmed => ⟨?_, ?_⟩⟩
  · rw [exec_mboxOut_of_running hrun harmed b hresumed, State.pushedW, if_pos hroom]
  · rw [exec_mboxConsume_of_running hrun harmed hresumed, State.pushedR, if_pos hroom]
  · exact (live_running hrun _).trans (ite_self _)
  · exact (live_running hrun _).trans (if_neg (by simp [hunarmed]))
  · exact (live_running hrun _).trans (if_neg (by simp [hunarmed]))

/-- Settles O21: a push into a full FIFO raises or drops. -/
theorem fullDetectorFifo : Obligations.FullDetectorFifo := by
  intro b s hrun harmed hresumed overflow
  refine ⟨fun hfull => ?_, fun hfull => ?_⟩
  · rw [exec_mboxOut_of_running hrun harmed b hresumed, State.pushedW, if_neg (Nat.not_lt.mpr hfull)]
    rfl
  · rw [exec_mboxConsume_of_running hrun harmed hresumed, State.pushedR, if_neg (Nat.not_lt.mpr hfull)]
    rfl

/-- Settles O22: the event is reported, and the draw decides between that state and the push into it. -/
theorem captureWhileSuspended : Obligations.CaptureWhileSuspended := by
  intro b s hrun harmed hsuspended s1 full
  exact ⟨exec_mboxOut_of_suspended hrun harmed b hsuspended, exec_mboxConsume_of_suspended hrun harmed hsuspended⟩

/-! ## A malformed access -/

section
variable {s : State}

theorem malformed_of_plain (h : Config.drawClass s.draws = .plain) :
    malformed s = (.plain, (s.emit (.timingViolation .unsettledAccess)).tookDraw) := by simp only [malformed, h]

theorem malformed_of_out (h : Config.drawClass s.draws = .out) :
    malformed s =
      (.out (Config.drawByte (s.draws + 1)), (s.emit (.timingViolation .unsettledAccess)).tookDraw.tookDraw) := by
  simp only [malformed, h]

theorem malformed_of_consume (h : Config.drawClass s.draws = .consume) :
    malformed s = (.consume, (s.emit (.timingViolation .unsettledAccess)).tookDraw) := by simp only [malformed, h]

end

/-- What the close of an access that never settled records, with room in the FIFOs, by the class drawn: nothing, an outbound byte of free
value, or a consume (42_mailbox.md R174). -/
def State.drawnAs (s : State) : Config.ClassPick → State
  | .plain => { s.emit (.timingViolation .unsettledAccess) with draws := s.draws + 1 }
  | .out =>
    { s.emit (.timingViolation .unsettledAccess) with
      draws := s.draws + 2
      det := { s.det with wfifo := s.det.wfifo ++ [Config.drawByte (s.draws + 1)] } }
  | .consume =>
    { s.emit (.timingViolation .unsettledAccess) with
      draws := s.draws + 1
      det := { s.det with rcount := s.det.rcount + 1 } }

theorem drawnAs_faulted (s : State) (pick : Config.ClassPick) : (s.drawnAs pick).faulted = s.faulted := by
  cases pick <;> rfl

theorem drawnAs_acc (s : State) (pick : Config.ClassPick) : (s.drawnAs pick).acc = s.acc := by
  cases pick <;> rfl

section
variable {s : State} (hrun : s.faulted = none) (harmed : s.det.armed = true) (hunseen : s.acc.seen = none)
  (hresumed : s.suspended = false) (hroomW : s.det.wfifo.length < s.cfg.detFifoDepth)
  (hroomR : s.det.rcount < s.cfg.detFifoDepth)

include harmed hunseen hresumed hroomW hroomR in
theorem closeAccess_drawn : closeAccess s = .next (s.drawnAs (Config.drawClass s.draws)) := by
  rw [closeAccess, hunseen, detCapture_malformed harmed]
  cases hclass : Config.drawClass s.draws with
  | plain =>
    rw [malformed_of_plain hclass]
    rfl
  | out =>
    rw [malformed_of_out hclass]
    refine (captureClass_out_of_running ?_).trans (congrArg Host.Outcome.next (if_pos ?_))
    exacts [hresumed, hroomW]
  | consume =>
    rw [malformed_of_consume hclass]
    refine (captureClass_consume_of_running ?_).trans (congrArg Host.Outcome.next (if_pos ?_))
    exacts [hresumed, hroomR]

include hrun harmed hunseen hresumed hroomW hroomR

theorem execBusEnable_drawn {ce oe : Bool} (hon : s.en = true) (hoff : (ce && oe) = false) :
    exec (.busEnable ce oe) s =
      .next { (s.withEnables ce oe).drawnAs (Config.drawClass s.draws) with acc := { isOpen := false, seen := none } } := by
  obtain ⟨t, hclose, henable⟩ := execBusEnable_of_fall hrun hon hoff
  obtain rfl := next_eq.mp
    ((closeAccess_drawn (s := s.withEnables ce oe) harmed hunseen hresumed hroomW hroomR).symm.trans hclose)
  have hgoes : ((s.withEnables ce oe).drawnAs (Config.drawClass s.draws)).faulted = none := (drawnAs_faulted _ _).trans hrun
  exact henable.trans (congrArg Host.Outcome.next (if_pos hgoes))

theorem execBusAddr_drawn {a : Word} (hne : a ≠ s.bus.addr) (hopen : s.acc.isOpen = true) :
    exec (.busAddr a) s = .next { s.drawnAs (Config.drawClass s.draws) with bus := s.bus.moved a } := by
  obtain ⟨t, hclose, haddr⟩ := execBusAddr_of_open hrun hne hopen
  obtain rfl := next_eq.mp ((closeAccess_drawn harmed hunseen hresumed hroomW hroomR).symm.trans hclose)
  have hacc : { s.acc with seen := none } = (s.drawnAs (Config.drawClass s.draws)).acc := by
    rw [drawnAs_acc, ← hunseen]
  rw [haddr, if_pos ((drawnAs_faulted _ _).trans hrun), hacc]

end

/-- Settles O23: what each class drawn leaves (`malformed_of_plain`, `malformed_of_out`, `malformed_of_consume`), and how the two
operations that close an access end with it recorded (`execBusEnable_drawn`, `execBusAddr_drawn`). -/
theorem malformedAccessIsDrawn : Obligations.MalformedAccessIsDrawn := by
  intro s
  refine ⟨⟨fun hclass => ?_, fun hclass => ?_, fun hclass => ?_⟩, ?_⟩
  · rw [drawnRow, unsettled, malformed_of_plain hclass]
    exact ⟨rfl, rfl⟩
  · rw [drawnRow, unsettled, malformed_of_out hclass]
    exact ⟨rfl, rfl⟩
  · rw [drawnRow, unsettled, malformed_of_consume hclass]
    exact ⟨rfl, rfl⟩
  intro hrun harmed hunseen hresumed hroomW hroomR recorded
  refine ⟨fun ce oe hon hoff => ?_, fun a hne hopen => ?_⟩
  · rw [execBusEnable_drawn hrun harmed hunseen hresumed hroomW hroomR hon hoff]
    simp only [recorded]
    cases Config.drawClass s.draws <;> rfl
  · rw [execBusAddr_drawn hrun harmed hunseen hresumed hroomW hroomR hne hopen]
    simp only [recorded]
    cases Config.drawClass s.draws <;> rfl

end Sys2Proof.Machine
end

section
/-! SUPPORT. The interrupt handlers (42_mailbox.md R180, R181): the branch each takes where its interrupt is pending, and what the writes of
that branch leave. -/

namespace Sys2Proof.Machine

/-! ## Writes that lie inside the ROM Buffer -/

/-- Raising a sequence field inside the buffer answers a next state (20_memory.md R82). -/
theorem bumpField_of_le {base : Word} {off : Nat} {s : State} (h : base.toNat + off + 4 ≤ s.cfg.romCap) :
    ∃ t, bumpField base off s = .next t ∧ Bumped base off s t :=
  have hbump : bumpField base off s = .next _ := writeField_of_le h
  ⟨_, hbump, bumpField_bumps base off s _ hbump⟩

/-- Offering a byte in a window inside the buffer answers a next state (20_memory.md R75(b)). -/
theorem offerInbound_of_le {base : Word} {b : Byte} {s : State} (hrun : s.faulted = none)
    (h : base.toNat + 20 ≤ s.cfg.romCap) : ∃ t, offerInbound base b s = .next t ∧ Offered base b s t := by
  have hbyte : writeField base fieldInByte (b.zeroExtend 32) s = .next _ :=
    writeField_of_le (by simp only [fieldInByte]; omega)
  obtain ⟨t, hbump, -⟩ := bumpField_of_le (base := base) (off := fieldInSeq)
    (s := { s with rom := Memory.writeBytes s.rom (base.toNat + fieldInByte) (leBytes 4 (b.zeroExtend 32).toNat) })
    (by simp only [fieldInSeq]; omega)
  have hoffer : offerInbound base b s = .next t := (offerInbound_next hrun).mpr ⟨_, hbyte, hbump⟩
  exact ⟨t, hoffer, offerInbound_offers base b hrun t hoffer⟩

/-! ## IRQ_W -/

section
variable {s : State} {b : Byte} {rest : List Byte} (hrun : s.faulted = none) (hen : s.det.wirqEn = true)
  (hfifo : s.det.wfifo = b :: rest) (hresumed : s.suspended = false)
include hrun hen hfifo hresumed

/-- Where its interrupt is pending, IRQ_W takes the oldest recorded byte and accepts or defers it. -/
theorem execIrqW_of_pending :
    exec .irqW s =
      if s.deferred = [] ∧ s.outq.count < s.cfg.outqCap then acceptOutbound b { s with det := { s.det with wfifo := rest } }
      else .next { s with det := { s.det with wfifo := rest }, deferred := s.deferred ++ [b] } := by
  simp only [exec, execIrqW, live_running hrun, hfifo]
  exact if_neg (by simp [hen, hresumed])

theorem execIrqW_of_room (hnone : s.deferred = []) (hroom : s.outq.count < s.cfg.outqCap) :
    exec .irqW s = acceptOutbound b { s with det := { s.det with wfifo := rest } } :=
  (execIrqW_of_pending hrun hen hfifo hresumed).trans (if_pos ⟨hnone, hroom⟩)

end

/-- Settles O34: the byte is accepted (`execIrqW_of_room`), and the sequence's bump (`bumpField_of_le`) is the one write. -/
theorem irqWAcceptsTheByte : Obligations.IrqWAcceptsTheByte := by
  intro s base b rest hrun hwf hen hfifo hresumed hnone hroom hbase hin
  obtain ⟨t, ht, hbump⟩ := bumpField_of_le (base := base) (off := fieldOutSeq)
    (s := { s with det := { s.det with wfifo := rest }, outq := s.outq.push s.cfg.outqCap b })
    (by simp only [fieldOutSeq]; omega)
  refine ⟨t, ?_, ?_, hbump.value hwf, fun o ho => hbump.writes.bytes hwf o ho⟩
  · exact (execIrqW_of_room hrun hen hfifo hresumed hnone hroom).trans ((withBase_of hbase _).trans ht)
  · obtain ⟨m, rfl⟩ := hbump.writes.frame
    rfl

/-- Settles O35: the deferring branch of `execIrqW_of_pending`. -/
theorem irqWDefersTheByte : Obligations.IrqWDefersTheByte := by
  intro s b rest hrun hen hfifo hresumed hdefer
  refine (execIrqW_of_pending hrun hen hfifo hresumed).trans (if_neg fun ⟨hnone, hroom⟩ => ?_)
  rcases hdefer with hsome | hfull
  · exact hsome hnone
  · exact absurd hroom (Nat.not_lt.mpr hfull)

/-! ## IRQ_R -/

/-- Where its interrupt is pending, IRQ_R takes one consume event; with bytes queued the front one leaves, and `pending` falls or the
next byte is offered. -/
theorem execIrqR_of_pending {s : State} {base : Word} (hrun : s.faulted = none) (hen : s.det.rirqEn = true)
    (hevent : 0 < s.det.rcount) (hresumed : s.suspended = false) (hbase : s.sess.base = some base) :
    exec .irqR s =
      if s.inq.count = 0 then .next s.consumed
      else if s.inq.pop.count = 0 then writeField base fieldPending 0 s.popped
      else offerInbound base (s.inq.pop.front s.cfg.inqCap) s.popped := by
  refine (live_running hrun _).trans ((if_neg (by simp [intR, hen, hevent, hresumed])).trans ?_)
  exact congrArg (ite (s.inq.count = 0) (.next s.consumed)) (withBase_of (s := s.consumed) hbase _)

/-- Settles O36: the three branches of `execIrqR_of_pending`, each with its one write. -/
theorem irqRRetiresTheByte : Obligations.IrqRRetiresTheByte := by
  intro s base hrun hwf hen hevent hresumed hbase hin
  have hexec := execIrqR_of_pending hrun hen hevent hresumed hbase
  have hcount : s.inq.count = s.inq.head - s.inq.tail := rfl
  have hpop := s.inq.count_pop
  refine ⟨fun hempty => ?_, fun hlast => ?_, fun hmore => ?_⟩
  · exact hexec.trans (if_pos (by omega))
  · have hwrite : writeField base fieldPending 0 s.popped = .next _ :=
      writeField_of_le (show base.toNat + 8 + 4 ≤ s.cfg.romCap by omega)
    have hwrites := writeField_writes base fieldPending 0 s.popped _ hwrite
    rw [if_neg (by omega), if_pos (by omega)] at hexec
    exact ⟨_, hexec.trans hwrite, rfl, field_writeField_same (s := s.popped) hwf hwrite, fun o ho => hwrites.bytes hwf o ho⟩
  · obtain ⟨t, hoffer, hoffered⟩ := offerInbound_of_le (base := base) (b := s.inq.pop.front s.cfg.inqCap) (s := s.popped)
      hrun (show base.toNat + 20 ≤ s.cfg.romCap by omega)
    rw [if_neg (by omega), if_neg (by omega)] at hexec
    refine ⟨t, hexec.trans hoffer, ?_, hoffered.byte hwf, hoffered.seq hwf, fun o ho => hoffered.writes.bytes hwf o ho⟩
    obtain ⟨m, rfl⟩ := hoffered.writes.frame
    rfl

end Sys2Proof.Machine
end

section
/-! SUPPORT. The outbound byte stream (42_mailbox.md R183; 43_control_plane.md R227(b)). Each operation on the Outbound Queue moves a
byte one place along the stream, and a capture is the one way a byte joins its end. -/

namespace Sys2Proof.Machine

/-! ## The Outbound Queue's bytes -/

/-- A byte pushed into a queue with room comes after those it holds (10_state.md R32). -/
theorem Queue.contents_push {q : Queue} {cap : Nat} (hq : QueueOk q cap) (hroom : q.count < cap) (b : Byte) :
    (q.push cap b).contents cap = q.contents cap ++ [b] := by
  obtain ⟨hlen, hle, -⟩ := hq
  have hsplit : q.tail + q.count = q.head := Nat.add_sub_cancel' hle
  have hkeep (j : Nat) (hj : j < q.count) :
      (q.ring.set (q.head % cap) b).getD ((q.tail + j) % cap) 0 = q.ring.getD ((q.tail + j) % cap) 0 := by
    have hne : q.head % cap ≠ (q.tail + j) % cap := slot_ne (by omega) (by omega)
    rw [List.getD_eq_getElem?_getD, List.getElem?_set_ne hne, List.getD_eq_getElem?_getD]
  have hlast : (q.ring.set (q.head % cap) b).getD ((q.tail + q.count) % cap) 0 = b := by
    have hslot : q.head % cap < q.ring.length := hlen ▸ Nat.mod_lt _ (by omega)
    rw [hsplit, List.getD_eq_getElem?_getD, List.getElem?_set_self hslot]
    rfl
  rw [Queue.contents, Queue.count_push b hle, List.range_succ, List.map_append]
  refine congrArg₂ (· ++ ·) (List.map_congr_left fun j hj => hkeep j (List.mem_range.mp hj)) ?_
  exact congrArg (fun x => [x]) hlast

/-- A queue that holds bytes is its front and what a pop leaves (10_state.md R32). -/
theorem Queue.contents_of_pos {q : Queue} {cap : Nat} (hsome : 0 < q.count) :
    q.contents cap = q.front cap :: q.pop.contents cap := by
  obtain ⟨n, hn⟩ := Nat.exists_eq_add_of_lt hsome
  have hpop : q.pop.count = n := by
    rw [Queue.count_pop]
    omega
  rw [Queue.contents, Queue.contents, hpop, hn, Nat.zero_add, List.range_succ_eq_map, List.map_cons, List.map_map]
  refine congrArg₂ List.cons rfl (List.map_congr_left fun j _ => ?_)
  simp only [Function.comp_apply, Queue.pop, Nat.succ_eq_add_one, Nat.add_assoc, Nat.add_comm 1 j]

/-! ## The stream around a call's chunk -/

/-- The outbound stream of a state, with `chunk` for the drained bytes that are not forwarded yet (42_mailbox.md R183). -/
def State.streamWith (s : State) (chunk : List Byte) : List Byte :=
  s.history.flatMap Event.chunk ++ chunk ++ s.outq.contents s.cfg.outqCap ++ s.deferred ++ s.det.wfifo

theorem outboundStream_eq (s : State) : outboundStream s = s.streamWith (pendingChunk s) := rfl

theorem pendingChunk_of_none {s : State} (h : s.call = none) : pendingChunk s = [] := by simp only [pendingChunk, h]

theorem pendingChunk_of_update {s : State} {u : UpdateCall} (h : s.call = some (.update u)) : pendingChunk s = u.chunk := by
  simp only [pendingChunk, h]

theorem pendingChunk_of_other {s : State} {c : Call} (h : s.call = some c) (hother : ∀ u, c ≠ .update u) :
    pendingChunk s = [] := by
  cases c with
  | update u => exact absurd rfl (hother u)
  | _ => simp only [pendingChunk, h]

/-- An event that is no outbound chunk forwards nothing (00_scope.md R12). -/
theorem streamWith_emit {s : State} {e : Event} (h : e.chunk = []) (chunk : List Byte) :
    (s.emit e).streamWith chunk = s.streamWith chunk := by
  simp only [State.streamWith, State.emit_history, List.flatMap_append, List.flatMap_singleton, h, List.append_nil,
    State.emit_outq, State.emit_cfg, State.emit_deferred, State.emit_det]

theorem outboundStream_emit {s : State} {e : Event} (h : e.chunk = []) : outboundStream (s.emit e) = outboundStream s :=
  streamWith_emit h _

theorem outboundStream_raised (s : State) (code : FaultCode) : outboundStream (s.raised code) = outboundStream s :=
  outboundStream_emit rfl

/-- A call that returns leaves no chunk behind. -/
theorem outboundStream_returned (s : State) (name : CallName) (v : ResultValue) :
    outboundStream (s.returned name v) = s.streamWith [] := streamWith_emit (e := .result name v) rfl []

/-- `FlushChunk` forwards the chunk (43_control_plane.md R214). -/
theorem streamWith_flushChunk (u : UpdateCall) (s : State) :
    (flushChunk u s).2.streamWith (flushChunk u s).1.chunk = s.streamWith u.chunk := by
  unfold flushChunk
  split
  · rfl
  · simp [State.streamWith, Event.chunk]

/-- `Drain1` moves the front of the Outbound Queue to the end of the chunk (43_control_plane.md R209). -/
theorem streamWith_drain1 (u : UpdateCall) {s : State} (hsome : 0 < s.outq.count) :
    (drain1 u s).2.streamWith (drain1 u s).1.chunk = s.streamWith u.chunk := by
  have hmoved : State.streamWith { s with outq := s.outq.pop } (u.chunk ++ [s.outq.front s.cfg.outqCap]) =
      s.streamWith u.chunk := by
    simp only [State.streamWith, Queue.contents_of_pos hsome, List.append_assoc, List.cons_append, List.nil_append]
  unfold drain1
  dsimp only
  split
  · exact (streamWith_flushChunk _ _).trans hmoved
  · exact hmoved

/-- An accepted byte comes after those the Outbound Queue holds (42_mailbox.md R180). -/
theorem Accepted.stream {b : Byte} {s t : State} (h : Accepted b s t) (hq : QueueOk s.outq s.cfg.outqCap)
    (hroom : s.outq.count < s.cfg.outqCap) :
    outboundStream t = s.history.flatMap Event.chunk ++ pendingChunk s ++ (s.outq.contents s.cfg.outqCap ++ [b]) ++
      s.deferred ++ s.det.wfifo := by
  obtain ⟨_, _, hbump⟩ := h
  obtain ⟨m, rfl⟩ := hbump.writes.frame
  rw [← Queue.contents_push hq hroom]
  rfl

/-! ## The handlers -/

/-- The outbound stream is the same. -/
def KeepsStream (s t : State) : Prop := outboundStream t = outboundStream s

/-- IRQ_W moves the oldest detected byte behind the accepted ones, or behind the deferred ones. -/
theorem WriteHandled.keepsStream {s t : State} (h : WriteHandled s t) (hq : QueueOk s.outq s.cfg.outqCap) :
    KeepsStream s t := by
  cases h with
  | accepts hfifo hdeferred hroom h =>
    refine (h.stream hq hroom).trans ?_
    simp only [outboundStream, pendingChunk, hfifo, hdeferred, List.append_nil, List.append_assoc, List.cons_append,
      List.nil_append]
  | defers hfifo h =>
    subst h
    simp only [KeepsStream, outboundStream, pendingChunk, hfifo, List.append_assoc, List.cons_append, List.nil_append]

theorem ReadHandled.keepsStream {s t : State} (h : ReadHandled s t) : KeepsStream s t := by
  cases h with
  | nothing h => exact h ▸ rfl
  | empties _ _ _ h =>
    obtain ⟨m, rfl⟩ := (writeField_writes _ _ _ _ t h).frame
    rfl
  | offers _ _ h =>
    obtain ⟨m, rfl⟩ := h.writes.frame
    rfl

/-! ## UPDATE -/

section
variable {s : State} {u : UpdateCall} (hcall : s.call = some (.update u)) (hs : ControlOk s)

include hcall in
/-- Against the stream of a state in which the call is in progress. -/
theorem keepsStream_iff {t : State} : KeepsStream s t ↔ outboundStream t = s.streamWith u.chunk := by
  rw [KeepsStream, outboundStream_eq s, pendingChunk_of_update hcall]

include hcall in
theorem finishUpdate_keepsStream (v : ResultValue) : Answers (KeepsStream s) (finishUpdate u v s) := by
  refine .next ((keepsStream_iff hcall).mpr ((outboundStream_returned _ _ _).trans ?_))
  rw [← flushChunk_chunk u s]
  exact streamWith_flushChunk u s

include hcall in
theorem drain_keepsStream (hsome : 0 < s.outq.count) (left : Nat) :
    KeepsStream s { (drain1 u s).2 with call := some (.update { (drain1 u s).1 with left := left }) } :=
  (keepsStream_iff hcall).mpr (streamWith_drain1 u hsome)

include hs in
theorem replay1_keepsStream (hempty : s.outq.count = 0) : Answers (KeepsStream s) (replay1 s) := by
  unfold replay1
  cases hdeferred : s.deferred with
  | nil => exact .hold
  | cons b rest =>
    obtain ⟨_, _, hcap, _⟩ := configProblem_none hs.channel.config
    refine (acceptOutbound_accepts b _).mono fun t ht => (ht.stream hs.channel.outqOk (hempty ▸ hcap)).trans ?_
    simp only [outboundStream, pendingChunk, hdeferred, List.append_assoc, List.cons_append, List.nil_append]

include hcall hs

theorem cpUpdateU0_keepsStream (hphase : u.phase = .u0) : Answers (KeepsStream s) (cpUpdateU0 u s) := by
  obtain ⟨_, _, _, _, _, hchunk, _⟩ := (callOk_update hcall).mp hs.callRecord
  refine .ite (fun _ => .next ((keepsStream_iff hcall).mpr rfl)) fun _ => .next ((keepsStream_iff hcall).mpr ?_)
  rw [hchunk hphase]
  exact outboundStream_returned s _ _

theorem cpUpdateU1_keepsStream (hrun : s.faulted = none) : Answers (KeepsStream s) (cpUpdateU1 u s) := by
  unfold cpUpdateU1
  cases u.data[u.i]? with
  | none => exact .next ((keepsStream_iff hcall).mpr rfl)
  | some b =>
    refine .ite (fun _ => ?_) fun _ => .ite (fun _ => finishUpdate_keepsStream hcall _) fun _ =>
      .ite (fun hsome => .next (drain_keepsStream hcall hsome _)) fun hempty =>
        replay1_keepsStream hs (Nat.eq_zero_of_not_pos hempty)
    refine .andThen_running (publish_publishes b hrun) (fun v hv => ?_) fun v hv => ?_
    · obtain ⟨_, _, hw⟩ := hv.writes
      exact hw.running hrun
    · obtain ⟨_, _, hw⟩ := hv.writes
      obtain ⟨m, rfl⟩ := hw.frame
      exact .next ((keepsStream_iff hcall).mpr rfl)

theorem cpUpdateU2_keepsStream : Answers (KeepsStream s) (cpUpdateU2 u s) :=
  .ite (fun hgo => .next (drain_keepsStream hcall hgo.2 _)) fun hstop =>
    .ite (fun hmore => replay1_keepsStream hs (by omega)) fun _ => finishUpdate_keepsStream hcall _

theorem cpUpdate_keepsStream (hrun : s.faulted = none) : Answers (KeepsStream s) (cpUpdate u s) := by
  unfold cpUpdate
  cases hphase : u.phase with
  | u0 => exact cpUpdateU0_keepsStream hcall hs hphase
  | u1 => exact cpUpdateU1_keepsStream hcall hs hrun
  | u2 => exact cpUpdateU2_keepsStream hcall hs

end

/-! ## The other calls -/

/-- Where no chunk waits, a return of a call keeps the stream. -/
theorem keepsStream_returned {s u : State} {name : CallName} {v : ResultValue} (hpending : pendingChunk s = [])
    (hu : u.streamWith [] = s.streamWith []) : KeepsStream s (u.returned name v) := by
  rw [KeepsStream, outboundStream_returned, hu, outboundStream_eq, hpending]

/-- Where a session is open before and after the step of a call other than UPDATE, no queue is touched. -/
theorem CallEffect.keepsStream_of_other {s t : State} {c : Call} (h : CallEffect s c t) (hcall : s.call = some c)
    (hother : ∀ u, c ≠ .update u) (hs : ControlOk s) (hactive : s.sess.active = true) (hstays : t.sess.active = true) :
    KeepsStream s t := by
  have hpending := pendingChunk_of_other hcall hother
  cases h with
  | raises code => exact outboundStream_raised s code
  | opens _ _ hclosed => exact absurd (hclosed.inactive.symm.trans hstays) (by decide)
  | begins =>
    obtain ⟨_, hidle, _⟩ := (callOk_beginB2 hcall).mp hs.callRecord
    exact absurd (hidle.symm.trans hactive) (by decide)
  | ends hclosed => exact absurd (hclosed.inactive.symm.trans hstays) (by decide)
  | starts | finishes | publishes | allPublished | drains | replays => exact absurd rfl (hother _)
  | claims =>
    rw [KeepsStream, outboundStream_eq s, hpending]
    rfl
  | writes hwrites =>
    obtain ⟨m, rfl⟩ := hwrites.frame
    exact keepsStream_returned hpending rfl
  | _ => exact keepsStream_returned hpending rfl

theorem execCpStep_keepsStream {s t : State} (hs : ControlOk s) (ht : exec .cpStep s = .next t)
    (hopen : (∃ u, s.call = some (.update u)) ∨ (s.sess.active = true ∧ t.sess.active = true)) : KeepsStream s t := by
  obtain ⟨hrun, c, hcall, heffect⟩ := execCpStep_effect s t ht
  by_cases hupdate : ∃ u, c = .update u
  · obtain ⟨u, rfl⟩ := hupdate
    exact cpUpdate_keepsStream hcall hs hrun t ((execCpStep_of_call hrun hcall).symm.trans ht)
  · have hother : ∀ u, c ≠ .update u := not_exists.mp hupdate
    rcases hopen with ⟨u, hu⟩ | ⟨hactive, hstays⟩
    · exact absurd (Option.some.inj (hcall.symm.trans hu)) (hother u)
    · exact heffect.keepsStream_of_other hcall hother hs hactive hstays

/-- A Host operation's call starts with no chunk. -/
theorem issue_keepsStream {c : Call} {s t : State} (ht : live s (issue c s) = .next t)
    (hchunk : pendingChunk { s with call := some c } = []) : KeepsStream s t := by
  obtain ⟨_, rfl | ⟨hnone, _, rfl⟩⟩ := issue_answers c s t ht
  · exact outboundStream_raised s _
  · rw [KeepsStream, outboundStream_eq, outboundStream_eq s, hchunk, pendingChunk_of_none hnone]
    rfl

/-! ## The capture -/

/-- The outbound stream, and the detected bytes at its end. -/
def State.outView (s : State) : List Byte × List Byte := (outboundStream s, s.det.wfifo)

/-- A capture of class `cls` keeps the stream, or records its byte, which joins the stream's end (42_mailbox.md R175). -/
inductive Joins (cls : DetClass) (s t : State) : Prop where
  | keeps (h : KeepsStream s t)
  | joins {b : Byte} (hcls : cls = .out b) (hfifo : t.det.wfifo = s.det.wfifo ++ [b])
      (hstream : outboundStream t = outboundStream s ++ [b])

section
variable {cls : DetClass} {s t : State}

/-- What a step does before and after its capture leaves the stream and the FIFO alone. -/
theorem Joins.congr {s' t' : State} (h : Joins cls s t) (hbefore : s'.outView = s.outView) (hafter : t'.outView = t.outView) :
    Joins cls s' t' := by
  obtain ⟨hstream, hfifo⟩ := Prod.mk.inj hbefore
  obtain ⟨hstream', hfifo'⟩ := Prod.mk.inj hafter
  cases h with
  | keeps h => exact .keeps (hstream'.trans (h.trans hstream.symm))
  | joins hcls hf hs => exact .joins hcls (by rw [hfifo', hf, hfifo]) (by rw [hstream', hs, hstream])

theorem Joins.keepsStream (h : Joins cls s t) (hcls : ∀ b, cls ≠ .out b) : KeepsStream s t := by
  cases h with
  | keeps h => exact h
  | joins hout => exact absurd hout (hcls _)

theorem Joins.keeps_or_joins {P : Byte → Prop} (h : Joins cls s t) (hP : ∀ b, cls = .out b → P b) :
    outboundStream t = outboundStream s ∨
      ∃ b, t.det.wfifo = s.det.wfifo ++ [b] ∧ outboundStream t = outboundStream s ++ [b] ∧ P b := by
  cases h with
  | keeps h => exact .inl h
  | joins hcls hfifo hstream => exact .inr ⟨_, hfifo, hstream, hP _ hcls⟩

end

/-- A recorded byte joins the end of the stream. -/
theorem outboundStream_recorded (b : Byte) (s : State) :
    outboundStream { s with det := { s.det with wfifo := s.det.wfifo ++ [b] } } = outboundStream s ++ [b] :=
  (List.append_assoc _ _ _).symm

theorem pushW_joins (b : Byte) (s : State) : Answers (Joins (.out b) s) (pushW b s) :=
  .ite (fun _ => .next (.joins rfl rfl (outboundStream_recorded b s))) fun _ =>
    .ite (fun _ => .next (.keeps (outboundStream_raised s _))) fun _ => .next (.keeps rfl)

theorem pushR_joins (s : State) : Answers (Joins .consume s) (pushR s) :=
  .ite (fun _ => .next (.keeps rfl)) fun _ =>
    .ite (fun _ => .next (.keeps (outboundStream_raised s _))) fun _ => .next (.keeps rfl)

theorem recordEvent_joins {cls : DetClass} {push : State → StepResult} (hpush : ∀ u, Answers (Joins cls u) (push u))
    (s : State) : Answers (Joins cls s) (recordEvent push s) := by
  have hreported : s.reported.outView = s.outView := congrArg (·, s.det.wfifo) (outboundStream_emit rfl)
  refine .ite (fun _ => .ite (fun _ => ?_) fun _ => ?_) fun _ => hpush s
  · exact .next ((Joins.keeps (s := s) rfl).congr rfl hreported)
  · exact (hpush s.reported).mono fun _ ht => ht.congr hreported.symm rfl

theorem captureClass_joins (cls : DetClass) (s : State) : Answers (Joins cls s) (captureClass cls s) := by
  cases cls with
  | plain => exact .next (.keeps rfl)
  | out b => exact recordEvent_joins (pushW_joins b) s
  | consume => exact recordEvent_joins pushR_joins s

/-- The draws of a malformed access leave the stream and the FIFO alone (42_mailbox.md R174). -/
theorem unsettled_outView (s : State) : (unsettled s).outView = s.outView := by
  have hemit := congrArg (·, s.det.wfifo) (outboundStream_emit (s := s) (e := .timingViolation .unsettledAccess) rfl)
  cases hclass : Config.drawClass s.draws with
  | plain => exact (congrArg (fun p => p.2.outView) (malformed_of_plain hclass)).trans hemit
  | out => exact (congrArg (fun p => p.2.outView) (malformed_of_out hclass)).trans hemit
  | consume => exact (congrArg (fun p => p.2.outView) (malformed_of_consume hclass)).trans hemit

/-- An access that closes is captured as some class. -/
theorem closeAccess_joins (s : State) : Answers (fun t => ∃ cls, Joins cls s t) (closeAccess s) := by
  refine .ite (fun _ => ?_) fun _ => .next ⟨.plain, .keeps rfl⟩
  cases s.acc.seen with
  | some a => exact (captureClass_joins _ s).mono fun _ ht => ⟨_, ht⟩
  | none => exact (captureClass_joins _ _).mono fun _ ht => ⟨_, ht.congr (unsettled_outView s).symm rfl⟩

/-- The window rows are the capture of a class, by armed detectors only. -/
theorem row_joins (cls : DetClass) (s : State) :
    Answers (Joins cls s) (live s (if s.det.armed then captureClass cls s else .next s)) :=
  .live fun _ => .ite (fun _ => captureClass_joins cls s) fun _ => .next (.keeps rfl)

/-! ## Every instruction -/

theorem execBusAddr_joins (a : Word) (s : State) : Answers (fun t => ∃ cls, Joins cls s t) (execBusAddr a s) :=
  .live fun _ => .ite (fun _ => .next ⟨.plain, .keeps rfl⟩) fun _ =>
    .ite (fun _ => .andThen (closeAccess_joins s) (fun _ ⟨cls, hu⟩ _ => .next ⟨cls, hu.congr rfl rfl⟩) fun _ hu _ => hu)
      fun _ => .next ⟨.plain, .keeps rfl⟩

theorem execBusEnable_joins (ce oe : Bool) (s : State) : Answers (fun t => ∃ cls, Joins cls s t) (execBusEnable ce oe s) :=
  .live fun _ => .ite (fun _ => .next ⟨.plain, .keeps rfl⟩) fun _ =>
    .ite (fun _ => .andThen (closeAccess_joins (s.withEnables ce oe))
        (fun _ ⟨cls, hu⟩ _ => .next ⟨cls, hu.congr rfl rfl⟩) fun _ ⟨cls, hu⟩ _ => ⟨cls, hu.congr rfl rfl⟩)
      fun _ => .next ⟨.plain, .keeps rfl⟩

theorem execBusSettle_keepsStream (s : State) : Answers (KeepsStream s) (execBusSettle s) :=
  .live fun _ => .ite (fun _ => .next rfl) fun _ => .ite (fun _ => .next rfl) fun _ => .next rfl

theorem execBusLatch_keepsStream (s : State) : Answers (KeepsStream s) (execBusLatch s) := by
  refine .live fun _ => ?_
  cases latchKind s with
  | none => exact .next (outboundStream_emit rfl)
  | some kind => exact .next ((outboundStream_emit (s := s.emit _) (e := .timingViolation kind) rfl).trans (outboundStream_emit rfl))

theorem execOeseqStep_keepsStream (s : State) : Answers (KeepsStream s) (execOeseqStep s) :=
  .live fun _ => .ite (fun _ => .hold) fun _ => .next rfl

theorem execDrvShift_keepsStream (s : State) : Answers (KeepsStream s) (execDrvShift s) :=
  .live fun _ => .ite (fun _ => .hold) fun _ => .next rfl

theorem execRespSample_keepsStream (s : State) : Answers (KeepsStream s) (execRespSample s) := by
  intro t ht
  obtain ⟨_, hsample⟩ := execRespSample_answers s t ht
  rcases sample_state s with hs | hs <;> rw [hs] at hsample <;> obtain rfl | ⟨-, rfl⟩ := hsample <;> rfl

theorem exec_keepsStream_or_joins {i : Instr} {s t : State} (hs : ControlOk s) (ht : exec i s = .next t)
    (hactive : s.sess.active = true) (hstays : t.sess.active = true) :
    outboundStream t = outboundStream s ∨
      ∃ b, t.det.wfifo = s.det.wfifo ++ [b] ∧ outboundStream t = outboundStream s ++ [b] ∧
        (i = .mboxOut b ∨ (∃ a, i = .busAddr a) ∨ ∃ ce oe, i = .busEnable ce oe) := by
  cases i with
  | busAddr a =>
    obtain ⟨_, h⟩ := execBusAddr_joins a s t ht
    exact h.keeps_or_joins fun _ _ => .inr (.inl ⟨a, rfl⟩)
  | busEnable ce oe =>
    obtain ⟨_, h⟩ := execBusEnable_joins ce oe s t ht
    exact h.keeps_or_joins fun _ _ => .inr (.inr ⟨ce, oe, rfl⟩)
  | mboxOut b =>
    exact (row_joins (.out b) s t ht).keeps_or_joins fun b' hb => .inl (congrArg Instr.mboxOut (DetClass.out.inj hb))
  | mboxConsume => exact .inl ((row_joins .consume s t ht).keepsStream nofun)
  | plainRead => exact .inl ((row_joins .plain s t ht).keepsStream nofun)
  | busSettle => exact .inl (execBusSettle_keepsStream s t ht)
  | busLatch => exact .inl (execBusLatch_keepsStream s t ht)
  | oeseqStep => exact .inl (execOeseqStep_keepsStream s t ht)
  | drvShift => exact .inl (execDrvShift_keepsStream s t ht)
  | repStep =>
    obtain ⟨_, rfl | rfl⟩ := execRepStep_answers s t ht
    · exact .inl rfl
    · exact .inl rfl
  | respSample => exact .inl (execRespSample_keepsStream s t ht)
  | respServe =>
    obtain ⟨_, _, rfl | rfl⟩ := execRespServe_answers s t ht
    · exact .inl rfl
    · exact .inl rfl
  | irqW =>
    obtain ⟨_, _, h⟩ := execIrqW_handles s t ht
    exact .inl (h.keepsStream hs.channel.outqOk)
  | irqR =>
    obtain ⟨_, h⟩ := execIrqR_handles s t ht
    exact .inl h.keepsStream
  | cpStep => exact .inl (execCpStep_keepsStream hs ht (.inr ⟨hactive, hstays⟩))
  | tick => exact .inl (next_eq.mp (live_next.mp ht).2 ▸ rfl)
  | _ => exact .inl (issue_keepsStream ht rfl)

/-- Settles O52: every instruction by `exec_keepsStream_or_joins`; the handlers and the steps of UPDATE by what each can do to the
queues; and MBOX_OUT with room by its equation (`exec_mboxOut_of_running`). -/
theorem outboundStreamIsKept : Obligations.OutboundStreamIsKept := by
  intro s t hgood _
  have hs := (good_iff.mp hgood).2
  refine ⟨fun i hactive hstays ht => exec_keepsStream_or_joins hs ht hactive hstays, ?_, fun b harmed hresumed hroom ht => ?_⟩
  · rintro i (rfl | rfl | ⟨rfl, hupdate⟩) ht
    · obtain ⟨_, _, h⟩ := execIrqW_handles s t ht
      exact h.keepsStream hs.channel.outqOk
    · obtain ⟨_, h⟩ := execIrqR_handles s t ht
      exact h.keepsStream
    · exact execCpStep_keepsStream hs ht (.inl hupdate)
  · obtain ⟨hrun, _⟩ := live_next.mp ht
    have hpushed := next_eq.mp ((exec_mboxOut_of_running hrun harmed b hresumed).symm.trans ht)
    rw [hpushed, State.pushedW, if_pos hroom]
    exact outboundStream_recorded b s

end Sys2Proof.Machine
end

section
/-! SUPPORT. Issuing a call, TICK, the calls of the suspension, and the model faults of the calls (43_control_plane.md R200, R216 to R219,
R224, R225; 60_exceptions.md R254): the branch each step takes where its checks hold, and where one fails. -/

namespace Sys2Proof.Machine

/-! ## TICK -/

/-- Settles O58: TICK's meaning in a run that has not ended (`live_running`). -/
theorem tickAdvancesTime : Obligations.TickAdvancesTime := ⟨rfl, fun _ hrun => live_running hrun _⟩

/-! ## The Host operations -/

theorem issue_of_busy {c : Call} {s : State} (hbusy : s.call ≠ none) : issue c s = .refused .infeasible := by
  obtain ⟨d, hd⟩ := Option.ne_none_iff_exists'.mp hbusy
  simp only [issue, hd, hold]

/-- A call that is not admitted while suspended is a model fault (43_control_plane.md R224). -/
theorem issue_of_suspended {c : Call} {s : State} (hnone : s.call = none) (hsuspended : s.suspended = true)
    (hnot : c.admittedSuspended = false) : issue c s = .next (s.raised .callWhileSuspended) := by
  simp only [issue, hnone]
  exact if_pos ⟨hsuspended, hnot⟩

/-- The operations whose calls a suspension admits (43_control_plane.md R224). -/
theorem admittedSuspended_iff {i : Instr} {c : Call} (hi : hostCall i = some c) :
    c.admittedSuspended = true ↔ i = .suspend ∨ i = .resume ∨ (∃ r, i = .persist r) ∨ ∃ m, i = .setMask m := by
  cases i <;> cases hi <;> simp [Call.admittedSuspended]

/-- Settles O38: a Host operation is the issue of its call (`exec_of_hostCall`), and `admittedSuspended_iff` names the calls that a
suspension admits. -/
theorem hostOperationsIssueTheirCalls : Obligations.HostOperationsIssueTheirCalls := by
  intro i c s hi hrun
  rw [exec_of_hostCall hi, live_running hrun, ← admittedSuspended_iff hi]
  exact ⟨issue_of_busy, fun hnone hresumed => issue_of hnone (.inl hresumed), fun hnone _ hadmitted => issue_of hnone (.inr hadmitted),
    fun hnone hsuspended hnot => issue_of_suspended hnone hsuspended (Bool.not_eq_true _ ▸ hnot)⟩

/-! ## The calls of the suspension -/

/-- SET_MASK past its checks of the suspension and the session: the value is taken, or is a model fault (43_control_plane.md R219). -/
theorem cpSetMask_of_suspended_idle {m : Word} {s : State} (hsuspended : s.suspended = true) (hidle : s.sess.active = false) :
    cpSetMask m s = if maskLegal s.cfg m = false then raise .maskInvalid s else ret .setMask .ok { s with addressMask := m } :=
  (if_neg (by simp [hsuspended])).trans (if_neg (by simp [hidle]))

/-- Settles O43: each step's passed checks, and its return (`ret`) after its one write. -/
theorem suspensionCallsComplete : Obligations.SuspensionCallsComplete := by
  intro s hrun
  refine ⟨fun hcall hresumed => ?_, fun hcall hsuspended => ?_, fun r hcall hsuspended => ?_,
    fun m hcall hsuspended hidle hpow hcap hbits => ?_⟩
  · exact (execCpStep_of_call hrun hcall).trans (if_neg (by simp [hresumed]))
  · exact (execCpStep_of_call hrun hcall).trans (if_pos hsuspended)
  · exact (execCpStep_of_call hrun hcall).trans (if_pos hsuspended)
  · have hlegal : maskLegal s.cfg m = true := maskLegal_iff.mpr ⟨hpow, hcap, hbits⟩
    exact (execCpStep_of_call hrun hcall).trans
      ((cpSetMask_of_suspended_idle hsuspended hidle).trans (if_neg (by simp [hlegal])))

/-! ## The model faults of the calls -/

theorem not_maskLegal {p : Params} {m : Word}
    (h : (∀ k, m.toNat + 1 ≠ 2 ^ k) ∨ p.romCap < m.toNat + 1 ∨ 2 ^ p.addrBits ≤ m.toNat) : maskLegal p m = false := by
  refine Bool.eq_false_iff.mpr fun hlegal => ?_
  obtain ⟨⟨k, hk⟩, hcap, hbits⟩ := maskLegal_iff.mp hlegal
  rcases h with hpow | hout | hwide
  · exact hpow k hk
  · exact absurd hcap (Nat.not_le.mpr hout)
  · exact absurd hbits (Nat.not_lt.mpr hwide)

/-- ROM_WRITE of bytes that lie inside the buffer and meet an active session's window (43_control_plane.md R222). -/
theorem cpRomWriteW1_of_overlap {data : List Byte} {base : Word} {s : State} (hin : s.romPtr.toNat + data.length ≤ s.cfg.romCap)
    (hactive : s.sess.active = true) (hbase : s.sess.base = some base) (hne : data ≠ [])
    (hbelow : s.romPtr.toNat < base.toNat + Config.winSize) (habove : base.toNat < s.romPtr.toNat + data.length) :
    cpRomWriteW1 data s = raise .mailboxOverlapWrite s :=
  (if_neg (Nat.not_lt.mpr hin)).trans <| (if_pos ⟨hactive, List.length_pos_iff.mpr hne⟩).trans <|
    (withBase_of hbase _).trans (if_pos ⟨hbelow, habove⟩)

/-- Settles O46: each call's first check that fails, in the order of its rule. -/
theorem callFaults : Obligations.CallFaults := by
  intro s hrun
  refine ⟨fun _ _ hcall hunits => ?_, fun _ _ hcall hunits hmask => ?_, fun hcall hsuspended => ?_, fun hcall hresumed => ?_,
    fun _ hcall hresumed => ?_, fun _ hcall hresumed => ?_, fun _ hcall hsuspended hactive => ?_,
    fun _ hcall hsuspended hidle hillegal => ?_, fun _ hcall hout => ?_, fun _ hcall hout => ?_,
    fun _ _ hcall hin hactive hbase hne hbelow habove => ?_⟩ <;> refine (execCpStep_of_call hrun hcall).trans ?_
  · exact if_pos hunits
  · exact (if_neg (Nat.not_lt.mpr hunits)).trans (if_pos hmask)
  · exact if_pos hsuspended
  · exact if_neg (by simp [hresumed])
  · exact if_neg (by simp [hresumed])
  · exact if_pos hresumed
  · exact (if_neg (by simp [hsuspended])).trans (if_pos hactive)
  · exact (cpSetMask_of_suspended_idle hsuspended hidle).trans (if_pos (not_maskLegal hillegal))
  · exact if_pos hout
  · exact if_pos hout
  · exact cpRomWriteW1_of_overlap hin hactive hbase hne hbelow habove

end Sys2Proof.Machine
end

section
/-! SUPPORT. Sessions and ROM_WRITE (43_control_plane.md R201, R202, R206, R222): the writes of each step lie inside the ROM Buffer, so it
answers a next state; and what that state's bytes are. -/

namespace Sys2Proof.Machine

/-! ## The end of a session -/

/-- `w` is `s` with the `active` field at `base` cleared, and no other byte of the buffer changed. -/
structure ActiveCleared (base : Word) (s w : State) : Prop where
  frame : ∃ m, w = { s with rom := m }
  value : w.field base 4 = 0
  bytes : ∀ o, o < base.toNat + 4 ∨ base.toNat + 8 ≤ o → w.romByte o = s.romByte o

/-- Where a session's `active` field lies inside the buffer, its close answers a state and the step goes on from it
(43_control_plane.md R201, R206). -/
theorem closeSession_andThen_of_le {s : State} {base : Word} (hrun : s.faulted = none) (hbase : s.sess.base = some base)
    (hin : base.toNat + 8 ≤ s.cfg.romCap) (hwf : Memory.wf s.rom = true) :
    ∃ w, ActiveCleared base s w ∧ ∀ k, andThen (closeSession s) k = k w.sessionClosed := by
  have hle : base.toNat + fieldActive + 4 ≤ s.cfg.romCap := by
    simp only [fieldActive]
    omega
  have hwrite := writeField_of_le (v := 0) hle
  have hwrites := writeField_writes _ _ _ s _ hwrite
  exact ⟨_, ⟨hwrites.frame, field_writeField_same hwf hwrite, hwrites.bytes hwf⟩,
    fun _ => andThen_of ((closeSession_next hrun).mpr ⟨base, hbase, hle, rfl⟩) hrun⟩

/-- Settles O42: with no session END_SESSION is its return; with one, its close (`closeSession_andThen_of_le`) comes first, and the write of
`active` is the one write to the buffer. -/
theorem endSessionCloses : Obligations.EndSessionCloses := by
  intro s hrun hcall
  have hexec := execCpStep_of_call hrun hcall
  refine ⟨fun hidle => hexec.trans (if_neg (by simp [hidle])), fun base hactive hbase hin hwf => ?_⟩
  obtain ⟨w, hcleared, hclose⟩ := closeSession_andThen_of_le hrun hbase hin hwf
  refine ⟨_, hexec.trans ((if_pos hactive).trans (hclose _)), ?_, hcleared.value, hcleared.bytes⟩
  obtain ⟨m, rfl⟩ := hcleared.frame
  rfl

/-! ## BEGIN_SESSION -/

/-- Step B1 past its checks of the units and the mask (43_control_plane.md R201). -/
theorem cpBeginB1_of_legal {a : Word} {s : State} (hunits : 5 ≤ s.cfg.smUnits) (hmask : 0x1FF ≤ s.addressMask.toNat) :
    cpBeginB1 a s = if s.sess.active then andThen (closeSession s) (openWindow a) else openWindow a s :=
  (if_neg (Nat.not_lt.mpr hunits)).trans (if_neg (Nat.not_lt.mpr hmask))

/-- Settles O39: the window opens at once, or after the active session's close (`closeSession_andThen_of_le`), whose write of
`active` is the one write to the buffer. -/
theorem beginStepB1 : Obligations.BeginStepB1 := by
  intro s a b0 hrun hcall hunits hmask
  have hexec := (execCpStep_of_call hrun hcall).trans (cpBeginB1_of_legal hunits hmask)
  refine ⟨fun hidle => hexec.trans (if_neg (by simp [hidle])), fun old hactive hold hin hwf => ?_⟩
  obtain ⟨w, hcleared, hclose⟩ := closeSession_andThen_of_le hrun hold hin hwf
  refine ⟨_, hexec.trans ((if_pos hactive).trans (hclose _)), ?_, hcleared.value, hcleared.bytes⟩
  obtain ⟨m, rfl⟩ := hcleared.frame
  rfl

/-- The three writes of step B2, in order, in a window inside the buffer (43_control_plane.md R202). -/
theorem cpBeginB2_of_le {base : Word} {s : State} (hrun : s.faulted = none) (hin : base.toNat + 512 ≤ s.cfg.romCap) :
    ∃ s₁ s₂ s₃, writeRom base.toNat (List.replicate Config.winSize 0) s = .next s₁ ∧
      writeRom base.toNat magicBytes s₁ = .next s₂ ∧ writeField base fieldActive 1 (armSession base s₂) = .next s₃ ∧
      cpBeginB2 base s = .next (State.returned { s₃ with inflight := none } .begin .ok) := by
  obtain ⟨s₁, hzeros⟩ : ∃ s₁, writeRom base.toNat (List.replicate Config.winSize 0) s = .next s₁ :=
    ⟨_, writeRom_of_le (by simpa only [List.length_replicate, Config.winSize])⟩
  have h₁ := writeRom_writes _ _ _ s₁ hzeros
  obtain ⟨s₂, hmagic⟩ : ∃ s₂, writeRom base.toNat magicBytes s₁ = .next s₂ :=
    ⟨_, writeRom_of_le (by rw [h₁.cfg]; simp only [magicBytes, List.length_cons, List.length_nil]; omega)⟩
  have h₂ := writeRom_writes _ _ _ s₂ hmagic
  obtain ⟨s₃, hactive⟩ : ∃ s₃, writeField base fieldActive 1 (armSession base s₂) = .next s₃ :=
    ⟨_, writeField_of_le (by rw [armSession_cfg, h₂.cfg, h₁.cfg]; simp only [fieldActive]; omega)⟩
  have hrun₂ := h₂.running (h₁.running hrun)
  have hrun₃ := (writeField_writes _ _ _ _ s₃ hactive).running hrun₂
  exact ⟨s₁, s₂, s₃, hzeros, hmagic, hactive,
    (andThen_of hzeros (h₁.running hrun)).trans ((andThen_of hmagic hrun₂).trans (andThen_of hactive hrun₃))⟩

/-- The bytes of a window that has just opened: the tag, and zeros from offset 8 on (20_memory.md R70, R71). -/
theorem romByte_of_windowWrites {base : Word} {s s₁ s₂ s₃ : State} (hwf : Memory.wf s.rom = true)
    (hzeros : writeRom base.toNat (List.replicate Config.winSize 0) s = .next s₁)
    (hmagic : writeRom base.toNat magicBytes s₁ = .next s₂)
    (hactive : writeField base fieldActive 1 (armSession base s₂) = .next s₃) :
    (∀ k, k < 4 → s₃.romByte (base.toNat + k) = magicBytes.getD k 0) ∧
      ∀ o, base.toNat + 8 ≤ o → o < base.toNat + 512 → s₃.romByte o = 0 := by
  have hwf₁ := (writeRom_writes _ _ _ s₁ hzeros).wf hwf
  have hwf₂ := (writeRom_writes _ _ _ s₂ hmagic).wf hwf₁
  have houtside (o : Nat) (ho : o < base.toNat + 4 ∨ base.toNat + 8 ≤ o) : s₃.romByte o = s₂.romByte o :=
    (writeField_writes _ _ _ _ s₃ hactive).bytes hwf₂ o ho
  have htag (o : Nat) : s₂.romByte o =
      if base.toNat ≤ o ∧ o < base.toNat + 4 then magicBytes.getD (o - base.toNat) 0 else s₁.romByte o :=
    romByte_writeRom hwf₁ hmagic o
  have hzero := romByte_writeRom hwf hzeros
  simp only [List.length_replicate, Config.winSize] at hzero
  refine ⟨fun k hk => ?_, fun o hlo hhi => ?_⟩
  · rw [houtside _ (.inl (by omega)), htag, if_pos (by omega), Nat.add_sub_cancel_left]
  · rw [houtside o (.inr hlo), htag, if_neg (by omega), hzero, if_pos (by omega)]
    exact List.getD_replicate _ (by omega)

/-- Settles O41: the step's three writes (`cpBeginB2_of_le`) open the window (`windowOpened_of_writes`) and leave its bytes
(`romByte_of_windowWrites`). -/
theorem beginStepB2 : Obligations.BeginStepB2 := by
  intro s a base hrun hcall hwf hin
  obtain ⟨s₁, s₂, s₃, hzeros, hmagic, hactive, hstep⟩ := cpBeginB2_of_le hrun hin
  obtain ⟨hwrites, hfield, -⟩ := windowOpened_of_writes hzeros hmagic hactive
  obtain ⟨htag, hzero⟩ := romByte_of_windowWrites hwf hzeros hmagic hactive
  refine ⟨_, (execCpStep_of_call hrun hcall).trans hstep, ?_, htag 0 (by decide), htag 1 (by decide), htag 2 (by decide),
    htag 3 (by decide), hfield hwf, hzero, hwrites.bytes hwf⟩
  obtain ⟨m, rfl⟩ := hwrites.frame
  rfl

/-! ## ROM_WRITE -/

/-- Step W1 of bytes inside the buffer and apart from any active session's window (43_control_plane.md R222). -/
theorem cpRomWriteW1_of_apart {data : List Byte} {s : State} (hin : s.romPtr.toNat + data.length ≤ s.cfg.romCap)
    (hapart : data = [] ∨ s.sess.active = false ∨ ∃ base : Word, s.sess.base = some base ∧
      (base.toNat + 512 ≤ s.romPtr.toNat ∨ s.romPtr.toNat + data.length ≤ base.toNat)) :
    cpRomWriteW1 data s = startWrite data s := by
  refine (if_neg (Nat.not_lt.mpr hin)).trans ?_
  rcases hapart with rfl | hidle | ⟨base, hbase, hapart⟩
  · exact if_neg (by simp)
  · exact if_neg (by simp [hidle])
  · have hclear : ¬ (s.romPtr.toNat < base.toNat + Config.winSize ∧ base.toNat < s.romPtr.toNat + data.length) := by
      simp only [Config.winSize]
      omega
    rw [withBase_of hbase, if_neg hclear, ite_self]

/-- Step W2 of bytes inside the buffer (43_control_plane.md R222). -/
theorem cpRomWriteW2_of_le {data : List Byte} {s : State} (hrun : s.faulted = none)
    (hin : s.romPtr.toNat + data.length ≤ s.cfg.romCap) :
    ∃ w, writeRom s.romPtr.toNat data s = .next w ∧
      cpRomWriteW2 data s = .next (State.returned { advancePtr data.length w with inflight := none } .romWrite .ok) :=
  have hwrite := writeRom_of_le hin
  ⟨_, hwrite, andThen_of hwrite hrun⟩

/-- Settles O45: step W1 is its end (`cpRomWriteW1_of_apart`); step W2 writes the data (`cpRomWriteW2_of_le`), and a read of a byte gives
what was written or the old byte (`romByte_writeRom`). -/
theorem romWriteWritesItsRange : Obligations.RomWriteWritesItsRange := by
  intro s data hrun hin
  refine ⟨fun hcall hnil => ?_, fun hcall hne hapart => ?_, fun hcall hwf => ?_⟩
  · exact (execCpStep_of_call hrun hcall).trans ((cpRomWriteW1_of_apart hin (.inl hnil)).trans (if_pos hnil))
  · exact (execCpStep_of_call hrun hcall).trans ((cpRomWriteW1_of_apart hin (.inr hapart)).trans (if_neg hne))
  · obtain ⟨w, hwrite, hstep⟩ := cpRomWriteW2_of_le hrun hin
    have hbyte := romByte_writeRom hwf hwrite
    refine ⟨_, (execCpStep_of_call hrun hcall).trans hstep, ?_, fun k hk => ?_, fun o ho => ?_⟩
    · obtain ⟨m, rfl⟩ := (writeRom_writes _ _ _ w hwrite).frame
      rw [advancePtr_eq]
      rfl
    · exact (hbyte _).trans (by rw [if_pos (by omega), Nat.add_sub_cancel_left])
    · exact (hbyte o).trans (if_neg (by omega))

end Sys2Proof.Machine
end

section
/-! SUPPORT. The steps of UPDATE (43_control_plane.md R207 to R215): the branch each takes, and what its parts (`Publish`, `Drain1`,
`Replay1`, `FlushChunk`) answer. -/

namespace Sys2Proof.Machine

/-! ## The step of each phase -/

section
variable {s : State} {u : UpdateCall} (hrun : s.faulted = none) (hcall : s.call = some (.update u))
include hrun hcall

theorem execCpStep_of_u0 (hphase : u.phase = .u0) : exec .cpStep s = cpUpdateU0 u s :=
  (execCpStep_of_call hrun hcall).trans (by simp only [callStep, cpUpdate, hphase])

theorem execCpStep_of_u1 (hphase : u.phase = .u1) : exec .cpStep s = cpUpdateU1 u s :=
  (execCpStep_of_call hrun hcall).trans (by simp only [callStep, cpUpdate, hphase])

theorem execCpStep_of_u2 (hphase : u.phase = .u2) : exec .cpStep s = cpUpdateU2 u s :=
  (execCpStep_of_call hrun hcall).trans (by simp only [callStep, cpUpdate, hphase])

end

/-- Step U1 past the last byte (43_control_plane.md R211). -/
theorem cpUpdateU1_of_end {u : UpdateCall} {s : State} (hend : u.i = u.data.length) :
    cpUpdateU1 u s = setUpdate { u with left := s.outq.count + s.deferred.length, phase := .u2 } s := by
  simp only [cpUpdateU1, List.getElem?_eq_none (Nat.le_of_eq hend.symm)]

theorem cpUpdateU1_of_room {u : UpdateCall} {s : State} {b : Byte} (hdata : u.data[u.i]? = some b)
    (hroom : s.inq.count < s.cfg.inqCap) :
    cpUpdateU1 u s = andThen (publish b s) (setUpdate { u with i := u.i + 1 }) := by
  simp only [cpUpdateU1, hdata, if_pos hroom]

/-- Step U1 with a byte to publish and the Inbound Queue full (43_control_plane.md R211). -/
theorem cpUpdateU1_of_full {u : UpdateCall} {s : State} {b : Byte} (hdata : u.data[u.i]? = some b)
    (hfull : s.cfg.inqCap ≤ s.inq.count) :
    cpUpdateU1 u s =
      if u.timeout.toNat ≤ s.nowMs - u.t0 then finishUpdate u (.timeout u.i) s
      else if 0 < s.outq.count then setUpdate (drain1 u s).1 (drain1 u s).2
      else replay1 s := by
  simp only [cpUpdateU1, hdata, if_neg (Nat.not_lt.mpr hfull)]

/-- Settles O47: step U0 with and without a session, and the end of step U1's loop (`cpUpdateU1_of_end`). -/
theorem updateStartsAndLeavesItsLoop : Obligations.UpdateStartsAndLeavesItsLoop := by
  intro s u hrun hcall
  refine ⟨fun hphase hidle => ?_, fun hphase hactive => ?_, fun hphase hend => ?_⟩
  · exact (execCpStep_of_u0 hrun hcall hphase).trans (if_neg (by simp [hidle]))
  · exact (execCpStep_of_u0 hrun hcall hphase).trans (if_pos hactive)
  · exact (execCpStep_of_u1 hrun hcall hphase).trans (cpUpdateU1_of_end hend)

/-! ## Publish -/

/-- `Publish` in a window inside the buffer answers a next state (43_control_plane.md R209). -/
theorem publish_of_le {b : Byte} {s : State} {base : Word} (hrun : s.faulted = none) (hbase : s.sess.base = some base)
    (hin : base.toNat + 20 ≤ s.cfg.romCap) : ∃ t, publish b s = .next t ∧ Published b s t := by
  obtain ⟨u, hu⟩ : ∃ u, writeField base fieldPending 1 (s.joined b) = .next u :=
    ⟨_, writeField_of_le (show base.toNat + 8 + 4 ≤ s.cfg.romCap by omega)⟩
  have hwrites := writeField_writes _ _ _ _ u hu
  have hrest : publish b s = if s.inq.count = 0 then offerInbound base b u else .next u :=
    (withBase_of hbase _).trans (andThen_of hu (hwrites.running hrun))
  have hanswers : ∃ t, publish b s = .next t := by
    by_cases hempty : s.inq.count = 0
    · obtain ⟨t, hoffer, -⟩ := offerInbound_of_le (b := b) (hwrites.running hrun) (hwrites.cfg ▸ hin)
      exact ⟨t, hrest.trans ((if_pos hempty).trans hoffer)⟩
    · exact ⟨u, hrest.trans (if_neg hempty)⟩
  obtain ⟨t, ht⟩ := hanswers
  exact ⟨t, ht, publish_publishes b hrun t ht⟩

section
variable {b : Byte} {s t : State} {base : Word} (h : Published b s t) (hwf : Memory.wf s.rom = true)
  (hbase : s.sess.base = some base)
include h hwf hbase

theorem Published.pending : t.field base fieldPending = 1 := by
  cases h with
  | joins hbase' _ hwrite =>
    obtain rfl := Option.some.inj (hbase.symm.trans hbase')
    exact field_writeField_same (s := s.joined b) hwf hwrite
  | first hbase' _ hwrite hoffered =>
    obtain rfl := Option.some.inj (hbase.symm.trans hbase')
    have hwf' := (writeField_writes _ _ _ _ _ hwrite).wf hwf
    exact (hoffered.writes.field_eq hwf' (.inl (le_refl _))).trans (field_writeField_same (s := s.joined b) hwf hwrite)

/-- Into an empty queue the byte is offered too (43_control_plane.md R209). -/
theorem Published.offers (hempty : s.inq.count = 0) :
    t.field base fieldInByte = b.zeroExtend 32 ∧ t.field base fieldInSeq = s.field base fieldInSeq + 1 := by
  cases h with
  | joins _ hsome => exact absurd hempty hsome
  | first hbase' _ hwrite hoffered =>
    obtain rfl := Option.some.inj (hbase.symm.trans hbase')
    have hwrites := writeField_writes _ _ _ _ _ hwrite
    have hwf' := hwrites.wf hwf
    have hkept := hwrites.field_eq (base := base) (off := fieldInSeq) hwf (.inr (by simp only [fieldPending, fieldInSeq]; omega))
    exact ⟨hoffered.byte hwf', (hoffered.seq hwf').trans (congrArg (· + 1) hkept)⟩

/-- Into a queue that holds bytes only `pending` is written (43_control_plane.md R209). -/
theorem Published.bytes_of_nonempty (hsome : s.inq.count ≠ 0) (o : Nat) (ho : o < base.toNat + 8 ∨ base.toNat + 12 ≤ o) :
    t.romByte o = s.romByte o := by
  cases h with
  | joins hbase' _ hwrite =>
    obtain rfl := Option.some.inj (hbase.symm.trans hbase')
    exact (writeField_writes _ _ _ (s.joined b) t hwrite).bytes hwf o ho
  | first _ hempty => exact absurd hempty hsome

end

/-- Settles O48: step U1 with room is `Publish` and the index (`cpUpdateU1_of_room`, `publish_of_le`); the fields and bytes are what
`Published` says. -/
theorem updatePublishesAByte : Obligations.UpdatePublishesAByte := by
  intro s u b base hrun hcall hphase hdata hle hroom hbase hin hwf
  have hcount : s.inq.count = s.inq.head - s.inq.tail := rfl
  obtain ⟨v, hpublish, hpublished⟩ := publish_of_le (b := b) hrun hbase (by omega)
  obtain ⟨base', hbase', hwrites⟩ := hpublished.writes
  obtain rfl := Option.some.inj (hbase.symm.trans hbase')
  have hstep := (cpUpdateU1_of_room hdata (by omega)).trans (andThen_of hpublish (hwrites.running hrun))
  refine ⟨_, (execCpStep_of_u1 hrun hcall hphase).trans hstep, ?_, hpublished.pending hwf hbase, fun hempty => ?_, fun hsome => ?_⟩
  · obtain ⟨m, rfl⟩ := hwrites.frame
    rfl
  · obtain ⟨hbyte, hseq⟩ := hpublished.offers hwf hbase (by omega)
    exact ⟨hbyte, hseq, hwrites.bytes hwf⟩
  · exact hpublished.bytes_of_nonempty hwf hbase (by omega)

/-! ## FlushChunk, Drain1 and Replay1 -/

/-- The end of an UPDATE call, whole: the remaining chunk is forwarded if there is one, and the call returns (43_control_plane.md R213(c),
R215). -/
theorem finishUpdate_eq (u : UpdateCall) (v : ResultValue) (s : State) :
    finishUpdate u v s = .next { s with
      call := none
      history := s.history ++ (if u.chunk = [] then [] else [.xfer u.chunk]) ++ [.result .update v] } := by
  unfold finishUpdate flushChunk
  split <;> simp [ret, State.emit]

/-- `Drain1`, by cases: a chunk that reaches CHUNK_SIZE is forwarded (43_control_plane.md R209, R214). -/
theorem drain1_eq_ite (u : UpdateCall) (s : State) :
    drain1 u s =
      if (u.chunk ++ [s.outq.front s.cfg.outqCap]).length = s.cfg.chunkSize then
        ({ u with chunk := [] }, State.emit { s with outq := s.outq.pop } (.xfer (u.chunk ++ [s.outq.front s.cfg.outqCap])))
      else ({ u with chunk := u.chunk ++ [s.outq.front s.cfg.outqCap] }, { s with outq := s.outq.pop }) := by
  simp only [drain1, flushChunk, List.append_eq_nil_iff, List.cons_ne_self, and_false, if_false]

/-- A step that drains a byte and goes on with the call's record changed by `f`: as it is in step U1, one less left in U2. -/
theorem setUpdate_drain1 (f : UpdateCall → UpdateCall) (u : UpdateCall) (s : State) :
    setUpdate (f (drain1 u s).1) (drain1 u s).2 =
      .next (if (u.chunk ++ [s.outq.front s.cfg.outqCap]).length = s.cfg.chunkSize then
          { s with
            outq := s.outq.pop
            history := s.history ++ [.xfer (u.chunk ++ [s.outq.front s.cfg.outqCap])]
            call := some (.update (f { u with chunk := [] })) }
        else
          { s with
            outq := s.outq.pop
            call := some (.update (f { u with chunk := u.chunk ++ [s.outq.front s.cfg.outqCap] })) }) := by
  rw [drain1_eq_ite]
  by_cases hfull : (u.chunk ++ [s.outq.front s.cfg.outqCap]).length = s.cfg.chunkSize
  · rw [if_pos hfull, if_pos hfull]
    rfl
  · rw [if_neg hfull, if_neg hfull]
    rfl

/-- `Replay1` in a window inside the buffer: the oldest deferred byte is accepted (43_control_plane.md R210). -/
theorem replay1_of_le {s : State} {d : Byte} {rest : List Byte} {base : Word} (hdeferred : s.deferred = d :: rest)
    (hbase : s.sess.base = some base) (hin : base.toNat + 24 ≤ s.cfg.romCap) (hwf : Memory.wf s.rom = true) :
    ∃ t, replay1 s = .next t ∧
      t = { s with rom := t.rom, deferred := rest, outq := s.outq.push s.cfg.outqCap d } ∧
      t.field base 20 = s.field base 20 + 1 ∧
      ∀ o, o < base.toNat + 20 ∨ base.toNat + 24 ≤ o → t.romByte o = s.romByte o := by
  obtain ⟨t, ht, hbump⟩ := bumpField_of_le (base := base) (off := fieldOutSeq)
    (s := { s with deferred := rest, outq := s.outq.push s.cfg.outqCap d }) hin
  refine ⟨t, ?_, ?_, hbump.value hwf, hbump.writes.bytes hwf⟩
  · simp only [replay1, hdeferred]
    exact (withBase_of hbase _).trans ht
  · obtain ⟨m, rfl⟩ := hbump.writes.frame
    rfl

theorem replay1_of_nil {s : State} (hdeferred : s.deferred = []) : replay1 s = .refused .infeasible := by
  simp only [replay1, hdeferred, hold]

/-! ## U1 with the queue full, and U2 -/

/-- Settles O49: the branches of `cpUpdateU1_of_full`, each by what its part answers (`finishUpdate_eq`, `drain1_eq_ite`,
`replay1_of_le`, `replay1_of_nil`). -/
theorem updateWaitsWhileFull : Obligations.UpdateWaitsWhileFull := by
  intro s u b hrun hcall hphase hdata hfull
  have hexec := (execCpStep_of_u1 hrun hcall hphase).trans (cpUpdateU1_of_full hdata hfull)
  have hcount : s.outq.count = s.outq.head - s.outq.tail := rfl
  refine ⟨fun hlate => ?_, fun hearly hsome => ?_, fun d rest base hearly hempty hdeferred hbase hin hwf => ?_,
    fun hearly hempty hnone => ?_⟩
  · exact hexec.trans ((if_pos hlate).trans (finishUpdate_eq _ _ _))
  · rw [hexec, if_neg (by omega), if_pos (by omega)]
    exact setUpdate_drain1 id u s
  · rw [hexec, if_neg (by omega), if_neg (by omega)]
    exact replay1_of_le hdeferred hbase hin hwf
  · rw [hexec, if_neg (by omega), if_neg (by omega)]
    exact replay1_of_nil hnone

/-- Settles O50: the branches of step U2, each by what its part answers (`drain1_eq_ite`, `replay1_of_le`, `finishUpdate_eq`). -/
theorem updateFinishSteps : Obligations.UpdateFinishSteps := by
  intro s u hrun hcall hphase
  have hexec : exec .cpStep s = cpUpdateU2 u s := execCpStep_of_u2 hrun hcall hphase
  have hcount : s.outq.count = s.outq.head - s.outq.tail := rfl
  refine ⟨fun hleft hsome => ?_, fun d rest base hleft hempty hdeferred hbase hin hwf => ?_, fun hdone => ?_⟩
  · rw [hexec, cpUpdateU2, if_pos ⟨hleft, by omega⟩]
    exact setUpdate_drain1 (fun v => { v with left := u.left - 1 }) u s
  · rw [hexec, cpUpdateU2, if_neg (by omega), if_pos ⟨hleft, by simp [hdeferred]⟩]
    exact replay1_of_le hdeferred hbase hin hwf
  · have hstop : ¬ (0 < u.left ∧ s.deferred ≠ []) := fun ⟨hleft, hmore⟩ =>
      hdone.elim (Nat.ne_of_gt hleft) fun ⟨_, hnone⟩ => hmore hnone
    rw [hexec, cpUpdateU2, if_neg (by omega), if_neg hstop]
    exact finishUpdate_eq u .ok s

end Sys2Proof.Machine
end

section
/-! SUPPORT. The finish of UPDATE is bounded (43_control_plane.md R215): each CP_STEP of step U2 returns the call, drains a byte, or
replays one that the next CP_STEP drains; and no other operation touches the call or takes a byte from the Outbound Queue. -/

namespace Sys2Proof.Machine

/-! ## One CP_STEP of the finish -/

/-- The call has returned Ok (43_control_plane.md R215). -/
structure ReturnedOk (t : State) : Prop where
  call : t.call = none
  result : t.history.getLast? = some (.result .update .ok)

/-- What a CP_STEP of the call `u` in step U2 leaves (43_control_plane.md R215). -/
inductive FinishStep (s : State) (u : UpdateCall) (t : State) : Prop where
  | returns (h : ReturnedOk t)
  | drains {v : UpdateCall} (hcall : t.call = some (.update v)) (hphase : v.phase = .u2) (hqueued : 0 < s.outq.count)
      (hleft : v.left + 1 = u.left)
  | replays (hcall : t.call = some (.update u)) (hempty : s.outq.count = 0) (hleft : 0 < u.left) (hqueued : 0 < t.outq.count)

/-- The call `u` is in step U2 of a run that goes on, and the control plane's invariants hold. -/
structure Finishing (s : State) (u : UpdateCall) : Prop where
  control : ControlOk s
  running : s.faulted = none
  call : s.call = some (.update u)
  phase : u.phase = .u2

/-- From a good state step U2 never holds or faults. -/
theorem Finishing.step {s : State} {u : UpdateCall} (h : Finishing s u) :
    ∃ t, exec .cpStep s = .next t ∧ t.faulted = none ∧ FinishStep s u t := by
  obtain ⟨hs, hrun, hcall, hphase⟩ := h
  have hexec := execCpStep_of_u2 hrun hcall hphase
  by_cases hdrain : 0 < u.left ∧ 0 < s.outq.count
  · obtain ⟨chunk, history, hdrained, -⟩ := drain1_eq u s
    rw [hexec, cpUpdateU2, if_pos hdrain, hdrained]
    exact ⟨_, rfl, hrun, .drains rfl hphase hdrain.2 (Nat.sub_add_cancel hdrain.1)⟩
  by_cases hreplay : 0 < u.left ∧ s.deferred ≠ []
  · obtain ⟨_, _, _, _, _, _, hactive, _⟩ := (callOk_update hcall).mp hs.callRecord
    obtain ⟨base, hbase, hin⟩ := hs.channel.hasWindow (hactive (by simp [hphase]))
    obtain ⟨d, rest, hdeferred⟩ := List.exists_cons_of_ne_nil hreplay.2
    obtain ⟨t, ht, hframe, -⟩ := replay1_of_le hdeferred hbase (by omega) hs.channel.buffer.1
    have hpush : t.outq.count = s.outq.count + 1 := by
      rw [hframe]
      exact Queue.count_push d hs.channel.outqOk.2.1
    rw [hexec, cpUpdateU2, if_neg hdrain, if_pos hreplay]
    refine ⟨t, ht, ?_, .replays ?_ (by omega) hreplay.1 (by omega)⟩
    · rw [hframe, hrun]
    · rw [hframe, hcall]
  · rw [hexec, cpUpdateU2, if_neg hdrain, if_neg hreplay, finishUpdate_eq]
    exact ⟨_, rfl, hrun, .returns ⟨rfl, List.getLast?_concat⟩⟩

/-- Each CP_STEP returns the call or lowers the measure. -/
theorem FinishStep.measure {s t : State} {u : UpdateCall} (h : FinishStep s u t) (hphase : u.phase = .u2) :
    t.call = none ∨ ∃ v, t.call = some (.update v) ∧ v.phase = .u2 ∧ finishMeasure t v < finishMeasure s u := by
  cases h with
  | returns h => exact .inl h.call
  | drains hcall hphase' hqueued hleft =>
    refine .inr ⟨_, hcall, hphase', ?_⟩
    simp only [finishMeasure]
    split <;> omega
  | replays hcall hempty hleft hqueued =>
    refine .inr ⟨u, hcall, hphase, ?_⟩
    simp only [finishMeasure, if_pos hempty, if_neg (Nat.ne_of_gt hqueued)]
    omega

/-! ## The whole finish -/

/-- A run of at most `n` CP_STEPs returns the call, with Ok, and raises no fault. -/
def FinishesWithin (n : Nat) (s : State) : Prop :=
  ∃ k t, k ≤ n ∧ replay (List.replicate k .cpStep) s = .next t ∧ t.faulted = none ∧ ReturnedOk t

theorem FinishesWithin.of_returned {n : Nat} {t : State} (hrun : t.faulted = none) (h : ReturnedOk t) : FinishesWithin n t :=
  ⟨0, t, Nat.zero_le n, rfl, hrun, h⟩

theorem FinishesWithin.of_step {n : Nat} {s t : State} (ht : exec .cpStep s = .next t) (h : FinishesWithin n t) :
    FinishesWithin (n + 1) s := by
  obtain ⟨k, r, hk, hreplay, hr⟩ := h
  exact ⟨k + 1, r, Nat.succ_le_succ hk, replay_cons_next.mpr ⟨t, ht, hreplay⟩, hr⟩

theorem FinishesWithin.mono {m n : Nat} {s : State} (h : FinishesWithin m s) (hmn : m ≤ n) : FinishesWithin n s := by
  obtain ⟨k, t, hk, hreplay⟩ := h
  exact ⟨k, t, hk.trans hmn, hreplay⟩

section
variable {n : Nat} {s : State} {u : UpdateCall}

/-- With a byte queued the CP_STEP drains it. -/
theorem Finishing.within_of_queued (ih : ∀ {t v}, Finishing t v → v.left = n → FinishesWithin (2 * n + 1) t)
    (h : Finishing s u) (hleft : u.left = n + 1) (hqueued : 0 < s.outq.count) : FinishesWithin (2 * n + 2) s := by
  obtain ⟨t, ht, hrun, hstep⟩ := h.step
  refine .of_step ht ?_
  cases hstep with
  | returns hreturned => exact .of_returned hrun hreturned
  | drains hcall hphase _ hless => exact ih ⟨exec_control h.control ht hrun, hrun, hcall, hphase⟩ (by omega)
  | replays _ hempty => exact absurd hempty (Nat.ne_of_gt hqueued)

/-- Each byte left takes a CP_STEP that drains it, and where it was deferred one more before that; the last CP_STEP returns. -/
theorem Finishing.within (h : Finishing s u) (hleft : u.left = n) : FinishesWithin (2 * n + 1) s := by
  induction n generalizing s u with
  | zero =>
    obtain ⟨t, ht, hrun, hstep⟩ := h.step
    cases hstep with
    | returns hreturned => exact .of_step ht (.of_returned hrun hreturned)
    | drains _ _ _ hless => omega
    | replays _ _ hpos => omega
  | succ n ih =>
    obtain ⟨t, ht, hrun, hstep⟩ := h.step
    cases hstep with
    | returns hreturned => exact .of_step ht (.of_returned hrun hreturned)
    | drains _ _ hqueued => exact (h.within_of_queued ih hleft hqueued).mono (Nat.le_succ _)
    | replays hcall _ _ hqueued =>
      refine .of_step ht ?_
      exact Finishing.within_of_queued ih ⟨exec_control h.control ht hrun, hrun, hcall, h.phase⟩ hleft hqueued

end

/-! ## The other operations -/

/-- The call is untouched, and no byte leaves the Outbound Queue. -/
structure LeavesFinish (s t : State) : Prop where
  call : t.call = s.call := by exact rfl
  queued : s.outq.count ≤ t.outq.count := by exact le_refl _

theorem LeavesControl.leavesFinish {s t : State} (h : LeavesControl s t) : LeavesFinish s t := by
  have hcontrol := h.control
  simp only [State.controlView, State.callView, State.channelView, Prod.mk.injEq] at hcontrol
  obtain ⟨⟨-, -, -, -, -, hcall, -⟩, ⟨-, -, -, -, -, houtq, -⟩, -⟩ := hcontrol
  exact ⟨hcall, by rw [houtq]⟩

/-- IRQ_W may accept a byte, which joins the Outbound Queue. -/
theorem WriteHandled.leavesFinish {s t : State} (h : WriteHandled s t) (hle : s.outq.tail ≤ s.outq.head) : LeavesFinish s t := by
  cases h with
  | accepts _ _ _ h =>
    obtain ⟨_, _, hbump⟩ := h
    obtain ⟨m, rfl⟩ := hbump.writes.frame
    exact { queued := (Nat.le_succ _).trans_eq (Queue.count_push _ hle).symm }
  | defers _ h =>
    subst h
    exact {}

theorem ReadHandled.leavesFinish {s t : State} (h : ReadHandled s t) : LeavesFinish s t := by
  cases h with
  | nothing h =>
    subst h
    exact {}
  | empties _ _ _ h =>
    obtain ⟨m, rfl⟩ := (writeField_writes _ _ _ _ t h).frame
    exact {}
  | offers _ _ h =>
    obtain ⟨m, rfl⟩ := h.writes.frame
    exact {}

/-- While a call is in progress a Host operation issues none. -/
theorem issue_leavesFinish {c d : Call} {s t : State} (hcall : s.call = some d) (ht : live s (issue c s) = .next t) :
    LeavesFinish s t := by
  obtain ⟨_, rfl | ⟨hnone, _⟩⟩ := issue_answers c s t ht
  · exact {}
  · exact absurd (hcall.symm.trans hnone) (by simp)

theorem exec_leavesFinish {i : Instr} {c : Call} {s t : State} (hle : s.outq.tail ≤ s.outq.head) (hcall : s.call = some c)
    (ht : exec i s = .next t) (hi : i ≠ .cpStep) : LeavesFinish s t := by
  cases i with
  | busAddr a => exact (execBusAddr_leaves a s t ht).leavesFinish
  | busSettle => exact (execBusSettle_leaves s t ht).leavesFinish
  | busEnable ce oe => exact (execBusEnable_leaves ce oe s t ht).leavesFinish
  | busLatch => exact (execBusLatch_leaves s t ht).leavesFinish
  | oeseqStep => exact (execOeseqStep_leaves s t ht).leavesFinish
  | drvShift => exact (execDrvShift_leaves s t ht).leavesFinish
  | repStep =>
    obtain ⟨_, rfl | rfl⟩ := execRepStep_answers s t ht
    · exact {}
    · exact {}
  | respSample => exact (execRespSample_leaves s t ht).leavesFinish
  | respServe => exact (execRespServe_leaves s t ht).leavesFinish
  | irqW =>
    obtain ⟨_, _, h⟩ := execIrqW_handles s t ht
    exact h.leavesFinish hle
  | irqR =>
    obtain ⟨_, h⟩ := execIrqR_handles s t ht
    exact h.leavesFinish
  | cpStep => exact absurd rfl hi
  | tick =>
    obtain rfl := next_eq.mp (live_next.mp ht).2
    exact {}
  | mboxOut b => exact (row_captured (.out b) s t ht).leaves.leavesFinish
  | mboxConsume => exact (row_captured .consume s t ht).leaves.leavesFinish
  | plainRead => exact (row_captured .plain s t ht).leaves.leavesFinish
  | _ => exact issue_leavesFinish hcall ht

theorem LeavesFinish.measure {s t : State} (h : LeavesFinish s t) (u : UpdateCall) : finishMeasure t u ≤ finishMeasure s u := by
  have hqueued := h.queued
  simp only [finishMeasure]
  split <;> split <;> omega

/-- Settles O51: the whole finish by induction on the bytes left (`Finishing.within`), each CP_STEP by what it can do
(`Finishing.step`), and every other operation by what it leaves alone (`exec_leavesFinish`). -/
theorem updateFinishIsBounded : Obligations.UpdateFinishIsBounded := by
  intro s u hgood hrun hcall hphase
  have hs := (good_iff.mp hgood).2
  have hfinishing : Finishing s u := ⟨hs, hrun, hcall, hphase⟩
  refine ⟨?_, ?_, fun i t hi ht => ?_⟩
  · obtain ⟨k, t, hk, hreplay, hrun', hcall', hresult⟩ := hfinishing.within rfl
    exact ⟨k, t, hk, hreplay, hrun', hcall', hresult⟩
  · obtain ⟨t, ht, hrun', hstep⟩ := hfinishing.step
    exact ⟨t, ht, hrun', hstep.measure hphase⟩
  · have hleaves := exec_leavesFinish hs.channel.outqOk.2.1 hcall ht hi
    exact ⟨hleaves.call, hleaves.measure u⟩

end Sys2Proof.Machine
end

section
/-! SUPPORT. No inbound byte is lost, doubled or reordered (43_control_plane.md R227(a)): the Inbound Queue's bytes, with those UPDATE has
not published behind them. -/

namespace Sys2Proof.Machine

theorem Queue.contents_of_empty {q : Queue} {cap : Nat} (hempty : q.count = 0) : q.contents cap = [] := by
  simp only [Queue.contents, hempty, List.range_zero, List.map_nil]

/-- The next byte to publish is the first of those not published. -/
theorem unpublished_cons {u : UpdateCall} {b : Byte} (hdata : u.data[u.i]? = some b) :
    unpublished u = b :: unpublished { u with i := u.i + 1 } := by
  obtain ⟨hlt, rfl⟩ := List.getElem?_eq_some_iff.mp hdata
  exact List.drop_eq_getElem_cons hlt

/-- An UPDATE that goes on keeps the Inbound Queue's bytes with the unpublished ones behind them (43_control_plane.md R211). -/
theorem CallEffect.inbound {s t : State} {u v : UpdateCall} (h : CallEffect s (.update u) t) (hs : ChannelOk s)
    (hcall : s.call = some (.update u)) (hcall' : t.call = some (.update v)) (hrun : t.faulted = none) :
    t.inq.contents t.cfg.inqCap ++ unpublished v = s.inq.contents s.cfg.inqCap ++ unpublished u := by
  cases h with
  | raises code => cases hrun
  | finishes => cases hcall'
  | starts | allPublished | drains =>
    cases hcall'
    rfl
  | publishes _ hdata hroom hpublished =>
    obtain ⟨_, _, hw⟩ := hpublished.writes
    obtain ⟨m, rfl⟩ := hw.frame
    cases hcall'
    rw [unpublished_cons hdata]
    exact (congrArg (· ++ _) (Queue.contents_push hs.inqOk hroom _)).trans (List.append_assoc _ _ _)
  | replays _ _ haccepted =>
    obtain ⟨_, _, hbump⟩ := haccepted
    obtain ⟨m, rfl⟩ := hbump.writes.frame
    obtain rfl : u = v := Call.update.inj (Option.some.inj (hcall.symm.trans hcall'))
    rfl

/-- IRQ_R takes the front of an Inbound Queue that holds bytes (42_mailbox.md R181). -/
theorem execIrqR_inq (s : State) :
    Answers (fun t => t.cfg = s.cfg ∧ t.inq = if s.inq.count = 0 then s.inq else s.inq.pop) (execIrqR s) := by
  refine .live fun hrun => .ite (fun _ => .hold) fun _ => .ite (fun hempty => .next ⟨rfl, (if_pos hempty).symm⟩) fun hsome =>
    .withBase fun base _ => .ite (fun _ => ?_) fun _ => ?_
  · refine (writeField_writes base fieldPending 0 s.popped).mono fun t hw => ?_
    obtain ⟨m, rfl⟩ := hw.frame
    exact ⟨rfl, (if_neg hsome).symm⟩
  · refine (offerInbound_offers (s := s.popped) base _ hrun).mono fun t hoffered => ?_
    obtain ⟨m, rfl⟩ := hoffered.writes.frame
    exact ⟨rfl, (if_neg hsome).symm⟩

/-- Settles O53: UPDATE by the outcomes of its step (`CallEffect.inbound`), IRQ_R by what it does to the queue (`execIrqR_inq`). -/
theorem inboundOrderIsKept : Obligations.InboundOrderIsKept := by
  intro s t hgood hrun
  refine ⟨fun u v hcall hcall' ht => ?_, fun ht => ?_⟩
  · obtain ⟨_, c, hc, heffect⟩ := execCpStep_effect s t ht
    obtain rfl := Option.some.inj (hc.symm.trans hcall)
    exact heffect.inbound hgood.channel hcall hcall' hrun
  · obtain ⟨hcfg, hinq⟩ := execIrqR_inq s t ht
    rw [hcfg, hinq]
    by_cases hempty : s.inq.count = 0
    · rw [if_pos hempty, if_pos hempty, List.nil_append]
    · rw [if_neg hempty, if_neg hempty, Queue.contents_of_pos (Nat.pos_of_ne_zero hempty), List.singleton_append]

end Sys2Proof.Machine
end

section
/-! SUPPORT. Where a step holds (60_exceptions.md R251, R252; 41_read_path.md R150, R151, R154; 43_control_plane.md R200): a step that
its guard lets through answers a state or stops, and nothing after the guard holds again. -/

namespace Sys2Proof.Machine

/-! ## Answers that are not a hold -/

theorem next_ne_hold {t : State} : (.next t : StepResult) ≠ hold := nofun

theorem fault_ne_hold {f : Fault} : (.fault f : StepResult) ≠ hold := nofun

theorem ite_ne_hold {c : Prop} [Decidable c] {r₁ r₂ : StepResult} (h₁ : r₁ ≠ hold) (h₂ : r₂ ≠ hold) :
    (if c then r₁ else r₂) ≠ hold := by
  split
  · exact h₁
  · exact h₂

theorem andThen_ne_hold {r : StepResult} {k : State → StepResult} (hr : r ≠ hold) (hk : ∀ u, k u ≠ hold) :
    andThen r k ≠ hold := by
  cases r with
  | next u =>
    cases hu : u.faulted with
    | none =>
      rw [andThen_of rfl hu]
      exact hk u
    | some code =>
      simp only [andThen, hu]
      exact next_ne_hold
  | fault f => exact fault_ne_hold
  | refused q => exact hr

theorem withBase_ne_hold {s : State} {k : Word → StepResult} (hk : ∀ base, k base ≠ hold) : withBase s k ≠ hold := by
  unfold withBase
  split
  next base _ => exact hk base
  next => exact fault_ne_hold

theorem writeField_ne_hold {base : Word} {off : Nat} {v : Word} {s : State} : writeField base off v s ≠ hold :=
  ite_ne_hold next_ne_hold fault_ne_hold

theorem acceptOutbound_ne_hold {b : Byte} {s : State} : acceptOutbound b s ≠ hold :=
  withBase_ne_hold fun _ => writeField_ne_hold

theorem offerInbound_ne_hold {base : Word} {b : Byte} {s : State} : offerInbound base b s ≠ hold :=
  andThen_ne_hold writeField_ne_hold fun _ => writeField_ne_hold

/-! ## Guarded steps -/

/-- A step whose body never holds, holds exactly where its guard stops it. -/
theorem guarded_eq_hold_iff {c : Prop} [Decidable c] {r : StepResult} (hr : r ≠ hold) : (if c then hold else r) = hold ↔ c :=
  hr.symm.ite_eq_left_iff

theorem intR_eq_false_iff {s : State} : intR s = false ↔ ¬ (s.det.rirqEn = true ∧ 0 < s.det.rcount) := by
  rw [← Bool.not_eq_true, intR, Bool.and_eq_true, decide_eq_true_iff]

section
variable {s : State} (hrun : s.faulted = none)
include hrun

theorem live_eq_hold_iff {r : StepResult} : live s r = hold ↔ r = hold := by
  rw [live_running hrun]

/-- IRQ_W runs where its interrupt is pending and the Responder is not suspended (60_exceptions.md R251, R252). -/
theorem irqW_eq_hold_iff :
    exec .irqW s = hold ↔ ¬ (s.det.wirqEn = true ∧ s.det.wfifo ≠ [] ∧ s.suspended = false) := by
  refine (live_eq_hold_iff hrun).trans ?_
  cases s.det.wfifo with
  | nil => simp
  | cons b rest =>
    refine (guarded_eq_hold_iff (ite_ne_hold acceptOutbound_ne_hold next_ne_hold)).trans ?_
    simp [imp_iff_not_or]

/-- IRQ_R runs where its interrupt is pending and the Responder is not suspended (60_exceptions.md R251, R252). -/
theorem irqR_eq_hold_iff :
    exec .irqR s = hold ↔ ¬ (s.det.rirqEn = true ∧ 0 < s.det.rcount ∧ s.suspended = false) := by
  refine (live_eq_hold_iff hrun).trans ((guarded_eq_hold_iff (ite_ne_hold next_ne_hold ?_)).trans ?_)
  · exact withBase_ne_hold fun _ => ite_ne_hold writeField_ne_hold offerInbound_ne_hold
  · rw [intR_eq_false_iff, ← and_assoc, not_and_or (a := _ ∧ _), Bool.not_eq_false]

/-- RESP_SAMPLE, unless suspended, runs in each phase that its sampling mode samples in (41_read_path.md R151, R152, R153). -/
theorem respSample_eq_hold_iff :
    exec .respSample s = hold ↔
      s.suspended = true ∨ s.resp.phase = .serve ∨ (s.cfg.sampleMode = .single ∧ s.resp.phase = .s2) := by
  refine (live_eq_hold_iff hrun).trans ((ite_eq_left_iff.trans or_iff_not_imp_left.symm).trans (or_congr_right ?_))
  cases s.cfg.sampleMode with
  | single =>
    cases s.resp.phase with
    | s1 => exact iff_of_false next_ne_hold (by simp)
    | s2 => exact iff_of_true rfl (.inr ⟨rfl, rfl⟩)
    | serve => exact iff_of_true rfl (.inl rfl)
  | double =>
    cases s.resp.phase with
    | s1 => exact iff_of_false next_ne_hold (by simp)
    | s2 => exact iff_of_false (ite_ne_hold next_ne_hold next_ne_hold) (by simp)
    | serve => exact iff_of_true rfl (.inl rfl)

/-- RESP_SERVE, unless suspended, runs at SERVE alone (41_read_path.md R150, R154). -/
theorem respServe_eq_hold_iff : exec .respServe s = hold ↔ s.suspended = true ∨ s.resp.phase ≠ .serve :=
  (live_eq_hold_iff hrun).trans
    (guarded_eq_hold_iff (ite_ne_hold fault_ne_hold (ite_ne_hold next_ne_hold next_ne_hold)))

/-- CP_STEP has no sub-step to run without a call (43_control_plane.md R200). -/
theorem cpStep_hold (hidle : s.call = none) : exec .cpStep s = hold := by
  simp only [exec, execCpStep, live_running hrun, hidle]

end

/-- Settles O37: each step's hold is its guard's (`guarded_eq_hold_iff`); RESP_SAMPLE's is also a phase that it does not sample in. -/
theorem stepsHoldUnlessEnabled : Obligations.StepsHoldUnlessEnabled := fun _ hrun =>
  ⟨irqW_eq_hold_iff hrun, irqR_eq_hold_iff hrun, respSample_eq_hold_iff hrun, respServe_eq_hold_iff hrun, cpStep_hold hrun⟩

end Sys2Proof.Machine
end
